-- ==== Sys2Proof/Word.lean ====
section
/-! DEFINITION. The word types of the engine: bytes, 32-bit elements, 64-bit addresses and registers, and the two vector
widths (spec/00_scope.md R6, R7, R12). Nothing here computes; the vector primitives are in Machine/Operands.lean. -/

namespace Sys2Proof

/-- A byte of system memory (R60). -/
abbrev Byte := BitVec 8

/-- An element: an unsigned 32-bit integer (R6). -/
abbrev Elem := BitVec 32

/-- A byte address of system memory (R7, R60). -/
abbrev Addr := BitVec 64

/-- The whole value of a host-visible register (R20). -/
abbrev Reg64 := BitVec 64

/-- A `V128` value: four 32-bit lanes, lane 0 the one loaded from the lowest address (R12). -/
structure V128 where
  l0 : Elem
  l1 : Elem
  l2 : Elem
  l3 : Elem
  deriving DecidableEq, Repr

/-- A `V256` value: lanes 0 to 3 are its low half, lanes 4 to 7 its high half (R12). -/
structure V256 where
  lo : V128
  hi : V128
  deriving DecidableEq, Repr

/-- What the nibble-classification table answers (R178): no match possible, one candidate permutation `P`, ambiguous. -/
inductive Verdict where
  /-- NOMATCH. -/
  | noMatch
  /-- SINGLE(P): at most one possible alignment, the permutation `P`. -/
  | single (P : BitVec 8)
  /-- AMBIG: go on to the next stage. -/
  | ambig
  deriving DecidableEq, Repr, Inhabited

/-- All lanes 0. -/
def V128.zero : V128 := ⟨0, 0, 0, 0⟩

/-- All lanes 0. -/
def V256.zero : V256 := ⟨V128.zero, V128.zero⟩

end Sys2Proof
end

