-- ==== Sys2Proof/Syntax.lean ====
section
/-! DEFINITION. The commands of the engine as syntax: one constructor per row of spec/opcode_table.json
(spec/30_encoding.md R91). A command word carries no register numbers and no immediates (R93), so the only operand of a
command is its count-only bit, and only GALLOP, QF_B4 and QF_V2 have one (R92). -/

namespace Sys2Proof

/-- The eight commands. `co` is the count-only bit, the suffix `.CO` of R96. -/
inductive Instr where
  /-- TBLD, opcode 0x01: the lookup table builder (R173). -/
  | tbld
  /-- MERGE, opcode 0x02: the scalar merge fallback (R191). -/
  | merge
  /-- GALLOP and GALLOP.CO, opcode 0x03: the galloping kernel (R201). -/
  | gallop (co : Bool)
  /-- QF_B4 and QF_B4.CO, opcode 0x04: the basic block pre-filter (R220). -/
  | qfB4 (co : Bool)
  /-- QF_V2 and QF_V2.CO, opcode 0x05: the optimized block pre-filter (R227). -/
  | qfV2 (co : Bool)
  /-- SHUF4, opcode 0x06: the 4-wide shuffling kernel (R242). -/
  | shuf4
  /-- SHUF8, opcode 0x07: the 8-wide SSE shuffling kernel (R249). -/
  | shuf8
  /-- SHUF256, opcode 0x08: the 256-bit shuffling kernel (R256). -/
  | shuf256
  deriving DecidableEq, Repr

end Sys2Proof
end

