-- ==== Sys2Proof/WellFormed.lean ====
section
/-! DEFINITION. Which command words are legal (spec/30_encoding.md R90, R92, R94), said of the three fields of a word. The
syntax `Instr` admits no illegal command, so its well-formedness is that of the fields it is written with. -/

namespace Sys2Proof

/-- The fields of a command word (R90). -/
structure Fields where
  /-- `OP`, bits 7:0. -/
  op : BitVec 8
  /-- `CO`, bit 8. -/
  co : Bool
  /-- `RSV`, bits 63:9. -/
  rsv : BitVec 55
  deriving DecidableEq, Repr

/-- R94: the reserved field is 0. -/
def Fields.rsvZero (f : Fields) : Bool := f.rsv == 0

/-- R91: the opcode is one of 0x01 to 0x08; 0x00 and 0x09 to 0xFF are reserved. -/
def Fields.opKnown (f : Fields) : Bool := decide (1 ≤ f.op.toNat) && decide (f.op.toNat ≤ 8)

/-- R92: `CO = 1` only with GALLOP, QF_B4 and QF_V2. -/
def Fields.coAllowed (f : Fields) : Bool := !f.co || (f.op == 3 || f.op == 4 || f.op == 5)

/-- R94: a word is legal when none of the three conditions that make it illegal holds. -/
def Fields.wellFormed (f : Fields) : Bool := f.rsvZero && f.opKnown && f.coAllowed

/-- The opcode of a command (R91). -/
def Instr.opcode : Instr → BitVec 8
  | .tbld => 0x01
  | .merge => 0x02
  | .gallop _ => 0x03
  | .qfB4 _ => 0x04
  | .qfV2 _ => 0x05
  | .shuf4 => 0x06
  | .shuf8 => 0x07
  | .shuf256 => 0x08

/-- The count-only bit of a command: 0 where the command has none (R92). -/
def Instr.countOnly : Instr → Bool
  | .tbld => false
  | .merge => false
  | .gallop co => co
  | .qfB4 co => co
  | .qfV2 co => co
  | .shuf4 => false
  | .shuf8 => false
  | .shuf256 => false

/-- The fields a command is written with (R90). -/
def Instr.fields (i : Instr) : Fields := ⟨i.opcode, i.countOnly, 0⟩

/-- A command is well-formed when its fields are. -/
def Instr.wellFormed (i : Instr) : Bool := i.fields.wellFormed

end Sys2Proof
end

