-- ==== Sys2Proof/Decode.lean ====
section
/-! DEFINITION. The decoder and the encoder of command words (spec/30_encoding.md R90 to R95). Decoding is total on the
2^64 words and rejects by name; the all-zero word is illegal (R94). -/

namespace Sys2Proof

/-- Why a word is illegal: the three conditions of R94. -/
inductive DecodeError where
  /-- `RSV != 0`. -/
  | reservedBits
  /-- `OP` is 0x00 or 0x09 to 0xFF. -/
  | reservedOpcode
  /-- `CO = 1` with an opcode that does not allow it. -/
  | countOnlyNotAllowed
  deriving DecidableEq, Repr

/-- The fields of a command word (R90). -/
def wordFields (w : BitVec 64) : Fields := ⟨w.extractLsb' 0 8, w.getLsbD 8, w.extractLsb' 9 55⟩

/-- The opcode map (R91): the command of an opcode, with its count-only bit where it has one. -/
def commandOf (op : BitVec 8) (co : Bool) : Option Instr :=
  match op.toNat with
  | 1 => some .tbld
  | 2 => some .merge
  | 3 => some (.gallop co)
  | 4 => some (.qfB4 co)
  | 5 => some (.qfV2 co)
  | 6 => some .shuf4
  | 7 => some .shuf8
  | 8 => some .shuf256
  | _ => none

/-- The decoder (R94, R111): the command a word stands for, or the name of what makes it illegal. -/
def decode (w : BitVec 64) : Except DecodeError Instr :=
  let f := wordFields w
  if f.rsvZero = false then .error .reservedBits
  else if f.coAllowed = false && f.opKnown then .error .countOnlyNotAllowed
  else
    match commandOf f.op f.co with
    | some i => .ok i
    | none => .error .reservedOpcode

/-- The word of three fields (R90): `RSV` above `CO` above `OP`. -/
def Fields.word (f : Fields) : BitVec 64 := f.rsv ++ BitVec.ofBool f.co ++ f.op

/-- The encoder: the word of a command (R95). -/
def encode (i : Instr) : BitVec 64 := i.fields.word

/-- The 64-bit word whose eight bytes, the least significant first, are given; missing bytes are 0 and further ones are not
looked at (a command word is one 64-bit value, R90). -/
def wordOfBytes (bs : List Byte) : BitVec 64 :=
  bs.getD 7 0 ++ bs.getD 6 0 ++ bs.getD 5 0 ++ bs.getD 4 0 ++ bs.getD 3 0 ++ bs.getD 2 0 ++ bs.getD 1 0 ++ bs.getD 0 0

/-- The bytes of a word, the least significant first. -/
def bytesOfWord (w : BitVec 64) : List Byte := (List.range 8).map fun t => w.extractLsb' (8 * t) 8

/-- The decoder on bytes: total on any list of bytes. -/
def decodeBytes (bs : List Byte) : Except DecodeError Instr := decode (wordOfBytes bs)

/-- The instruction word of `nbits` bits whose value is `w`, numbered as spec/opcode_table.json numbers it (bit 0 the least
significant); the bits at and above `nbits` are 0. -/
def tableWord (nbits w : Nat) : BitVec 64 := BitVec.ofNat 64 (w % 2 ^ nbits)

/-- What the decoder reads from a table word laid out as bytes, the least significant first. -/
def decodeTableWord (nbits w : Nat) : Option Instr :=
  match decodeBytes (bytesOfWord (tableWord nbits w)) with
  | .ok i => some i
  | .error _ => none

end Sys2Proof
end

