-- ==== Sys2Proof/Config.lean ====
section
/-! DEFINITION. What the spec fixes once for the machine, and the free values: what a read of the table store yields before
the tables are built, which spec/10_state.md R40 leaves unspecified (entry 11), and what the host reads of a byte the engine
has stored before the host has observed completion (spec/20_memory.md R74, spec/70_reset_and_hazards.md R312; entry 27). A
free value is an opaque constant: nothing can evaluate it, so a statement that mentions it holds for every value of it. -/

namespace Sys2Proof

/-- The value register ID reads: "IXE1" in ASCII (R26). -/
def Config.idValue : Reg64 := 0x0000000049584531

/-- DESIGN CHOICE (unsafe, entry 7): what a byte of system memory that nothing has written reads as; the spec gives no
power-up contents of memory. -/
def Config.unlistedByte : Byte := 0

/-- FREE VALUE (entry 11): byte `k` of a SHUF4T or other 16-byte pattern, table number `t` (0 SHUF4T, 1 MSD, 2 GOA, 3 GOB),
index `x`, while `TBL_VALID = 0` (R40). -/
opaque Config.stalePattern (t x k : Nat) : Byte

/-- FREE VALUE (entry 11): index `t` of PERM8T entry `m` while `TBL_VALID = 0` (R40). -/
opaque Config.stalePerm8T (m t : Nat) : Elem

/-- FREE VALUE (entry 11): the verdict of NCT entry `x` while `TBL_VALID = 0` (R40). -/
opaque Config.staleNct (x : Nat) : Verdict

/-- FREE VALUE (entry 27): the byte that the host's read number `n` of a byte it has not been told of yields (R74, R312). -/
opaque Config.unseenByte (n : Nat) : Byte

end Sys2Proof
end

