-- ==== Sys2Proof/Machine/State.lean ====
section
/-! DEFINITION. The state of the machine: everything spec/10_state.md gives the engine, system memory, the platform's map of
readable and writable bytes, and the host's side (its pending lines and what it has read). Plain data throughout. -/

namespace Sys2Proof.Machine

/-- The control state (R33), in place of a program counter. -/
inductive Phase where
  /-- No command in progress. -/
  | idle
  /-- The word is being decoded and the launch checks made. -/
  | launch
  /-- The table builder is running. -/
  | tbuild
  /-- The block loop, or GALLOP's per-element loop, is running. -/
  | vec
  /-- The scalar merge loop is running. -/
  | tail
  deriving DecidableEq, Repr

/-- The six engine faults (R270, R271). They are exceptions the engine takes: a NEXT state, not a stop of the model. -/
inductive EngineFault where
  | illegalCmd
  | align
  | range
  | overlap
  | busRead
  | busWrite
  deriving DecidableEq, Repr

/-- A range of byte addresses: `size` bytes from `base`, modulo 2^64. -/
structure Region where
  base : Addr
  size : Nat
  deriving DecidableEq, Repr

/-- System memory (R60): the bytes that differ from what an unlisted address reads as, addresses strictly rising. -/
abbrev Memory := List Host.Cell

/-- The host-visible registers and flags (R20 to R31). BUSY is `phase` not IDLE (R28) and is not stored again; ID is a
constant. -/
structure Regs where
  /-- CMD, register 1 (R27). -/
  cmd : Reg64
  /-- STATUS bit 1 (R28). -/
  done : Bool
  /-- STATUS bit 2 (R28). -/
  fault : Bool
  /-- STATUS bits 15:8 (R28). -/
  faultCode : BitVec 8
  /-- STATUS bit 3, the gate of the table store (R28, R40). -/
  tblValid : Bool
  /-- CTRL bit 0 (R29); the other bits of CTRL are hardwired 0. -/
  ie : Bool
  /-- A_BASE, register 4 (R22). -/
  aBase : Addr
  /-- A_LEN, register 5, bits 31:0 (R23); bits 63:32 are hardwired 0. -/
  aLen : BitVec 32
  /-- B_BASE, register 6 (R24). -/
  bBase : Addr
  /-- B_LEN, register 7, bits 31:0 (R24). -/
  bLen : BitVec 32
  /-- OUT_BASE, register 8 (R25). -/
  outBase : Addr
  /-- COUNT, register 9 (R30). -/
  count : Reg64
  /-- FAULT_ADDR, register 10 (R31). -/
  faultAddr : Addr
  deriving DecidableEq, Repr

/-- The internal working registers (R35 to R38). Cursors, count and search temporaries are naturals, as R10 says (entry 12). -/
structure Work where
  /-- Cursor into A (R35). -/
  i : Nat
  /-- Cursor into B (R35). -/
  j : Nat
  /-- Running count and output cursor (R35). -/
  c : Nat
  /-- GALLOP: block index into B (R35). -/
  k : Nat
  /-- GALLOP: step size (R35). -/
  r : Nat
  /-- GALLOP: binary search bound (R35). -/
  lower : Nat
  /-- GALLOP: binary search bound (R35). -/
  upper : Nat
  /-- GALLOP: binary search probe (R35). -/
  mid : Nat
  /-- GALLOP: current element of A (R35). -/
  a : Elem
  /-- The latched count-only flag, `CMD[8]` (R36). -/
  co : Bool
  /-- Vector registers (R37). -/
  va : V128
  vb : V128
  va0 : V128
  va1 : V128
  vb0 : V128
  vb1 : V128
  ya : V256
  yb : V256
  /-- Match mask of 4 or 8 bits (R38); a 4-bit mask stands zero-extended. -/
  m : BitVec 8
  /-- SHUF8: match mask of the first A block (R38). -/
  m0 : BitVec 4
  /-- SHUF8: match mask of the second A block (R38). -/
  m1 : BitVec 4
  /-- Classification mask (R38). -/
  x : BitVec 16
  /-- Stage, 0 to 3 (R38, there named `s`). -/
  stage : Nat
  /-- Verdict (R38, there named `v`). -/
  verdict : Verdict
  deriving DecidableEq, Repr

/-- The platform's answers (R8, R66): the byte ranges whose bytes are not `Readable`, not `Writable`. Fixed while a command
runs; no step changes them (entry 8). -/
structure Port where
  unreadable : List Region
  unwritable : List Region
  deriving DecidableEq, Repr

/-- One line of the host's program (R96, R97), one access of the host to system memory, the reset input, or `elapse`: the
host makes no access and the engine moves once (entries 2, 3). -/
inductive HostLine where
  /-- `WR`, and `CMD` as the write of register 1: `HostWrite(n, v)`. -/
  | write (n : Nat) (v : Reg64)
  /-- `RD`: `HostRead(n)`. -/
  | read (n : Nat)
  /-- `WAIT`: repeat `HostRead(2)` until BUSY = 0. -/
  | wait
  /-- `RUN`: `CMD`, then `WAIT`, shown as one step of the machine (R9). -/
  | run (v : Reg64)
  /-- The host makes no access; the engine applies one rule. -/
  | elapse
  /-- The host writes a byte of system memory (R9). -/
  | memWrite (p : Addr) (b : Byte)
  /-- The host reads a byte of system memory (R9). -/
  | memRead (p : Addr)
  /-- The reset input (R300). -/
  | reset
  deriving DecidableEq, Repr

/-- The host's side of the interface (R9). -/
structure HostSide where
  /-- The lines still to come (R96; entry 2). -/
  script : List HostLine
  /-- The values the host has read, newest first (R96; entry 2). -/
  got : List Reg64
  /-- The bytes the engine has stored whose completion the host has not observed (R74, R312; entry 5). -/
  unseen : List Region
  /-- How many free values the host's reads of such bytes have taken so far (entry 27). -/
  draws : Nat
  deriving DecidableEq, Repr

/-- The state of the machine. -/
structure State where
  /-- Host-visible registers (R20). -/
  regs : Regs
  /-- Control state (R33). -/
  phase : Phase
  /-- Internal working registers (R35 to R38). -/
  work : Work
  /-- System memory (R60). -/
  mem : Memory
  /-- The platform's answers (R66). -/
  port : Port
  /-- The host's side (R9). -/
  host : HostSide
  deriving DecidableEq, Repr

/-- Why the model stops. No command ever does: the one reason is a host line for which the spec gives no step (entry 4). -/
inductive Fault where
  /-- Raised by a host memory line, while BUSY, that writes a storage window or touches the output window (R78, R310, U4).
  Safe: the spec gives the host no such move. -/
  | hostTouchesWindow
  deriving DecidableEq, Repr

/-- Why an instruction has no meaning. No arm of exec raises it: all eight commands have their meaning. -/
inductive Refusal where
  /-- The mnemonic of an instruction that has no meaning yet. Safe: the model stops. -/
  | notModelled (mnemonic : String)
  deriving DecidableEq, Repr

/-- The registers after reset (R45): all 0. -/
def Regs.reset : Regs where
  cmd := 0
  done := false
  fault := false
  faultCode := 0
  tblValid := false
  ie := false
  aBase := 0
  aLen := 0
  bBase := 0
  bLen := 0
  outBase := 0
  count := 0
  faultAddr := 0

/-- DESIGN CHOICE (unsafe, entry 9): the working registers after reset, which R45 leaves unspecified and U10 lets a model
choose: all 0. -/
def Work.reset : Work where
  i := 0
  j := 0
  c := 0
  k := 0
  r := 0
  lower := 0
  upper := 0
  mid := 0
  a := 0
  co := false
  va := V128.zero
  vb := V128.zero
  va0 := V128.zero
  va1 := V128.zero
  vb0 := V128.zero
  vb1 := V128.zero
  ya := V256.zero
  yb := V256.zero
  m := 0
  m0 := 0
  m1 := 0
  x := 0
  stage := 0
  verdict := .noMatch

/-- The machine right after reset (R45, R300): every host-visible register 0 (ID apart), phase IDLE, nothing listed in
memory; every byte readable and writable (entry 8), no host line pending (entry 2) and no free value taken (entry 27). -/
def State.reset : State where
  regs := Regs.reset
  phase := .idle
  work := Work.reset
  mem := []
  port := ⟨[], []⟩
  host := ⟨[], [], [], 0⟩

/-- Named update of the host-visible registers. -/
def State.setRegs (s : State) (v : Regs) : State := { s with regs := v }

/-- Named update of the control state. -/
def State.setPhase (s : State) (v : Phase) : State := { s with phase := v }

/-- Named update of the working registers. -/
def State.setWork (s : State) (v : Work) : State := { s with work := v }

/-- Named update of system memory. -/
def State.setMem (s : State) (v : Memory) : State := { s with mem := v }

/-- Named update of the host's side. -/
def State.setHost (s : State) (v : HostSide) : State := { s with host := v }

end Sys2Proof.Machine
end

