-- ==== Sys2Proof/Machine/Flags.lean ====
section
/-! DEFINITION. The flags (spec/10_state.md R28, R29, R33, R34, R41, spec/60_exceptions.md R271, R278): BUSY, the STATUS and
CTRL words, the fault codes, the interrupt output. -/

namespace Sys2Proof.Machine

/-- STATUS.BUSY: `phase != IDLE` (R28, R33). -/
def State.busy (s : State) : Bool :=
  match s.phase with
  | .idle => false
  | .launch => true
  | .tbuild => true
  | .vec => true
  | .tail => true

/-- The code of an engine fault (R271). -/
def faultCodeOf : EngineFault → BitVec 8
  | .illegalCmd => 0x01
  | .align => 0x02
  | .range => 0x03
  | .overlap => 0x04
  | .busRead => 0x05
  | .busWrite => 0x06

/-- The STATUS word of five fields (R28); bits 7:4 and 63:16 read 0. -/
def statusOf (busy done fault tblValid : Bool) (code : BitVec 8) : Reg64 :=
  (0 : BitVec 48) ++ code ++ (0 : BitVec 4) ++ BitVec.ofBool tblValid ++ BitVec.ofBool fault ++ BitVec.ofBool done ++
    BitVec.ofBool busy

/-- What STATUS reads (R28); while busy, BUSY and the gate only (R34; entry 17). -/
def State.statusWord (s : State) : Reg64 :=
  if s.busy then statusOf true false false s.regs.tblValid 0
  else statusOf false s.regs.done s.regs.fault s.regs.tblValid s.regs.faultCode

/-- What CTRL reads (R29). -/
def State.ctrlWord (s : State) : Reg64 := (BitVec.ofBool s.regs.ie).setWidth 64

/-- The interrupt output, a level (R278): IE and (DONE or FAULT), with DONE and FAULT as STATUS shows them. -/
def State.irq (s : State) : Bool := s.regs.ie && !s.busy && (s.regs.done || s.regs.fault)

end Sys2Proof.Machine
end

