-- ==== Sys2Proof/Machine/Operands.lean ====
section
/-! DEFINITION. The datapath primitives (spec/41_vector_primitives.md R143 to R151, R154, with the lane, byte and mask-bit
order of spec/00_scope.md R12), and the rounding of lengths (R14). All are pure functions (R140); the loads and stores are
in Machine/Ops.lean. -/

namespace Sys2Proof.Machine

/-- `Pad_W(n)`: `n` rounded up to a multiple of `W` (R14). -/
def padTo (W n : Nat) : Nat := W * ((n + W - 1) / W)

/-- `Full_W(n)`: `n` rounded down to a multiple of `W` (R14). -/
def fullTo (W n : Nat) : Nat := n - n % W

/-- Lane `l` of a V128 (R12), `l` in 0..3. -/
def lane4 (X : V128) (l : Nat) : Elem :=
  match l with
  | 0 => X.l0
  | 1 => X.l1
  | 2 => X.l2
  | _ => X.l3

/-- The V128 with the given lanes. -/
def ofLanes4 (f : Nat → Elem) : V128 := ⟨f 0, f 1, f 2, f 3⟩

/-- Lane `l` of a V256 (R12), `l` in 0..7. -/
def lane8 (Y : V256) (l : Nat) : Elem := if l < 4 then lane4 Y.lo l else lane4 Y.hi (l - 4)

/-- The V256 with the given lanes. -/
def ofLanes8 (f : Nat → Elem) : V256 := ⟨ofLanes4 f, ofLanes4 fun l => f (l + 4)⟩

/-- The lanes of a V128, lane 0 first. -/
def lanes4 (X : V128) : List Elem := [X.l0, X.l1, X.l2, X.l3]

/-- The lanes of a V256, lane 0 first. -/
def lanes8 (Y : V256) : List Elem := lanes4 Y.lo ++ lanes4 Y.hi

/-- Byte `t` of a 32-bit value (R11). -/
def byteOf (e : Elem) (t : Nat) : Byte := e.extractLsb' (8 * t) 8

/-- The 32-bit value with bytes `b0` (least significant) to `b3` (R61). -/
def elemOfBytes (b0 b1 b2 b3 : Byte) : Elem := b3 ++ b2 ++ b1 ++ b0

/-- Byte `k` of a V128: byte `k mod 4` of lane `k div 4` (R12). -/
def byte16 (X : V128) (k : Nat) : Byte := byteOf (lane4 X (k / 4)) (k % 4)

/-- The V128 with the given bytes. -/
def ofBytes16 (f : Nat → Byte) : V128 :=
  ofLanes4 fun l => elemOfBytes (f (4 * l)) (f (4 * l + 1)) (f (4 * l + 2)) (f (4 * l + 3))

/-- The mask whose bit `l` is `f l` (R12: bit `l` speaks of lane `l`). -/
def maskOf (n : Nat) (f : Nat → Bool) : BitVec n := BitVec.ofFnLE fun l : Fin n => f l.val

/-- `Bcast4` (R143). -/
def bcast4 (e : Elem) : V128 := ⟨e, e, e, e⟩

/-- `EqMask4` (R144). -/
def eqMask4 (X Y : V128) : BitVec 4 := maskOf 4 fun l => lane4 X l == lane4 Y l

/-- `EqMask8` (R144). -/
def eqMask8 (X Y : V256) : BitVec 8 := maskOf 8 fun l => lane8 X l == lane8 Y l

/-- `Rot4` (R145). -/
def rot4 (Y : V128) (r : Nat) : V128 := ofLanes4 fun l => lane4 Y ((l + r) % 4)

/-- `RotIn8` (R146): each half rotated within itself. -/
def rotIn8 (Y : V256) (r : Nat) : V256 := ofLanes8 fun l => lane8 Y (4 * (l / 4) + (l + r) % 4)

/-- `SwapHalves` (R146). -/
def swapHalves (Y : V256) : V256 := ofLanes8 fun l => lane8 Y ((l + 4) % 8)

/-- `Align8` (R146): the eight rotational alignments. -/
def align8 (Y : V256) (t : Nat) : V256 := if t < 4 then rotIn8 Y (t % 4) else rotIn8 (swapHalves Y) (t % 4)

/-- A 16-byte pattern of `Pshufb`, given by its byte `k` for `k` in 0..15 (R148). -/
abbrev Pattern := Nat → Byte

/-- `Pshufb` (R148): a pattern byte with bit 7 set zeroes, otherwise its bits [3:0] select. -/
def pshufb (X : V128) (P : Pattern) : V128 :=
  ofBytes16 fun k => if (P k).getLsbD 7 then 0 else byte16 X ((P k).toNat % 16)

/-- `AndNib` (R149). -/
def andNib (X : V128) : V128 := ofBytes16 fun k => byte16 X k &&& 0x0F

/-- `CmpEq8Mask` (R149). -/
def cmpEq8Mask (X Y : V128) : BitVec 16 := maskOf 16 fun k => byte16 X k == byte16 Y k

/-- `Permute8` (R150). -/
def permute8 (Y : V256) (idx : Nat → Elem) : V256 := ofLanes8 fun t => lane8 Y ((idx t).toNat % 8)

/-- The positions of the 1 bits of a mask, ascending. -/
def setBits {n : Nat} (m : BitVec n) : List Nat := (List.range n).filter fun l => m.getLsbD l

/-- The positions of the 0 bits of a mask, ascending. -/
def clearBits {n : Nat} (m : BitVec n) : List Nat := (List.range n).filter fun l => !m.getLsbD l

/-- `popcount` (R151). -/
def popcount {n : Nat} (m : BitVec n) : Nat := (setBits m).length

/-- `RotMatch4` (R241). -/
def rotMatch4 (X Y : V128) : BitVec 4 :=
  eqMask4 X (rot4 Y 0) ||| eqMask4 X (rot4 Y 1) ||| eqMask4 X (rot4 Y 2) ||| eqMask4 X (rot4 Y 3)

/-- The OR of the masks of all eight alignments (R257). -/
def alignMatch8 (X Y : V256) : BitVec 8 :=
  (List.range 8).foldl (fun m t => m ||| eqMask8 X (align8 Y t)) 0

end Sys2Proof.Machine
end

