-- ==== Sys2Proof/Machine/Tables.lean ====
section
/-! DEFINITION. The lookup tables as functions of their index (spec/42_lookup_tables.md R171, R176 to R180), and reading the
table store behind its gate: before the build a read yields a free value (spec/10_state.md R40; entry 11). -/

namespace Sys2Proof.Machine

/-- SHUF4T (R176): entry `m`, byte `k`. The filler is 0xFF. -/
def shuf4T (m : BitVec 4) : Pattern := fun k =>
  if k < 4 * popcount m then BitVec.ofNat 8 (4 * (setBits m).getD (k / 4) 0 + k % 4) else 0xFF

/-- PERM8T (R177): entry `m`, index `t`: the positions of the 1 bits, then those of the 0 bits. -/
def perm8T (m : BitVec 8) (t : Nat) : Elem := BitVec.ofNat 32 ((setBits m ++ clearBits m).getD t 0)

/-- `code_i = x[4i+3:4i]` (R178). -/
def nctCode (x : BitVec 16) (i : Nat) : BitVec 4 := x.extractLsb' (4 * i) 4

/-- `s_i` (R178): the position of the one set bit of `code_i`, or `i` where the code is 0. -/
def nctLane (x : BitVec 16) (i : Nat) : Nat := (setBits (nctCode x i)).headD i

/-- NCT (R178). -/
def nct (x : BitVec 16) : Verdict :=
  if (List.range 4).any fun i => decide (2 ≤ popcount (nctCode x i)) then .ambig
  else if x = 0 then .noMatch
  else .single (BitVec.ofNat 8 (nctLane x 0 + 4 * nctLane x 1 + 16 * nctLane x 2 + 64 * nctLane x 3))

/-- A verdict as the table stores it (R178): kind in bits 9:8, `P` in bits 7:0. -/
def storedVerdict : Verdict → BitVec 10
  | .noMatch => 0x000
  | .single P => (1 : BitVec 2) ++ P
  | .ambig => 0x200

/-- MSD (R179): entry `P`, byte `k`. -/
def msd (P : BitVec 8) : Pattern := fun k =>
  BitVec.ofNat 8 (4 * (P.extractLsb' (2 * (k / 4)) 2).toNat + k % 4)

/-- GOA (R180): `GOA[4i + u] = 4i`. -/
def goa : Pattern := fun k => BitVec.ofNat 8 (4 * (k / 4))

/-- GOB (R180): `GOB[4i + u] = 4u`. -/
def gob : Pattern := fun k => BitVec.ofNat 8 (4 * (k % 4))

/-- The pattern of stage `s`: every pattern byte plus `s` (R180, R216). -/
def stagePattern (P : Pattern) (s : Nat) : Pattern := fun k => P k + BitVec.ofNat 8 s

/-- Reading SHUF4T through the gate. -/
def readShuf4T (valid : Bool) (m : BitVec 4) : Pattern :=
  if valid then shuf4T m else Config.stalePattern 0 m.toNat

/-- Reading MSD through the gate. -/
def readMsd (valid : Bool) (P : BitVec 8) : Pattern :=
  if valid then msd P else Config.stalePattern 1 P.toNat

/-- Reading GOA through the gate. -/
def readGoa (valid : Bool) : Pattern := if valid then goa else Config.stalePattern 2 0

/-- Reading GOB through the gate. -/
def readGob (valid : Bool) : Pattern := if valid then gob else Config.stalePattern 3 0

/-- Reading PERM8T through the gate. -/
def readPerm8T (valid : Bool) (m : BitVec 8) : Nat → Elem :=
  if valid then perm8T m else Config.stalePerm8T m.toNat

/-- Reading NCT through the gate. -/
def readNct (valid : Bool) (x : BitVec 16) : Verdict := if valid then nct x else Config.staleNct x.toNat

/-- The builder's effect (R172): it writes every entry of every table and then sets the gate. The entries are functions of
their index (R171), so the gate is all that changes; the writes' order is not observable (R172; entry 15). -/
def buildTables (s : State) : State := s.setRegs { s.regs with tblValid := true }

end Sys2Proof.Machine
end

