-- ==== Sys2Proof/Machine/Ops.lean ====
section
/-! DEFINITION. The shared operations: system memory (spec/20_memory.md), the engine's loads and stores with their bus faults
(R66), taking a fault (spec/60_exceptions.md R275) and leaving one (R28, R277), launch and completion
(spec/40_command_dispatch.md R110, R121), Emit and the compaction stores (R122, R152, R153), block advancement (R155), the
host's register accesses (spec/10_state.md R20 to R34) and the reset input (R300). -/

namespace Sys2Proof.Machine

/-! ### System memory -/

/-- The byte at an address: the listed one, else what an unlisted address reads as (R60; entry 7). -/
def Memory.read : Memory → Nat → Byte
  | [], _ => Config.unlistedByte
  | (b, v) :: rest, p => if b = p then v else Memory.read rest p

/-- Puts a cell before the first cell with a larger address. -/
def Memory.insert (p : Nat) (v : Byte) : Memory → Memory
  | [] => [(p, v)]
  | (b, w) :: rest => if p < b then (p, v) :: (b, w) :: rest else (b, w) :: Memory.insert p v rest

/-- Takes every cell of an address out. -/
def Memory.erase (p : Nat) (M : Memory) : Memory := M.filter fun cell => cell.1 != p

/-- Writes one byte, keeping the canonical form: the value an unlisted address reads as is not listed. -/
def Memory.write (M : Memory) (p : Nat) (v : Byte) : Memory :=
  if v = Config.unlistedByte then Memory.erase p M else Memory.insert p v (Memory.erase p M)

/-- The canonical form: addresses strictly rising and below 2^64, no cell with the value an unlisted address reads as. -/
abbrev Memory.wf (M : Memory) : Prop :=
  M.Pairwise (fun u v => u.1 < v.1) ∧ ∀ cell ∈ M, cell.1 < 2 ^ 64 ∧ cell.2 ≠ Config.unlistedByte

/-- Writes bytes at ascending addresses, modulo 2^64 (R61, R63). -/
def Memory.writeBytes (M : Memory) (p : Addr) : List Byte → Memory
  | [] => M
  | b :: rest => Memory.writeBytes (Memory.write M p.toNat b) (p + 1) rest

/-- The element at an address, little-endian (R61). -/
def Memory.elem (M : Memory) (p : Addr) : Elem :=
  elemOfBytes (Memory.read M p.toNat) (Memory.read M (p + 1).toNat) (Memory.read M (p + 2).toNat)
    (Memory.read M (p + 3).toNat)

/-- The bytes of an element, least significant first (R61). -/
def elemBytes (e : Elem) : List Byte := [byteOf e 0, byteOf e 1, byteOf e 2, byteOf e 3]

/-! ### The platform's answers -/

/-- Whether an address lies in a region. -/
def Region.has (g : Region) (p : Addr) : Bool := decide ((p - g.base).toNat < g.size)

/-- The bytes of a region other than one: what lies before it and what lies after it. -/
def Region.without (p : Addr) (g : Region) : List Region :=
  if g.has p then
    let d := (p - g.base).toNat
    [⟨g.base, d⟩, ⟨p + 1, min g.size (2 ^ 64) - (d + 1)⟩]
  else [g]

/-- `Readable` (R8, R66). -/
def Port.readable (q : Port) (p : Addr) : Bool := !(q.unreadable.any fun g => g.has p)

/-- `Writable` (R8, R66). -/
def Port.writable (q : Port) (p : Addr) : Bool := !(q.unwritable.any fun g => g.has p)

/-- Whether all `n` bytes from `p` satisfy a predicate on addresses. -/
def allBytes (ok : Addr → Bool) (p : Addr) (n : Nat) : Bool := (List.range n).all fun t => ok (p + BitVec.ofNat 64 t)

/-! ### Raising, taking and leaving a fault -/

/-- A fault being raised (R13): which, its address, and the state it is raised in. -/
structure Raised where
  fault : EngineFault
  addr : Addr
  state : State

/-- Fault entry, the one operation for all six faults (R275): code and address recorded, COUNT takes the running count,
FAULT set, DONE clear, the engine idle. There is no handler; everything else stays. -/
def takeFault (f : EngineFault) (p : Addr) (s : State) : State :=
  (s.setRegs { s.regs with
    faultCode := faultCodeOf f, faultAddr := p, count := BitVec.ofNat 64 s.work.c, fault := true, done := false }).setPhase
      .idle

/-- Ends a rule application: its new state, or the fault it raised taken. -/
def settle : Except Raised State → State
  | .ok s => s
  | .error e => takeFault e.fault e.addr e.state

/-- The acknowledge write of STATUS (R28, R277), the only return from a fault: bit 1 clears DONE, bit 2 clears FAULT,
FAULT_CODE and FAULT_ADDR; every other bit is ignored. -/
def acknowledge (v : Reg64) (s : State) : State :=
  let q := if v.getLsbD 1 then { s.regs with done := false } else s.regs
  s.setRegs (if v.getLsbD 2 then { q with fault := false, faultCode := 0, faultAddr := 0 } else q)

/-- Launch (R110): CMD takes the word, the status of the last command is cleared, cursors and count 0, `co` latched. -/
def launch (v : Reg64) (s : State) : State :=
  ((s.setRegs { s.regs with
    cmd := v, done := false, fault := false, faultCode := 0, count := 0, faultAddr := 0 }).setWork
      { s.work with i := 0, j := 0, c := 0, co := v.getLsbD 8 }).setPhase .launch

/-- Completion (R121): COUNT takes the running count, DONE set, the engine idle. -/
def complete (s : State) : State :=
  (s.setRegs { s.regs with count := BitVec.ofNat 64 s.work.c, done := true }).setPhase .idle

/-- The hand-over to the tail (R120): cursors and count as they are. -/
def toTail (s : State) : State := s.setPhase .tail

/-! ### The engine's accesses -/

/-- Effective address (R63): `base + 4*x` modulo 2^64. -/
def eltAddr (base : Addr) (x : Nat) : Addr := base + BitVec.ofNat 64 (4 * x)

/-- The bus check of a read of `n` bytes (R66): BUS_READ at the access's lowest address. -/
def checkRead (s : State) (p : Addr) (n : Nat) : Except Raised Unit :=
  if allBytes s.port.readable p n then .ok () else .error ⟨.busRead, p, s⟩

/-- `MemRead(addr, 4)` (R13, R61). -/
def readElem (s : State) (p : Addr) : Except Raised Elem := do
  checkRead s p 4
  .ok (Memory.elem s.mem p)

/-- `A[x]` (R13). -/
def readA (s : State) (x : Nat) : Except Raised Elem := readElem s (eltAddr s.regs.aBase x)

/-- `B[x]` (R13). -/
def readB (s : State) (x : Nat) : Except Raised Elem := readElem s (eltAddr s.regs.bBase x)

/-- The four elements at `base + 4*x`, lane 0 at the lowest address (R141). -/
def memLanes4 (M : Memory) (base : Addr) (x : Nat) : V128 := ofLanes4 fun l => Memory.elem M (eltAddr base (x + l))

/-- `LoadV4` (R141): one 16-byte read. -/
def loadV4 (s : State) (base : Addr) (x : Nat) : Except Raised V128 := do
  checkRead s (eltAddr base x) 16
  .ok (memLanes4 s.mem base x)

/-- `LoadV8` (R142): one 32-byte read. -/
def loadV8 (s : State) (base : Addr) (x : Nat) : Except Raised V256 := do
  checkRead s (eltAddr base x) 32
  .ok (ofLanes8 fun l => Memory.elem s.mem (eltAddr base (x + l)))

/-- `MemWrite` of elements at `p` as one access (R61, R66): BUS_WRITE and no byte written unless every byte is Writable. The
store joins those whose completion the host has yet to observe (R74; entry 5). -/
def storeElems (s : State) (p : Addr) (es : List Elem) : Except Raised State :=
  if allBytes s.port.writable p (4 * es.length) then
    .ok ((s.setMem (Memory.writeBytes s.mem p (es.flatMap elemBytes))).setHost
      { s.host with unseen := ⟨p, 4 * es.length⟩ :: s.host.unseen })
  else .error ⟨.busWrite, p, s⟩

/-- The address of the next output slot, `OUT[c]` (R13). -/
def outSlot (s : State) : Addr := eltAddr s.regs.outBase s.work.c

/-- Writes elements from `OUT[c]` on as one access, or nothing in count-only mode (R62, R122, R152, R153). -/
def storeOut (es : List Elem) (s : State) : Except Raised State :=
  if s.work.co then .ok s else storeElems s (outSlot s) es

/-- Writes elements and moves the output cursor past them; `c` is not advanced when the write raises (R122, R152). -/
def emitElems (es : List Elem) (s : State) : Except Raised State := do
  let t ← storeOut es s
  .ok (t.setWork { t.work with c := t.work.c + es.length })

/-- `Emit` (R122). -/
def emit (e : Elem) (s : State) : Except Raised State := emitElems [e] s

/-- `CompactStore4` (R152): no table read and no write where the mask is 0. -/
def compactStore4 (X : V128) (m : BitVec 4) (s : State) : Except Raised State :=
  if popcount m = 0 then .ok s
  else emitElems ((lanes4 (pshufb X (readShuf4T s.regs.tblValid m))).take (popcount m)) s

/-- `CompactStore8` (R153). -/
def compactStore8 (Y : V256) (m : BitVec 8) (s : State) : Except Raised State :=
  if popcount m = 0 then .ok s
  else emitElems ((lanes8 (permute8 Y (readPerm8T s.regs.tblValid m))).take (popcount m)) s

/-- `Advance` (R155) at block width `W`: the side with the smaller maximum moves, both on a tie. The prefetch hints do
nothing (R156, R79). -/
def advance (W : Nat) (aMax bMax : Elem) (s : State) : State :=
  if aMax = bMax then s.setWork { s.work with i := s.work.i + W, j := s.work.j + W }
  else if aMax.toNat < bMax.toNat then s.setWork { s.work with i := s.work.i + W }
  else s.setWork { s.work with j := s.work.j + W }

/-- `n_a` (R23). -/
def State.na (s : State) : Nat := s.regs.aLen.toNat

/-- `n_b` (R24). -/
def State.nb (s : State) : Nat := s.regs.bLen.toNat

/-! ### The host's side -/

/-- Completion observed (R74): every store of the engine is visible to the host from here on. -/
def observe (s : State) : State :=
  if !s.busy && (s.regs.done || s.regs.fault) then s.setHost { s.host with unseen := [] } else s

/-- The interrupt observed (R74, R278; entry 6): while `irq` is high the host has been told. -/
def noteIrq (s : State) : State := if s.irq then s.setHost { s.host with unseen := [] } else s

/-- `HostRead(n)`: the value returned (R20 to R31, R34); registers above 10 read 0. -/
def hostRead (n : Nat) (s : State) : Reg64 :=
  match n with
  | 0 => Config.idValue
  | 1 => s.regs.cmd
  | 2 => s.statusWord
  | 3 => s.ctrlWord
  | 4 => s.regs.aBase
  | 5 => s.regs.aLen.setWidth 64
  | 6 => s.regs.bBase
  | 7 => s.regs.bLen.setWidth 64
  | 8 => s.regs.outBase
  | 9 => if s.busy then 0 else s.regs.count
  | 10 => if s.busy then 0 else s.regs.faultAddr
  | _ => 0

/-- `HostWrite(n, v)` while the engine is idle (R22 to R31): the write of register 1 is the launch (R110). -/
def hostWriteIdle (n : Nat) (v : Reg64) (s : State) : State :=
  match n with
  | 1 => launch v s
  | 2 => acknowledge v s
  | 3 => s.setRegs { s.regs with ie := v.getLsbD 0 }
  | 4 => s.setRegs { s.regs with aBase := v }
  | 5 => s.setRegs { s.regs with aLen := v.setWidth 32 }
  | 6 => s.setRegs { s.regs with bBase := v }
  | 7 => s.setRegs { s.regs with bLen := v.setWidth 32 }
  | 8 => s.setRegs { s.regs with outBase := v }
  | _ => s

/-- `HostWrite(n, v)` (R21): while busy every write but that of CTRL changes nothing. -/
def hostWrite (n : Nat) (v : Reg64) (s : State) : State :=
  if s.busy then (if n = 3 then s.setRegs { s.regs with ie := v.getLsbD 0 } else s) else hostWriteIdle n v s

/-- `RD n` (R96): the value joins what the host has read; a read of STATUS that shows DONE or FAULT observes completion
(R74). HostRead changes nothing of the engine (R21). -/
def hostReadLine (n : Nat) (s : State) : State :=
  let t := s.setHost { s.host with got := hostRead n s :: s.host.got }
  if n = 2 then observe t else t

/-- The reset input (R300, R301): the reset state; system memory and the platform keep what they hold, the host keeps its
lines, what it has read and its count of free values (entry 10). -/
def resetInput (s : State) : State :=
  { State.reset with mem := s.mem, port := s.port, host := { s.host with unseen := [] } }

end Sys2Proof.Machine
end

