-- ==== Sys2Proof/Machine/Launch.lean ====
section
/-! DEFINITION. What a launch goes through before a kernel's loops run: the command's profile (spec/30_encoding.md R91,
spec/20_memory.md R64), the windows (R68, R69) and the launch checks (spec/40_command_dispatch.md R115, R116). -/

namespace Sys2Proof.Machine

/-- The columns of R64 and R91 for a kernel command: input alignment, block width, whether tables are needed. -/
structure Profile where
  align : Nat
  width : Nat
  needsTables : Bool
  deriving DecidableEq, Repr

/-- The profile of a kernel command (R64, R91); TBLD has none. -/
def profileOf : Instr → Option Profile
  | .tbld => none
  | .merge => some ⟨4, 1, false⟩
  | .gallop _ => some ⟨4, 1, false⟩
  | .qfB4 _ => some ⟨4, 4, true⟩
  | .qfV2 _ => some ⟨16, 4, true⟩
  | .shuf4 => some ⟨4, 4, true⟩
  | .shuf8 => some ⟨16, 8, true⟩
  | .shuf256 => some ⟨32, 8, true⟩

/-- `LA`: byte length of A's storage window (R68, R115). -/
def lenA (p : Profile) (s : State) : Nat := 4 * padTo p.width s.na

/-- `LB`: byte length of B's storage window (R68, R115). -/
def lenB (p : Profile) (s : State) : Nat := 4 * padTo p.width s.nb

/-- `LO`: byte length of the output window when `co = 0` (R69, R115). -/
def lenOut (s : State) : Nat := 4 * min s.na s.nb

/-- `Overlap(p, lp, q, lq)` (R115), on naturals. -/
def overlap (p lp q lq : Nat) : Bool := decide (0 < lp ∧ 0 < lq ∧ p < q + lq ∧ q < p + lp)

/-- The eight launch checks in their order (R115); with `co = 1` OUT_BASE is not looked at (R116). -/
def launchChecks (p : Profile) (s : State) : Option (EngineFault × Addr) :=
  let A := s.regs.aBase
  let B := s.regs.bBase
  let O := s.regs.outBase
  if A.toNat % p.align ≠ 0 then some (.align, A)
  else if B.toNat % p.align ≠ 0 then some (.align, B)
  else if s.work.co = false ∧ O.toNat % 4 ≠ 0 then some (.align, O)
  else if A.toNat + lenA p s > 2 ^ 64 then some (.range, A)
  else if B.toNat + lenB p s > 2 ^ 64 then some (.range, B)
  else if s.work.co = false ∧ O.toNat + lenOut s > 2 ^ 64 then some (.range, O)
  else if s.work.co = false ∧ overlap O.toNat (lenOut s) A.toNat (lenA p s) = true then some (.overlap, A)
  else if s.work.co = false ∧ overlap O.toNat (lenOut s) B.toNat (lenB p s) = true then some (.overlap, B)
  else none

/-- The profile of the command in CMD, if it is a legal kernel command. -/
def currentProfile (s : State) : Option Profile :=
  match decode s.regs.cmd with
  | .ok i => profileOf i
  | .error _ => none

/-- A's storage window under the command in CMD (R68). -/
def windowA (p : Profile) (s : State) : Region := ⟨s.regs.aBase, lenA p s⟩

/-- B's storage window under the command in CMD (R68). -/
def windowB (p : Profile) (s : State) : Region := ⟨s.regs.bBase, lenB p s⟩

/-- The output window (R69): empty when `co = 1`. -/
def windowOut (s : State) : Region := ⟨s.regs.outBase, if s.work.co then 0 else lenOut s⟩

end Sys2Proof.Machine
end

