-- ==== Sys2Proof/Machine/Merge.lean ====
section
/-! DEFINITION. The scalar merge (spec/43_scalar_merge.md R192): the loop of MERGE and the tail of every kernel. -/

namespace Sys2Proof.Machine

/-- The body of one iteration of the merge loop, its guard holding (R192): `A[i]` is read before `B[j]`. -/
def mergeBody (s : State) : Except Raised State := do
  let ea ← readA s s.work.i
  let eb ← readB s s.work.j
  if ea = eb then do
    let t ← emit ea s
    .ok (t.setWork { t.work with i := t.work.i + 1, j := t.work.j + 1 })
  else if ea.toNat < eb.toNat then .ok (s.setWork { s.work with i := s.work.i + 1 })
  else .ok (s.setWork { s.work with j := s.work.j + 1 })

/-- One step of phase TAIL (R192, R193): an iteration, or completion when the guard is false (R121). -/
def tailIter (s : State) : Except Raised State :=
  if s.work.i < s.na ∧ s.work.j < s.nb then mergeBody s else .ok (complete s)

end Sys2Proof.Machine
end

