-- ==== Sys2Proof/Machine/Gallop.lean ====
section
/-! DEFINITION. The galloping kernel's loop (spec/44_galloping.md R200 to R204). The two inner loops run on fuel: each doubles
or halves below `nblk < 2^30`, so it ends within 31 rounds (R207; entry 16). -/

namespace Sys2Proof.Machine

/-- `nblk = n_b div 4`: the full 4-blocks of B (R200). -/
def nblk (s : State) : Nat := s.nb / 4

/-- `bmax(t) = B[4t + 3]`, a scalar read (R200). -/
def bmax (s : State) (t : Nat) : Except Raised Elem := readB s (4 * t + 3)

/-- The doubling loop, R202 line (1): the step size it stops at. -/
def doubling (s : State) (k : Nat) (a : Elem) : Nat → Nat → Except Raised Nat
  | 0, r => .ok r
  | fuel + 1, r =>
    if k + r < nblk s then do
      let e ← bmax s (k + r)
      if e.toNat < a.toNat then doubling s k a fuel (2 * r) else .ok r
    else .ok r

/-- The binary search, R202 line (4): the bounds and the last probe when it ends. -/
def bisect (s : State) (k : Nat) (a : Elem) : Nat → Nat → Nat → Nat → Except Raised (Nat × Nat × Nat)
  | 0, lower, upper, mid => .ok (lower, upper, mid)
  | fuel + 1, lower, upper, mid =>
    if lower < upper then do
      let mid' := (lower + upper) / 2
      let e ← bmax s (k + mid')
      if a.toNat ≤ e.toNat then bisect s k a fuel lower mid' mid' else bisect s k a fuel (mid' + 1) upper mid'
    else .ok (lower, upper, mid)

/-- Rounds that suffice for either inner loop (R207). -/
def searchFuel : Nat := 32

/-- `if m != 0 then Emit(a)` (R203). -/
def emitOnMatch (a : Elem) (m : BitVec 4) (s : State) : Except Raised State := if m ≠ 0 then emit a s else .ok s

/-- The probe and emit step (R203) for the element `a` and the block the search has found. -/
def probe (a : Elem) (s : State) : Except Raised State := do
  let vb ← loadV4 s s.regs.bBase s.work.j
  let m := eqMask4 (bcast4 a) vb
  let t ← emitOnMatch a m (s.setWork { s.work with vb := vb, m := m.setWidth 8 })
  .ok (t.setWork { t.work with i := t.work.i + 1 })

/-- One iteration of GALLOP's loop, its guard holding: the search step (R202), which may break to the tail with `i` and `k`
unchanged, and then the probe (R203). -/
def gallopBody (s : State) : Except Raised State := do
  let k := s.work.k
  let a ← readA s s.work.i
  let r ← doubling s k a searchFuel 1
  let upper := if k + r < nblk s then r else nblk s - 1 - k
  let last ← bmax s (k + upper)
  if last.toNat < a.toNat then
    .ok (toTail (s.setWork { s.work with a := a, r := r, lower := r / 2, upper := upper, j := 4 * k }))
  else do
    let found ← bisect s k a searchFuel (r / 2) upper s.work.mid
    probe a (s.setWork { s.work with
      a := a, r := r, lower := found.1, upper := found.2.1, mid := found.2.2, k := k + found.1, j := 4 * (k + found.1) })

/-- Entering GALLOP's loop (R201): `k = 0`. -/
def enterGallop (s : State) : State := (s.setWork { s.work with k := 0 }).setPhase .vec

/-- One step of phase VEC of GALLOP (R201, R204): an iteration while B has a full block and A is not exhausted, else the
hand-over at `j = 4*k`. -/
def vecGallop (s : State) : Except Raised State :=
  if 0 < nblk s ∧ s.work.i < s.na then gallopBody s
  else .ok (toTail (s.setWork { s.work with j := 4 * s.work.k }))

end Sys2Proof.Machine
end

