-- ==== Sys2Proof/Machine/QFilter.lean ====
section
/-! DEFINITION. The block pre-filter kernel in its two variants (spec/45_qfilter.md R215 to R231). -/

namespace Sys2Proof.Machine

/-- `StageMask(VA, VB, s)` (R216): bit `4i + u` says that lane `i` of A and lane `u` of B agree in the low nibble of byte
`s`. `valid` is the gate the group-order tables are read through. -/
def stageMask (valid : Bool) (VA VB : V128) (s : Nat) : BitVec 16 :=
  cmpEq8Mask (andNib (pshufb VA (stagePattern (readGoa valid) s))) (andNib (pshufb VB (stagePattern (readGob valid) s)))

/-- The stage loop of QFMatch (R217): while the verdict is AMBIG and stages are left, AND in the next stage's mask. Answers
the last stage, mask and verdict. -/
def stageLoop (valid : Bool) (VA VB : V128) : Nat → Nat → BitVec 16 → Nat × BitVec 16 × Verdict
  | 0, s, x => (s, x, readNct valid x)
  | left + 1, s, x =>
    match readNct valid x with
    | .ambig => stageLoop valid VA VB left (s + 1) (x &&& stageMask valid VA VB (s + 1))
    | .noMatch => (s, x, .noMatch)
    | .single P => (s, x, .single P)

/-- The classification of a block pair (R217): stages 0 to 3. -/
def classify (valid : Bool) (VA VB : V128) : Nat × BitVec 16 × Verdict :=
  stageLoop valid VA VB 3 0 (stageMask valid VA VB 0)

/-- The match mask a verdict leads to (R217); AMBIG is met only after stage 3. -/
def verdictMask (valid : Bool) (VA VB : V128) : Verdict → BitVec 4
  | .noMatch => 0
  | .single P => eqMask4 VA (pshufb VB (readMsd valid P))
  | .ambig => rotMatch4 VA VB

/-- `QFMatch(VA, VB)` (R217). -/
def qfMatch (valid : Bool) (VA VB : V128) : BitVec 4 := verdictMask valid VA VB (classify valid VA VB).2.2

/-- Classify, emit and advance on the blocks in `VA` and `VB` (R215, R217 to R219). -/
def filterBlocks (s : State) : Except Raised State := do
  let VA := s.work.va
  let VB := s.work.vb
  let found := classify s.regs.tblValid VA VB
  let m := qfMatch s.regs.tblValid VA VB
  let t ← compactStore4 VA m (s.setWork { s.work with
    stage := found.1, x := found.2.1, verdict := found.2.2, m := m.setWidth 8 })
  .ok (advance 4 (lane4 VA 3) (lane4 VB 3) t)

/-- The body of one VEC iteration of QF_B4 (R221): both blocks are loaded every time, A first. -/
def bodyQfB4 (s : State) : Except Raised State := do
  let va ← loadV4 s s.regs.aBase s.work.i
  let vb ← loadV4 s s.regs.bBase s.work.j
  filterBlocks (s.setWork { s.work with va := va, vb := vb })

/-- One step of phase VEC of QF_B4 (R220, R221). -/
def vecQfB4 (s : State) : Except Raised State :=
  if s.work.i < fullTo 4 s.na ∧ s.work.j < fullTo 4 s.nb then bodyQfB4 s else .ok (toTail s)

/-- QF_V2: loads A's block at the cursor into `VA` where the cursor is below the padded length (R227, R229). -/
def reloadA (s : State) : Except Raised State :=
  if s.work.i < padTo 4 s.na then do
    let va ← loadV4 s s.regs.aBase s.work.i
    .ok (s.setWork { s.work with va := va })
  else .ok s

/-- QF_V2: loads B's block at the cursor into `VB` where the cursor is below the padded length (R227, R229). -/
def reloadB (s : State) : Except Raised State :=
  if s.work.j < padTo 4 s.nb then do
    let vb ← loadV4 s s.regs.bBase s.work.j
    .ok (s.setWork { s.work with vb := vb })
  else .ok s

/-- Entering QF_V2's loop with the initial loads, A first (R227); the cursors are 0. -/
def enterQfV2 (s : State) : Except Raised State := do
  let t ← reloadA (s.setPhase .vec)
  reloadB t

/-- The reloads after an advance from `s` (R228): only the side whose cursor moved. -/
def reloadMovedA (s t : State) : Except Raised State := if t.work.i ≠ s.work.i then reloadA t else .ok t

/-- The same for B. -/
def reloadMovedB (s t : State) : Except Raised State := if t.work.j ≠ s.work.j then reloadB t else .ok t

/-- The body of one VEC iteration of QF_V2 (R228): only the side that advanced is reloaded, A before B. -/
def bodyQfV2 (s : State) : Except Raised State := do
  let t ← filterBlocks s
  let u ← reloadMovedA s t
  reloadMovedB s u

/-- One step of phase VEC of QF_V2 (R227, R228). -/
def vecQfV2 (s : State) : Except Raised State :=
  if s.work.i < fullTo 4 s.na ∧ s.work.j < fullTo 4 s.nb then bodyQfV2 s else .ok (toTail s)

end Sys2Proof.Machine
end

