-- ==== Sys2Proof/Machine/Shuffle.lean ====
section
/-! DEFINITION. The shuffling kernel family (spec/46_shuffling.md R240 to R259). -/

namespace Sys2Proof.Machine

/-- The body of one VEC iteration of SHUF4 (R243). -/
def bodyShuf4 (s : State) : Except Raised State := do
  let va ← loadV4 s s.regs.aBase s.work.i
  let vb ← loadV4 s s.regs.bBase s.work.j
  let m := rotMatch4 va vb
  let t ← compactStore4 va m (s.setWork { s.work with va := va, vb := vb, m := m.setWidth 8 })
  .ok (advance 4 (lane4 va 3) (lane4 vb 3) t)

/-- One step of phase VEC of SHUF4 (R242, R243). -/
def vecShuf4 (s : State) : Except Raised State :=
  if s.work.i < fullTo 4 s.na ∧ s.work.j < fullTo 4 s.nb then bodyShuf4 s else .ok (toTail s)

/-- The body of one VEC iteration of SHUF8 (R250): loads A0, A1, B0, B1; the matches of A0 are stored before those of A1. -/
def bodyShuf8 (s : State) : Except Raised State := do
  let va0 ← loadV4 s s.regs.aBase s.work.i
  let va1 ← loadV4 s s.regs.aBase (s.work.i + 4)
  let vb0 ← loadV4 s s.regs.bBase s.work.j
  let vb1 ← loadV4 s s.regs.bBase (s.work.j + 4)
  let m0 := rotMatch4 va0 vb0 ||| rotMatch4 va0 vb1
  let m1 := rotMatch4 va1 vb0 ||| rotMatch4 va1 vb1
  let t ← compactStore4 va0 m0 (s.setWork { s.work with
    va0 := va0, va1 := va1, vb0 := vb0, vb1 := vb1, m0 := m0, m1 := m1 })
  let u ← compactStore4 va1 m1 t
  .ok (advance 8 (lane4 va1 3) (lane4 vb1 3) u)

/-- One step of phase VEC of SHUF8 (R249, R250). -/
def vecShuf8 (s : State) : Except Raised State :=
  if s.work.i < fullTo 8 s.na ∧ s.work.j < fullTo 8 s.nb then bodyShuf8 s else .ok (toTail s)

/-- The body of one VEC iteration of SHUF256 (R257). -/
def bodyShuf256 (s : State) : Except Raised State := do
  let ya ← loadV8 s s.regs.aBase s.work.i
  let yb ← loadV8 s s.regs.bBase s.work.j
  let m := alignMatch8 ya yb
  let t ← compactStore8 ya m (s.setWork { s.work with ya := ya, yb := yb, m := m })
  .ok (advance 8 (lane8 ya 7) (lane8 yb 7) t)

/-- One step of phase VEC of SHUF256 (R256, R257). -/
def vecShuf256 (s : State) : Except Raised State :=
  if s.work.i < fullTo 8 s.na ∧ s.work.j < fullTo 8 s.nb then bodyShuf256 s else .ok (toTail s)

end Sys2Proof.Machine
end

