-- ==== Sys2Proof/Machine/Engine.lean ====
section
/-! DEFINITION. The engine's step, one rule application at a time (spec/10_state.md R33, spec/92_eei_decisions.md D31), and
a whole command as the iteration of that step (spec/00_scope.md R9). -/

namespace Sys2Proof.Machine

/-- Dispatch after the gate (R119): each kernel command enters its loop, MERGE the tail; TBLD, whose build is done,
completes (R173). -/
def dispatch (i : Instr) (s : State) : State :=
  match i with
  | .tbld => complete s
  | .merge => toTail s
  | .gallop _ => enterGallop s
  | .qfB4 _ => s.setPhase .vec
  | .qfV2 _ => settle (enterQfV2 s)
  | .shuf4 => s.setPhase .vec
  | .shuf8 => s.setPhase .vec
  | .shuf256 => s.setPhase .vec

/-- The table gate (R118, R173): a command that needs the tables while they are not valid goes to the builder. -/
def gate (needsTables : Bool) (i : Instr) (s : State) : State :=
  if needsTables && !s.regs.tblValid then s.setPhase .tbuild else dispatch i s

/-- Phase LAUNCH: decode (R111), the launch checks of a kernel command (R115), the gate (R118). -/
def launchStep (s : State) : State :=
  match decode s.regs.cmd with
  | .error _ => takeFault .illegalCmd 0 s
  | .ok i =>
    match profileOf i with
    | none => gate true i s
    | some p =>
      match launchChecks p s with
      | some (f, addr) => takeFault f addr s
      | none => gate p.needsTables i s

/-- Phase TBUILD: the builder runs to its end (R172), then dispatch. -/
def buildStep (s : State) : State :=
  match decode s.regs.cmd with
  | .error _ => takeFault .illegalCmd 0 s
  | .ok i => dispatch i (buildTables s)

/-- Phase VEC: one iteration of the loop of the command in CMD, or the hand-over to the tail. A command without such a loop
is never in VEC; there the model hands over (entry 18). -/
def vecStep (s : State) : State :=
  match decode s.regs.cmd with
  | .error _ => toTail s
  | .ok .tbld => toTail s
  | .ok .merge => toTail s
  | .ok (.gallop _) => settle (vecGallop s)
  | .ok (.qfB4 _) => settle (vecQfB4 s)
  | .ok (.qfV2 _) => settle (vecQfV2 s)
  | .ok .shuf4 => settle (vecShuf4 s)
  | .ok .shuf8 => settle (vecShuf8 s)
  | .ok .shuf256 => settle (vecShuf256 s)

/-- One rule application of the engine; an idle engine does nothing (R284). The host is told of an interrupt at once. -/
def engineStep (s : State) : State :=
  match s.phase with
  | .idle => s
  | .launch => noteIrq (launchStep s)
  | .tbuild => noteIrq (buildStep s)
  | .vec => noteIrq (vecStep s)
  | .tail => noteIrq (settle (tailIter s))

/-- The engine's steps until it is idle, at most `fuel` of them. -/
def runToIdle : Nat → State → State
  | 0, s => s
  | fuel + 1, s =>
    match s.phase with
    | .idle => s
    | .launch => runToIdle fuel (engineStep s)
    | .tbuild => runToIdle fuel (engineStep s)
    | .vec => runToIdle fuel (engineStep s)
    | .tail => runToIdle fuel (engineStep s)

/-- Steps that suffice for any command (R135, R321): each iteration moves a cursor on. -/
def engineFuel (s : State) : Nat := s.na + s.nb + 8

/-- `RUN` of a word (R97): `HostWrite(1, v)`, which is dropped while busy (R21; entry 21), then `WAIT`: the engine runs until
BUSY = 0, and the last read of STATUS observes completion (entry 25). -/
def runWord (v : Reg64) (s : State) : State :=
  let t := hostWrite 1 v s
  observe (runToIdle (engineFuel t) t)

end Sys2Proof.Machine
end

