-- ==== Sys2Proof/Machine/Commands.lean ====
section
/-! DEFINITION. The meanings of the eight commands: each is the whole command as the host's line `RUN <mnemonic>[.CO]`
issues it (spec/30_encoding.md R97, spec/00_scope.md R9): launch (R110), decode (R111), checks (R115), gate (R118), the
command's own loop, the tail (R120), completion (R121) or the fault met (R275). -/

namespace Sys2Proof.Machine

/-- TBLD (R173): builds the tables unless they are valid, and completes with COUNT = 0. Loop: none. -/
def execTbld (s : State) : Host.Outcome State Fault Refusal := .next (runWord (encode .tbld) s)

/-- MERGE (R191): the scalar merge from (0, 0, 0). Loop: `tailIter`. -/
def execMerge (s : State) : Host.Outcome State Fault Refusal := .next (runWord (encode .merge) s)

/-- GALLOP and GALLOP.CO (R201). Loop: `vecGallop`, then the tail. -/
def execGallop (co : Bool) (s : State) : Host.Outcome State Fault Refusal := .next (runWord (encode (.gallop co)) s)

/-- QF_B4 and QF_B4.CO (R220). Loop: `vecQfB4`, then the tail. -/
def execQfB4 (co : Bool) (s : State) : Host.Outcome State Fault Refusal := .next (runWord (encode (.qfB4 co)) s)

/-- QF_V2 and QF_V2.CO (R227). Initial loads `enterQfV2`, loop `vecQfV2`, then the tail. -/
def execQfV2 (co : Bool) (s : State) : Host.Outcome State Fault Refusal := .next (runWord (encode (.qfV2 co)) s)

/-- SHUF4 (R242). Loop: `vecShuf4`, then the tail. -/
def execShuf4 (s : State) : Host.Outcome State Fault Refusal := .next (runWord (encode .shuf4) s)

/-- SHUF8 (R249). Loop: `vecShuf8`, then the tail. -/
def execShuf8 (s : State) : Host.Outcome State Fault Refusal := .next (runWord (encode .shuf8) s)

/-- SHUF256 (R256). Loop: `vecShuf256`, then the tail. -/
def execShuf256 (s : State) : Host.Outcome State Fault Refusal := .next (runWord (encode .shuf256) s)

end Sys2Proof.Machine
end

