-- ==== Sys2Proof/Machine/Dispatch.lean ====
section
/-! DEFINITION. The meaning of each command: one arm per constructor (spec/30_encoding.md R91). -/

namespace Sys2Proof.Machine

def exec (i : Instr) (s : State) : Host.Outcome State Fault Refusal :=
  match i with
  | .tbld => Sys2Proof.Machine.execTbld s
  | .merge => Sys2Proof.Machine.execMerge s
  | .gallop co => Sys2Proof.Machine.execGallop co s
  | .qfB4 co => Sys2Proof.Machine.execQfB4 co s
  | .qfV2 co => Sys2Proof.Machine.execQfV2 co s
  | .shuf4 => Sys2Proof.Machine.execShuf4 s
  | .shuf8 => Sys2Proof.Machine.execShuf8 s
  | .shuf256 => Sys2Proof.Machine.execShuf256 s

end Sys2Proof.Machine
end

