-- ==== Sys2Proof/Machine/HostLines.lean ====
section
/-! DEFINITION. The host's lines other than RUN (spec/30_encoding.md R96), the pseudo-instructions as lists of lines (R97),
and the host's accesses to system memory with the two hazards the spec names (spec/20_memory.md R74, R78,
spec/70_reset_and_hazards.md R310, R312, R314). -/

namespace Sys2Proof.Machine

/-- The host may not write this byte now: a storage window, while busy (R78, R310). -/
def inStorageWindow (p : Addr) (s : State) : Bool :=
  match currentProfile s with
  | none => false
  | some q => s.busy && ((windowA q s).has p || (windowB q s).has p)

/-- The host may not touch this byte now: the output window, while busy (R78, R310). -/
def inOutputWindow (p : Addr) (s : State) : Bool :=
  match currentProfile s with
  | none => false
  | some _ => s.busy && (windowOut s).has p

/-- The engine has written this byte and the host has not observed completion since (R74, R312). -/
def notYetSeen (p : Addr) (s : State) : Bool := s.host.unseen.any fun g => g.has p

/-- The host writes a byte of system memory (R9). Only a window of a busy engine is barred (R310, R314). The byte then holds
what the host wrote, so nothing about it is left to observe (entry 5). -/
def hostMemWrite (p : Addr) (b : Byte) (s : State) : Host.Outcome State Fault Refusal :=
  if inStorageWindow p s || inOutputWindow p s then .fault .hostTouchesWindow
  else
    .next ((s.setMem (Memory.write s.mem p.toNat b)).setHost
      { s.host with unseen := s.host.unseen.flatMap (Region.without p) })

/-- The host reads a byte of system memory (R9). Only the output window of a busy engine is barred (R310, R314). Of a byte it
has not been told of the host reads a free value, since its visibility is not guaranteed (R74, R312; entry 27). -/
def hostMemRead (p : Addr) (s : State) : Host.Outcome State Fault Refusal :=
  if inOutputWindow p s then .fault .hostTouchesWindow
  else if notYetSeen p s then
    .next (s.setHost { s.host with
      got := (Config.unseenByte s.host.draws).setWidth 64 :: s.host.got, draws := s.host.draws + 1 })
  else .next (s.setHost { s.host with got := (Memory.read s.mem p.toNat).setWidth 64 :: s.host.got })

/-- The state with the line at the head of the script taken. -/
def popLine (s : State) : State := s.setHost { s.host with script := s.host.script.tail }

/-- One step of a line that is no RUN (R96). WAIT stays at the head while the engine is busy, which then moves once; its last
read of STATUS observes completion (entry 25). -/
def playLine (l : HostLine) (s : State) : Host.Outcome State Fault Refusal :=
  match l with
  | .write n v => .next (noteIrq (hostWrite n v (popLine s)))
  | .read n => .next (hostReadLine n (popLine s))
  | .wait => if s.busy then .next (engineStep s) else .next (observe (popLine s))
  | .run v => .next (runWord v (popLine s))
  | .elapse => .next (engineStep (popLine s))
  | .memWrite p b => hostMemWrite p b (popLine s)
  | .memRead p => hostMemRead p (popLine s)
  | .reset => .next (resetInput (popLine s))

/-- `SETUP a, na, b, nb, out` (R97). -/
def setupLines (a na b nb out : Reg64) : List HostLine :=
  [.write 4 a, .write 5 na, .write 6 b, .write 7 nb, .write 8 out]

/-- `CMD <mnemonic>[.CO]` (R96). -/
def cmdLine (i : Instr) : HostLine := .write 1 (encode i)

/-- `RUN <mnemonic>[.CO]` as its expansion (R97). -/
def runLines (i : Instr) : List HostLine := [cmdLine i, .wait]

/-- `ACK` (R97). -/
def ackLines : List HostLine := [.write 2 0x6]

/-- `CALL <mnemonic>[.CO] a, na, b, nb, out` (R97). -/
def callLines (i : Instr) (a na b nb out : Reg64) : List HostLine :=
  setupLines a na b nb out ++ runLines i ++ [.read 2, .read 9]

end Sys2Proof.Machine
end

