-- ==== Sys2Proof/Machine/Step.lean ====
section
/-! DEFINITION. One step of the machine: the line at the head of the host's script is played; a RUN of a legal word is exec of
the command; with no line pending the engine moves on (spec/00_scope.md R9). -/

namespace Sys2Proof.Machine

/-- One step. -/
def step (s : State) : Host.Outcome State Fault Refusal :=
  match s.host.script with
  | [] => .next (engineStep s)
  | .run v :: _ =>
    match decode v with
    | .ok i => exec i (popLine s)
    | .error _ => playLine (.run v) s
  | l :: _ => playLine l s

/-- The state whose very next step runs the command whose word is given: the engine idle (a launch is accepted only then,
R110) and the line `RUN word` at the head of the host's script (entry 2). -/
def State.withFetchWord (s : State) (nbits w : Nat) : State :=
  (s.setPhase .idle).setHost { s.host with script := .run (tableWord nbits w) :: s.host.script }

end Sys2Proof.Machine
end

