-- ==== Sys2Proof/Safety.lean ====
section
/-! DEFINITION. The terms claims are stated in: the sets in memory and the contract (spec/00_scope.md R14, R15), the premises
of a launch (spec/20_memory.md R66, R68, R69; spec/70_reset_and_hazards.md R302), what a correct command leaves, the frame of
a command, and the invariants of the machine (spec/10_state.md R28, R34, R41; spec/41_vector_primitives.md R157). -/

namespace Sys2Proof.Machine

/-- The `n` elements from `base` (R60). -/
def setOf (M : Memory) (base : Addr) (n : Nat) : List Elem := (List.range n).map fun x => Memory.elem M (eltAddr base x)

/-- Set A (R22, R23). -/
def setA (s : State) : List Elem := setOf s.mem s.regs.aBase s.na

/-- Set B (R24). -/
def setB (s : State) : List Elem := setOf s.mem s.regs.bBase s.nb

/-- `Sorted` (R14): strictly ascending, hence duplicate-free. -/
abbrev Ascending (S : List Elem) : Prop := S.Pairwise fun u v => u.toNat < v.toNat

/-- `Inter` (R14): the values of the first list that occur in the second, in the first list's order. -/
def interOf (A B : List Elem) : List Elem := A.filter fun e => B.contains e

/-- The contract's premise (R15): both sets strictly ascending. -/
abbrev Contract (s : State) : Prop := Ascending (setA s) ∧ Ascending (setB s)

/-- Every byte of a region satisfies a predicate on addresses. -/
abbrev OnRegion (g : Region) (ok : Addr → Bool) : Prop := ∀ p : Addr, g.has p = true → ok p = true

/-- The engine can read both storage windows and write the output window (R66, R68, R69). -/
structure WindowsAnswer (q : Profile) (s : State) : Prop where
  a : OnRegion (windowA q s) s.port.readable
  b : OnRegion (windowB q s) s.port.readable
  out : OnRegion (windowOut s) s.port.writable

/-- The command `i` can be launched on `s` and meets no fault: the engine idle, the launch checks passing, the windows
answering (R15, R302). `q` is the command's profile. -/
structure Launchable (i : Instr) (q : Profile) (s : State) : Prop where
  idle : s.phase = .idle
  profile : profileOf i = some q
  checks : launchChecks q (launch (encode i) s) = none
  answers : WindowsAnswer q (launch (encode i) s)

/-- What the contract promises of a completed command (R15): DONE, no fault, COUNT and the output; no byte outside
`OUT[0..COUNT)` written, and none at all in count-only mode. -/
structure Intersects (i : Instr) (s t : State) : Prop where
  idle : t.phase = .idle
  done : t.regs.done = true
  noFault : t.regs.fault = false
  count : t.regs.count.toNat = (interOf (setA s) (setB s)).length
  output : i.countOnly = false →
    setOf t.mem s.regs.outBase (interOf (setA s) (setB s)).length = interOf (setA s) (setB s)
  only : ∀ p : Addr, Region.has ⟨s.regs.outBase, 4 * t.regs.count.toNat⟩ p = false →
    Memory.read t.mem p.toNat = Memory.read s.mem p.toNat
  countOnly : i.countOnly = true → t.mem = s.mem

/-- R15 for one command: from every state it can be launched on, under the contract, it completes with the intersection. -/
def ComputesIntersection (i : Instr) : Prop :=
  ∀ (q : Profile) (s : State), Launchable i q s → Contract s → ∃ t, exec i s = .next t ∧ Intersects i s t

/-- What a command leaves unchanged whatever its outcome: the descriptors, CTRL, the platform, the host's lines and what it
has read and drawn (R22 to R25, R29, R93). -/
structure KeepsHostSide (s t : State) : Prop where
  aBase : t.regs.aBase = s.regs.aBase
  aLen : t.regs.aLen = s.regs.aLen
  bBase : t.regs.bBase = s.regs.bBase
  bLen : t.regs.bLen = s.regs.bLen
  outBase : t.regs.outBase = s.regs.outBase
  ie : t.regs.ie = s.regs.ie
  port : t.port = s.port
  script : t.host.script = s.host.script
  got : t.host.got = s.host.got
  draws : t.host.draws = s.host.draws

/-- The status registers are coherent (R28, R34, R41): DONE and FAULT never both 1; FAULT_CODE and FAULT_ADDR 0 unless
FAULT, and then a code of R271; while busy all of them and COUNT are 0. -/
structure StatusCoherent (s : State) : Prop where
  notBoth : s.regs.done = true → s.regs.fault = false
  codeZero : s.regs.fault = false → s.regs.faultCode = 0 ∧ s.regs.faultAddr = 0
  codeLegal : s.regs.fault = true → 1 ≤ s.regs.faultCode.toNat ∧ s.regs.faultCode.toNat ≤ 6
  busyClear : s.busy = true → s.regs.done = false ∧ s.regs.fault = false ∧ s.regs.count = 0

/-- What the cursors satisfy in phase VEC, command by command (R157, R215, R250, R202). -/
def vecCursors (s : State) : Prop :=
  match decode s.regs.cmd with
  | .ok (.gallop _) => s.work.j = 4 * s.work.k ∧ (s.work.k = 0 ∨ s.work.k < nblk s)
  | .ok (.qfB4 _) => s.work.i % 4 = 0 ∧ s.work.j % 4 = 0
  | .ok (.qfV2 _) => s.work.i % 4 = 0 ∧ s.work.j % 4 = 0
  | .ok .shuf4 => s.work.i % 4 = 0 ∧ s.work.j % 4 = 0
  | .ok .shuf8 => s.work.i % 8 = 0 ∧ s.work.j % 8 = 0
  | .ok .shuf256 => s.work.i % 8 = 0 ∧ s.work.j % 8 = 0
  | .ok .merge => True
  | .ok .tbld => True
  | .error _ => True

/-- The cursors of a running command stay in bounds (R157): never past the lengths, the running count never above their
sum, all 0 until the loops begin. -/
structure CursorsBounded (s : State) : Prop where
  start : s.phase = .launch ∨ s.phase = .tbuild → s.work.i = 0 ∧ s.work.j = 0 ∧ s.work.c = 0
  bound : s.phase = .vec ∨ s.phase = .tail → s.work.i ≤ s.na ∧ s.work.j ≤ s.nb ∧ s.work.c ≤ s.work.i + s.work.j
  block : s.phase = .vec → vecCursors s

/-- The latched flag agrees with CMD while a command runs (R36), and the command is legal once its checks are made. -/
structure LatchCoherent (s : State) : Prop where
  latched : s.busy = true → s.work.co = s.regs.cmd.getLsbD 8
  decoded : s.busy = true → s.phase ≠ .launch → ∃ i, decode s.regs.cmd = .ok i

end Sys2Proof.Machine
end

