-- ==== Sys2Proof/Certificates/Slice0/Obligations.lean ====
section
/-! DEFINITION. The statements for the provers. Each docstring names the rule of spec/ it formalises and, where one is rested
on, the log entry of a model's choice. -/

open Sys2Proof Sys2Proof.Machine

/-! ### Command words -/

/-- R90, R91, R95: decoding and encoding agree both ways: a word decodes to a command exactly when it is that command's
word, with the count-only bit at either value. -/
def Obligations.DecodeIsExactlyEncode : Prop := ∀ (w : BitVec 64) (i : Instr), decode w = .ok i ↔ w = encode i

/-- R95: the legal words are these eleven, each with its command. -/
def Obligations.LegalWordsAreElevenValues : Prop :=
  ∀ (w : BitVec 64) (i : Instr), decode w = .ok i ↔
    (w, i) ∈ [((0x001 : BitVec 64), Instr.tbld), (0x002, .merge), (0x003, .gallop false), (0x103, .gallop true),
      (0x004, .qfB4 false), (0x104, .qfB4 true), (0x005, .qfV2 false), (0x105, .qfV2 true), (0x006, .shuf4),
      (0x007, .shuf8), (0x008, .shuf256)]

/-- R92, R94, R271, R275, R276: a word is rejected exactly when RSV is not 0, OP is reserved or CO is 1 where the opcode does
not allow it; run on an idle engine it is stored in CMD and ends in ILLEGAL_CMD with FAULT_ADDR 0 and COUNT 0, the gate,
memory and everything else as before. The clauses on `port` and `host` are about the model's own fields: the platform's map
stays (entry 8), the host's lines and what it has read stay (entries 2, 25), WAIT's last read observes the end (entry 25). -/
def Obligations.IllegalWordsRaiseIllegalCmd : Prop :=
  ∀ (v : BitVec 64) (s : State), s.phase = .idle →
    ((v.extractLsb' 9 55 ≠ 0 ∨ (v.extractLsb' 0 8).toNat = 0 ∨ 8 < (v.extractLsb' 0 8).toNat ∨
        (v.getLsbD 8 = true ∧ v.extractLsb' 0 8 ≠ 3 ∧ v.extractLsb' 0 8 ≠ 4 ∧ v.extractLsb' 0 8 ≠ 5)) ↔
      ∃ e, decode v = .error e) ∧
    ((∃ e, decode v = .error e) →
      (runWord v s).regs = { s.regs with
        cmd := v, done := false, fault := true, faultCode := 0x01, count := 0, faultAddr := 0 } ∧
      (runWord v s).phase = .idle ∧ (runWord v s).mem = s.mem ∧ (runWord v s).port = s.port ∧
      (runWord v s).host = { s.host with unseen := [] })

/-- R91: the words of some commands, one of each family, decode to them. -/
def Obligations.SampleWordsDecode : Prop :=
  decode 0x0000000000000001 = .ok .tbld ∧ decode 0x0000000000000002 = .ok .merge ∧
    decode 0x0000000000000103 = .ok (.gallop true) ∧ decode 0x0000000000000004 = .ok (.qfB4 false) ∧
    decode 0x0000000000000008 = .ok .shuf256

/-! ### Steps -/

/-- R9, R96, R97: a step at a RUN line whose word decodes to a command is exec of that command with the line taken. -/
def Obligations.StepRunsTheDecodedCommand : Prop :=
  ∀ (s : State) (v : BitVec 64) (rest : List HostLine) (i : Instr), s.host.script = .run v :: rest → decode v = .ok i →
    step s = exec i { s with host := { s.host with script := rest } }

/-- Entry 2 (the model's choice): a word placed with withFetchWord is run by the very next step, from any state. -/
def Obligations.PlacedWordRunsNext : Prop :=
  ∀ (s : State) (nbits w : Nat) (i : Instr), decodeTableWord nbits w = some i →
    step (s.withFetchWord nbits w) = exec i (s.setPhase .idle)

/-- R9, R97 (entries 1, 3): the one step of a RUN line reaches the state that the lines CMD and WAIT reach rule by rule. -/
def Obligations.RunIsCmdThenWait : Prop :=
  ∀ (s : State) (v : BitVec 64) (rest : List HostLine), s.phase = .idle →
    ∃ (u : State) (n : Nat),
      step { s with host := { s.host with script := .run v :: rest } } = .next u ∧
      Host.Core.run core n { s with host := { s.host with script := .write 1 v :: .wait :: rest } } = .next u

/-- R284: an idle engine with no host line pending stays as it is. -/
def Obligations.IdleEngineWaits : Prop :=
  ∀ s : State, s.phase = .idle → s.host.script = [] → step s = .next s

/-! ### Host-visible registers -/

/-- R21 to R26, R29 to R31: a host write to an idle engine, of a register other than CMD and STATUS, changes what that
register reads, with the hardwired bits 0, and what no other register reads; ID, COUNT, FAULT_ADDR and the numbers above 10
keep their value; phase, working registers and memory stay, and so do the model's own fields `port` (entry 8) and `host`
(entry 2). -/
def Obligations.HostWriteChangesOneRegister : Prop :=
  ∀ (s : State) (n : Nat) (v : Reg64), s.phase = .idle → n ≠ 1 → n ≠ 2 →
    (∀ k, hostRead k (hostWrite n v s) =
      if k = n ∧ n = 3 then v &&& 1
      else if k = n ∧ (n = 4 ∨ n = 6 ∨ n = 8) then v
      else if k = n ∧ (n = 5 ∨ n = 7) then v &&& 0xFFFFFFFF
      else hostRead k s) ∧
    (hostWrite n v s).phase = s.phase ∧ (hostWrite n v s).work = s.work ∧ (hostWrite n v s).mem = s.mem ∧
    (hostWrite n v s).port = s.port ∧ (hostWrite n v s).host = s.host

/-- R21, R110, R311: while busy a host write changes nothing but CTRL, of which bit 0 is kept; a launch is dropped. -/
def Obligations.BusyEngineDropsHostWrites : Prop :=
  ∀ (s : State) (n : Nat) (v : Reg64), s.phase ≠ .idle →
    hostWrite n v s = if n = 3 then { s with regs := { s.regs with ie := v.getLsbD 0 } } else s

/-- R34: what the host reads while busy; the launched values last as long as the command runs, under the engine's steps and
the host's writes, and no working register shows in any read. -/
def Obligations.BusyReadsShowNoResult : Prop :=
  ∀ s : State, s.phase ≠ .idle →
    hostRead 2 s = (if s.regs.tblValid then 0x09 else 0x01) ∧ hostRead 9 s = 0 ∧ hostRead 10 s = 0 ∧
    hostRead 0 s = 0x0000000049584531 ∧ hostRead 3 s = (if s.regs.ie then 1 else 0) ∧
    (∀ n, n = 1 ∨ n = 3 ∨ n = 4 ∨ n = 5 ∨ n = 6 ∨ n = 7 ∨ n = 8 → hostRead n (engineStep s) = hostRead n s) ∧
    (∀ n k v, k ≠ 3 → hostRead k (hostWrite n v s) = hostRead k s) ∧
    ∀ (n : Nat) (w : Work), hostRead n (s.setWork w) = hostRead n s

/-- R28: the fields of STATUS on an idle engine, bit by bit. -/
def Obligations.StatusWordHoldsItsFields : Prop :=
  ∀ s : State, s.phase = .idle →
    (hostRead 2 s).getLsbD 0 = false ∧ (hostRead 2 s).getLsbD 1 = s.regs.done ∧
    (hostRead 2 s).getLsbD 2 = s.regs.fault ∧ (hostRead 2 s).getLsbD 3 = s.regs.tblValid ∧
    (hostRead 2 s).extractLsb' 4 4 = 0 ∧ (hostRead 2 s).extractLsb' 8 8 = s.regs.faultCode ∧
    (hostRead 2 s).extractLsb' 16 48 = 0

/-- R28, R277: the acknowledge write to an idle engine: bit 1 clears DONE, bit 2 clears FAULT, FAULT_CODE and FAULT_ADDR;
every other bit is ignored and everything else stays. -/
def Obligations.AcknowledgeClearsWhatItNames : Prop :=
  ∀ (s : State) (v : Reg64), s.phase = .idle →
    hostWrite 2 v s = { s with regs := { s.regs with
      done := s.regs.done && !v.getLsbD 1
      fault := s.regs.fault && !v.getLsbD 2
      faultCode := if v.getLsbD 2 then 0 else s.regs.faultCode
      faultAddr := if v.getLsbD 2 then 0 else s.regs.faultAddr } }

/-- R110: a write of CMD to an idle engine is the launch; on a busy engine it does nothing. -/
def Obligations.LaunchLatchesTheWord : Prop :=
  ∀ (s : State) (v : Reg64),
    (s.phase = .idle →
      hostWrite 1 v s = { s with
        regs := { s.regs with cmd := v, done := false, fault := false, faultCode := 0, count := 0, faultAddr := 0 }
        work := { s.work with i := 0, j := 0, c := 0, co := v.getLsbD 8 }
        phase := .launch } ∧
      (hostRead 2 (hostWrite 1 v s)).getLsbD 0 = true) ∧
    (s.phase ≠ .idle → hostWrite 1 v s = s)

/-- R278: after a command run on an idle engine the interrupt output is CTRL.IE; acknowledging DONE and FAULT, the next
launch, and clearing IE each lower it. -/
def Obligations.InterruptFollowsCompletion : Prop :=
  ∀ (i : Instr) (s t : State), s.phase = .idle → exec i s = .next t →
    t.irq = s.regs.ie ∧ (hostWrite 2 0x6 t).irq = false ∧ (∀ v, (hostWrite 1 v t).irq = false) ∧
    (hostWrite 3 0 t).irq = false

/-! ### Reset -/

/-- R45: after reset ID reads its constant and every other register number 0, the engine is idle and irq low. -/
def Obligations.ResetReadsZero : Prop :=
  hostRead 0 State.reset = 0x0000000049584531 ∧ (∀ n, n ≠ 0 → hostRead n State.reset = 0) ∧
    State.reset.phase = .idle ∧ State.reset.irq = false

/-- R300, R301 (entries 10, 27 for what the host's side keeps, entry 8 for the platform's map): the reset input, in any phase, leaves
the reset values in every register, the engine idle, no interrupt, and system memory as it is. -/
def Obligations.ResetInputKeepsMemory : Prop :=
  ∀ (s : State) (rest : List HostLine), s.host.script = .reset :: rest →
    ∃ t, step s = .next t ∧ t.regs = State.reset.regs ∧ t.phase = .idle ∧ t.irq = false ∧
      (∀ n, n ≠ 0 → hostRead n t = 0) ∧ t.mem = s.mem ∧ t.port = s.port ∧ t.host.script = rest ∧
      t.host.got = s.host.got ∧ t.host.draws = s.host.draws

/-! ### Launch checks and faults -/

/-- R64, R68 to R70, R115, R116: the launch checks pass exactly when the bases are aligned, no window passes 2^64, and, unless
count-only, no byte lies in the output window and in a storage window. -/
def Obligations.ChecksPassExactlyOnLegalWindows : Prop :=
  ∀ (q : Profile) (s : State), launchChecks q s = none ↔
    s.regs.aBase.toNat % q.align = 0 ∧ s.regs.bBase.toNat % q.align = 0 ∧
    (s.work.co = false → s.regs.outBase.toNat % 4 = 0) ∧
    s.regs.aBase.toNat + lenA q s ≤ 2 ^ 64 ∧ s.regs.bBase.toNat + lenB q s ≤ 2 ^ 64 ∧
    (s.work.co = false → s.regs.outBase.toNat + lenOut s ≤ 2 ^ 64) ∧
    ∀ p : Addr, (windowOut s).has p = true → (windowA q s).has p = false ∧ (windowB q s).has p = false

/-- R117: once the checks have passed no address inside a window wraps, and the windows' lengths are bounded. -/
def Obligations.PassedChecksNeverWrap : Prop :=
  ∀ (i : Instr) (q : Profile) (s : State), profileOf i = some q → launchChecks q s = none →
    (∀ x, x < padTo q.width s.na → (eltAddr s.regs.aBase x).toNat = s.regs.aBase.toNat + 4 * x) ∧
    (∀ x, x < padTo q.width s.nb → (eltAddr s.regs.bBase x).toNat = s.regs.bBase.toNat + 4 * x) ∧
    (s.work.co = false → ∀ x, x < min s.na s.nb →
      (eltAddr s.regs.outBase x).toNat = s.regs.outBase.toNat + 4 * x) ∧
    lenA q s ≤ 2 ^ 34 ∧ lenB q s ≤ 2 ^ 34 ∧ lenOut s ≤ 4 * (2 ^ 32 - 1)

/-- R64, R65: once the checks have passed, every access is aligned as the table says: every element of A and B and, unless
count-only, every output slot to 4 bytes; every block of A and B at a multiple of 4 (QF_V2, SHUF8) to 16 and at a multiple of
8 (SHUF256) to 32 bytes. -/
def Obligations.PassedChecksKeepAlignment : Prop :=
  ∀ (i : Instr) (q : Profile) (s : State), profileOf i = some q → launchChecks q s = none →
    ∀ x, (eltAddr s.regs.aBase x).toNat % 4 = 0 ∧ (eltAddr s.regs.bBase x).toNat % 4 = 0 ∧
      (4 * x % q.align = 0 →
        (eltAddr s.regs.aBase x).toNat % q.align = 0 ∧ (eltAddr s.regs.bBase x).toNat % q.align = 0) ∧
      (s.work.co = false → (eltAddr s.regs.outBase x).toNat % 4 = 0)

/-- R115, R273, R275, R276: a kernel command whose launch checks fail ends in the fault of the first check that fails: its code
and address recorded, COUNT 0, no table built, memory and everything else as before. The clauses on `port` and `host` are
about the model's own fields: the platform's map stays (entry 8), the host's lines and what it has read stay (entries 2, 25),
WAIT's last read observes the end (entry 25). -/
def Obligations.LaunchFaultIsPrecise : Prop :=
  ∀ (i : Instr) (q : Profile) (s : State) (f : EngineFault) (p : Addr), s.phase = .idle → profileOf i = some q →
    launchChecks q (launch (encode i) s) = some (f, p) →
    ∃ t, exec i s = .next t ∧
      t.regs = { s.regs with
        cmd := encode i, done := false, fault := true, faultCode := faultCodeOf f, count := 0, faultAddr := p } ∧
      t.phase = .idle ∧ t.mem = s.mem ∧ t.port = s.port ∧ t.host = { s.host with unseen := [] }

/-- R66: a read or write succeeds when every byte of it answers, and otherwise raises its bus fault at its lowest address; a
refused write writes no byte (the state it raises in is the one it was made in), and a write that succeeds changes no byte
outside it. -/
def Obligations.BusFaultsAreAllOrNothing : Prop :=
  ∀ (s : State) (p base : Addr) (x : Nat) (es : List Elem), es.length ≤ 8 →
    ((∀ t, t < 4 → s.port.readable (p + BitVec.ofNat 64 t) = true) → readElem s p = .ok (Memory.elem s.mem p)) ∧
    ((∃ t, t < 4 ∧ s.port.readable (p + BitVec.ofNat 64 t) = false) → readElem s p = .error ⟨.busRead, p, s⟩) ∧
    ((∀ t, t < 16 → s.port.readable (eltAddr base x + BitVec.ofNat 64 t) = true) →
      loadV4 s base x = .ok (memLanes4 s.mem base x)) ∧
    ((∃ t, t < 16 ∧ s.port.readable (eltAddr base x + BitVec.ofNat 64 t) = false) →
      loadV4 s base x = .error ⟨.busRead, eltAddr base x, s⟩) ∧
    ((∀ t, t < 32 → s.port.readable (eltAddr base x + BitVec.ofNat 64 t) = true) →
      ∃ Y, loadV8 s base x = .ok Y ∧ ∀ l, l < 8 → lane8 Y l = Memory.elem s.mem (eltAddr base (x + l))) ∧
    ((∃ t, t < 32 ∧ s.port.readable (eltAddr base x + BitVec.ofNat 64 t) = false) →
      loadV8 s base x = .error ⟨.busRead, eltAddr base x, s⟩) ∧
    ((∀ t, t < 4 * es.length → s.port.writable (p + BitVec.ofNat 64 t) = true) →
      ∃ t, storeElems s p es = .ok t ∧ setOf t.mem p es.length = es ∧
        ∀ a : Addr, 4 * es.length ≤ (a - p).toNat → Memory.read t.mem a.toNat = Memory.read s.mem a.toNat) ∧
    ((∃ t, t < 4 * es.length ∧ s.port.writable (p + BitVec.ofNat 64 t) = false) →
      storeElems s p es = .error ⟨.busWrite, p, s⟩)

/-- R61: memory is little-endian for single elements, for their stores, and for the lanes and bytes of vector loads. -/
def Obligations.MemoryIsLittleEndian : Prop :=
  ∀ (M : Memory) (p base : Addr) (v : Elem) (x : Nat),
    (Memory.elem M p).toNat = (Memory.read M p.toNat).toNat + 2 ^ 8 * (Memory.read M (p + 1).toNat).toNat +
      2 ^ 16 * (Memory.read M (p + 2).toNat).toNat + 2 ^ 24 * (Memory.read M (p + 3).toNat).toNat ∧
    (∀ t, t < 4 → Memory.read (Memory.writeBytes M p (elemBytes v)) (p + BitVec.ofNat 64 t).toNat = byteOf v t) ∧
    (∀ l, l < 4 → lane4 (memLanes4 M base x) l = Memory.elem M (eltAddr base (x + l))) ∧
    (∀ k, k < 16 → byte16 (memLanes4 M base x) k = Memory.read M (eltAddr base x + BitVec.ofNat 64 k).toNat) ∧
    (∀ s Y, s.mem = M → loadV8 s base x = .ok Y → ∀ l, l < 8 → lane8 Y l = Memory.elem M (eltAddr base (x + l)))

/-! ### Datapath and tables -/

/-- R147: for every pair of lanes exactly one alignment, the one the rule names, sets them against each other. -/
def Obligations.AlignmentsMeetEachPairOnce : Prop :=
  (∀ l u t, l < 8 → u < 8 → t < 8 →
    ((∀ Y, lane8 (align8 Y t) l = lane8 Y u) ↔ t = 4 * (if l / 4 ≠ u / 4 then 1 else 0) + (u + 8 - l) % 4)) ∧
  (∀ l u r, l < 4 → u < 4 → r < 4 → ((∀ Y, lane4 (rot4 Y r) l = lane4 Y u) ↔ r = (u + 4 - l) % 4))

/-- R241: bit `l` of the rotated comparison is 1 exactly when lane `l` of the first block equals some lane of the second. -/
def Obligations.RotatedCompareFindsEveryMatch : Prop :=
  ∀ (X Y : V128) (l : Nat), l < 4 →
    ((rotMatch4 X Y).getLsbD l = true ↔ ∃ u, u < 4 ∧ lane4 X l = lane4 Y u)

/-- R257, R258: the mask of the eight alignments is that of the four rotated comparisons of the halves, `m0 | m1 << 4`. -/
def Obligations.WideCompareIsFourBlockCompares : Prop :=
  ∀ a0 a1 b0 b1 : V128, alignMatch8 ⟨a0, a1⟩ ⟨b0, b1⟩ =
    (rotMatch4 a1 b0 ||| rotMatch4 a1 b1) ++ (rotMatch4 a0 b0 ||| rotMatch4 a0 b1)

/-- R181: the compaction tables pack the lanes at the set bits to the front in order, and the verdicts are sound. -/
def Obligations.TablesHaveTheirProperties : Prop :=
  (∀ (m : BitVec 4) (X : V128), (lanes4 (pshufb X (shuf4T m))).take (popcount m) = (setBits m).map (lane4 X)) ∧
  (∀ (m : BitVec 8) (Y : V256), (lanes8 (permute8 Y (perm8T m))).take (popcount m) = (setBits m).map (lane8 Y)) ∧
  (∀ x : BitVec 16, nct x = .noMatch → x = 0) ∧
  (∀ (x : BitVec 16) (P : BitVec 8) (i u : Nat), i < 4 → u < 4 → nct x = .single P → x.getLsbD (4 * i + u) = true →
    (P.extractLsb' (2 * i) 2).toNat = u)

/-- R216: bit `4i + u` of a stage's mask is 1 exactly when the low nibbles of byte `s` of A's lane `i` and B's lane `u`
agree. -/
def Obligations.StageMaskComparesNibbles : Prop :=
  ∀ (VA VB : V128) (s i u : Nat), s < 4 → i < 4 → u < 4 →
    ((stageMask true VA VB s).getLsbD (4 * i + u) = true ↔
      (lane4 VA i).extractLsb' (8 * s) 4 = (lane4 VB u).extractLsb' (8 * s) 4)

/-- R222: under all inputs the pre-filter's match mask is that of the exhaustive rotated comparison. -/
def Obligations.PreFilterMatchesExhaustively : Prop := ∀ VA VB : V128, qfMatch true VA VB = rotMatch4 VA VB

/-- R152: the compaction store of a V128 with the tables built: where the slots are writable it puts the lanes at the set bits
of the mask into `OUT[c..c+p)` and changes no other byte, or nothing in memory in count-only mode; where a slot's byte is not
writable it raises BUS_WRITE at `OUT[c]` with nothing written and `c` not advanced. -/
def Obligations.CompactStore4FillsItsSlots : Prop :=
  ∀ (X : V128) (m : BitVec 4) (s : State), s.regs.tblValid = true →
    (s.work.co = true → compactStore4 X m s = .ok (s.setWork { s.work with c := s.work.c + popcount m })) ∧
    (s.work.co = false → OnRegion ⟨outSlot s, 4 * popcount m⟩ s.port.writable →
      ∃ t, compactStore4 X m s = .ok t ∧ setOf t.mem (outSlot s) (popcount m) = (setBits m).map (lane4 X) ∧
        t.work = { s.work with c := s.work.c + popcount m } ∧ t.regs = s.regs ∧ t.phase = s.phase ∧
        ∀ p : Addr, Region.has ⟨outSlot s, 4 * popcount m⟩ p = false →
          Memory.read t.mem p.toNat = Memory.read s.mem p.toNat) ∧
    (s.work.co = false → ¬ OnRegion ⟨outSlot s, 4 * popcount m⟩ s.port.writable →
      compactStore4 X m s = .error ⟨.busWrite, outSlot s, s⟩)

/-- R153: the same of a V256. -/
def Obligations.CompactStore8FillsItsSlots : Prop :=
  ∀ (Y : V256) (m : BitVec 8) (s : State), s.regs.tblValid = true →
    (s.work.co = true → compactStore8 Y m s = .ok (s.setWork { s.work with c := s.work.c + popcount m })) ∧
    (s.work.co = false → OnRegion ⟨outSlot s, 4 * popcount m⟩ s.port.writable →
      ∃ t, compactStore8 Y m s = .ok t ∧ setOf t.mem (outSlot s) (popcount m) = (setBits m).map (lane8 Y) ∧
        t.work = { s.work with c := s.work.c + popcount m } ∧ t.regs = s.regs ∧ t.phase = s.phase ∧
        ∀ p : Addr, Region.has ⟨outSlot s, 4 * popcount m⟩ p = false →
          Memory.read t.mem p.toNat = Memory.read s.mem p.toNat) ∧
    (s.work.co = false → ¬ OnRegion ⟨outSlot s, 4 * popcount m⟩ s.port.writable →
      compactStore8 Y m s = .error ⟨.busWrite, outSlot s, s⟩)

/-! ### Iterations -/

/-- R192: one iteration of the merge loop whose accesses answer (the store's only where the elements are equal and a store is
made): on equality the element goes to `OUT[c]`, no other byte changes, and both cursors and the count move; otherwise the
cursor of the smaller element alone. -/
def Obligations.MergeIterationFollowsTheSmaller : Prop :=
  ∀ s : State, s.phase = .tail → s.host.script = [] → s.work.i < s.na → s.work.j < s.nb →
    OnRegion ⟨eltAddr s.regs.aBase s.work.i, 4⟩ s.port.readable →
    OnRegion ⟨eltAddr s.regs.bBase s.work.j, 4⟩ s.port.readable →
    (Memory.elem s.mem (eltAddr s.regs.aBase s.work.i) = Memory.elem s.mem (eltAddr s.regs.bBase s.work.j) →
      s.work.co = false → OnRegion ⟨outSlot s, 4⟩ s.port.writable) →
    ∃ t, step s = .next t ∧ t.phase = .tail ∧ t.regs = s.regs ∧
      (Memory.elem s.mem (eltAddr s.regs.aBase s.work.i) = Memory.elem s.mem (eltAddr s.regs.bBase s.work.j) →
        t.work = { s.work with i := s.work.i + 1, j := s.work.j + 1, c := s.work.c + 1 } ∧
        (s.work.co = false →
          Memory.elem t.mem (outSlot s) = Memory.elem s.mem (eltAddr s.regs.aBase s.work.i) ∧
          ∀ p : Addr, Region.has ⟨outSlot s, 4⟩ p = false →
            Memory.read t.mem p.toNat = Memory.read s.mem p.toNat) ∧
        (s.work.co = true → t.mem = s.mem)) ∧
      ((Memory.elem s.mem (eltAddr s.regs.aBase s.work.i)).toNat <
          (Memory.elem s.mem (eltAddr s.regs.bBase s.work.j)).toNat →
        t.work = { s.work with i := s.work.i + 1 } ∧ t.mem = s.mem) ∧
      ((Memory.elem s.mem (eltAddr s.regs.bBase s.work.j)).toNat <
          (Memory.elem s.mem (eltAddr s.regs.aBase s.work.i)).toNat →
        t.work = { s.work with j := s.work.j + 1 } ∧ t.mem = s.mem)

/-- R207 (entry 16): the two inner loops of GALLOP end by their own tests, never by running out of the model's fuel: the step
size is a power of two of at most 2^30, and the bisection ends with its bounds equal. -/
def Obligations.GallopSearchEndsByItsTests : Prop :=
  ∀ (s : State) (k : Nat) (a : Elem),
    (∀ r, doubling s k a searchFuel 1 = .ok r →
      (∃ e, e ≤ 30 ∧ r = 2 ^ e) ∧ (k + r < nblk s → ∃ b, bmax s (k + r) = .ok b ∧ a.toNat ≤ b.toNat)) ∧
    (∀ lower upper mid p, lower ≤ upper → upper ≤ 2 ^ 30 → bisect s k a searchFuel lower upper mid = .ok p →
      p.1 = p.2.1)

/-- R202, R205: over an ascending B, an iteration of GALLOP that meets no fault breaks to the tail exactly when even the last
full block's maximum is below the element, and otherwise lands on the leftmost block, not before the last one found, whose
maximum is not below it. -/
def Obligations.GallopFindsTheLeftmostBlock : Prop :=
  ∀ (s t : State), s.phase = .vec → Ascending (setB s) → s.work.k < nblk s → gallopBody s = .ok t →
    (t.phase = .tail ∧ t.work.k = s.work.k ∧
      (Memory.elem s.mem (eltAddr s.regs.bBase (4 * (nblk s - 1) + 3))).toNat <
        (Memory.elem s.mem (eltAddr s.regs.aBase s.work.i)).toNat) ∨
    (t.phase = .vec ∧ s.work.k ≤ t.work.k ∧ t.work.k < nblk s ∧
      (Memory.elem s.mem (eltAddr s.regs.aBase s.work.i)).toNat ≤
        (Memory.elem s.mem (eltAddr s.regs.bBase (4 * t.work.k + 3))).toNat ∧
      ∀ n, s.work.k ≤ n → n < t.work.k →
        (Memory.elem s.mem (eltAddr s.regs.bBase (4 * n + 3))).toNat <
          (Memory.elem s.mem (eltAddr s.regs.aBase s.work.i)).toNat)

/-- R228, R229: an iteration of QF_V2 reloads the block of a side whose cursor moved, where the new cursor is below the padded
length, from memory as it then is, and keeps the register of a side that did not move. -/
def Obligations.QfV2ReloadsOnlyTheMovedSide : Prop :=
  ∀ s t : State, bodyQfV2 s = .ok t →
    (t.work.i = s.work.i → t.work.va = s.work.va) ∧
    (t.work.i ≠ s.work.i → t.work.i < padTo 4 s.na → t.work.va = memLanes4 t.mem s.regs.aBase t.work.i) ∧
    (t.work.j = s.work.j → t.work.vb = s.work.vb) ∧
    (t.work.j ≠ s.work.j → t.work.j < padTo 4 s.nb → t.work.vb = memLanes4 t.mem s.regs.bBase t.work.j)

/-! ### Whole commands -/

/-- R135, R322: every command ends: exec answers, from any state, a state in which the engine is idle. -/
def Obligations.EveryCommandEnds : Prop := ∀ (i : Instr) (s : State), ∃ t, exec i s = .next t ∧ t.phase = .idle

/-- R41, R271: a command run on an idle engine ends with exactly one of DONE and FAULT, its word in CMD, and a fault code that
the table of R271 knows, or 0 when there is no fault. -/
def Obligations.CommandEndsInDoneOrFault : Prop :=
  ∀ (i : Instr) (s t : State), s.phase = .idle → exec i s = .next t →
    t.regs.cmd = encode i ∧ (t.regs.done = !t.regs.fault) ∧
    (t.regs.done = true → t.regs.faultCode = 0 ∧ t.regs.faultAddr = 0) ∧
    (t.regs.fault = true → ∃ f, t.regs.faultCode = faultCodeOf f)

/-- R22 to R25, R29, R93: the frame of every command, whatever its outcome and the state it is run in: the descriptors and
CTRL stay. The other four clauses are about the model's own fields and rest on its choices, not on a rule: the platform's map
`port` stays (entry 8), the host's pending lines `host.script` stay (entry 2), what the host has read, `host.got`, stays,
because the values that WAIT reads do not join it (entries 2, 25), and no free value is taken (`host.draws`, entry 27). -/
def Obligations.CommandKeepsDescriptors : Prop :=
  ∀ (i : Instr) (s t : State), exec i s = .next t → KeepsHostSide s t

/-- R62, R69, R276: the frame of every command in memory, whatever its outcome and with or without the contract: run on an
idle engine it changes no byte outside the slots `OUT[0..COUNT)`, and none at all in count-only mode; TBLD changes none. -/
def Obligations.CommandWritesOnlyCountedSlots : Prop :=
  ∀ (i : Instr) (s t : State), s.phase = .idle → exec i s = .next t →
    (∀ p : Addr, Region.has ⟨s.regs.outBase, 4 * t.regs.count.toNat⟩ p = false →
      Memory.read t.mem p.toNat = Memory.read s.mem p.toNat) ∧
    (i.countOnly = true → t.mem = s.mem) ∧ (i = .tbld → t.mem = s.mem)

/-- R40, R118, R173: after a command run on an idle engine the gate is open if it was, or if the command is TBLD, or needs the
tables and passed its launch checks; a launch that faults builds nothing, and MERGE and GALLOP never do. -/
def Obligations.TableGateOpensOnce : Prop :=
  ∀ (i : Instr) (s t : State), s.phase = .idle → exec i s = .next t →
    t.regs.tblValid = (s.regs.tblValid ||
      match profileOf i with
      | none => true
      | some q => q.needsTables && (launchChecks q (launch (encode i) s)).isNone)

/-- R173, R174: TBLD on an idle engine completes with DONE and the gate open, COUNT 0, whether or not the tables were valid,
and changes no other register and no memory. The clauses on `port` and `host` are about the model's own fields: the platform's
map stays (entry 8), the host's lines and what it has read stay (entries 2, 25), WAIT's last read observes the end (entry
25). -/
def Obligations.TbldBuildsAndCompletes : Prop :=
  ∀ s : State, s.phase = .idle →
    ∃ t, exec .tbld s = .next t ∧
      t.regs = { s.regs with cmd := 0x001, done := true, fault := false, faultCode := 0, tblValid := true, count := 0,
                             faultAddr := 0 } ∧
      t.phase = .idle ∧ t.mem = s.mem ∧ t.port = s.port ∧ t.host = { s.host with unseen := [] }

/-- R136: with an empty set every kernel command, launched with its windows answering, completes with COUNT 0 and writes
nothing, sorted or not. -/
def Obligations.EmptySetsGiveCountZero : Prop :=
  ∀ (i : Instr) (q : Profile) (s : State), Launchable i q s → s.na = 0 ∨ s.nb = 0 →
    ∃ t, exec i s = .next t ∧ t.phase = .idle ∧ t.regs.done = true ∧ t.regs.fault = false ∧ t.regs.count = 0 ∧
      t.mem = s.mem

/-- R15: every kernel command launched on ascending sets, its checks passing, that meets no bus fault completes with the length
of the intersection in COUNT and, unless count-only, the intersection in the output; no other byte is written. -/
def Obligations.EveryKernelKeepsTheContract : Prop :=
  ∀ (i : Instr) (q : Profile) (s : State), s.phase = .idle → profileOf i = some q →
    launchChecks q (launch (encode i) s) = none → Contract s →
    ∃ t, exec i s = .next t ∧ (t.regs.fault = false → Intersects i s t)

/-- R15, R191, R194 for MERGE. -/
def Obligations.MergeComputesIntersection : Prop := ComputesIntersection .merge

/-- R15, R201, R205 for GALLOP and GALLOP.CO. -/
def Obligations.GallopComputesIntersection : Prop := ∀ co, ComputesIntersection (.gallop co)

/-- R15, R220, R223 for QF_B4 and QF_B4.CO. -/
def Obligations.QfB4ComputesIntersection : Prop := ∀ co, ComputesIntersection (.qfB4 co)

/-- R15, R227, R230 for QF_V2 and QF_V2.CO. -/
def Obligations.QfV2ComputesIntersection : Prop := ∀ co, ComputesIntersection (.qfV2 co)

/-- R15, R242, R244 for SHUF4. -/
def Obligations.Shuf4ComputesIntersection : Prop := ComputesIntersection .shuf4

/-- R15, R249, R251 for SHUF8. -/
def Obligations.Shuf8ComputesIntersection : Prop := ComputesIntersection .shuf8

/-- R15, R256, R257 for SHUF256. -/
def Obligations.Shuf256ComputesIntersection : Prop := ComputesIntersection .shuf256

/-- R15, R231, R258: under the contract any two kernel commands that can be launched on the same state leave the same COUNT,
count-only or not, and, neither count-only, the same memory byte for byte. -/
def Obligations.KernelsAgree : Prop :=
  ∀ (i i' : Instr) (q q' : Profile) (s t t' : State), Launchable i q s → Launchable i' q' s → Contract s →
    exec i s = .next t → exec i' s = .next t' →
    t.regs.count = t'.regs.count ∧
    (i.countOnly = false → i'.countOnly = false →
      ∀ p : Addr, Memory.read t.mem p.toNat = Memory.read t'.mem p.toNat)

/-- R68, R230: what lies in memory outside the logical elements, the padding among it, influences neither COUNT nor the
output: two states alike but for memory that hold the same sets end alike. -/
def Obligations.PaddingNeverMatters : Prop :=
  ∀ (i : Instr) (q : Profile) (s t t' : State) (M : Memory), Launchable i q s → Contract s →
    setOf M s.regs.aBase s.na = setA s → setOf M s.regs.bBase s.nb = setB s →
    exec i s = .next t → exec i (s.setMem M) = .next t' →
    t.regs = t'.regs ∧
    (i.countOnly = false →
      setOf t.mem s.regs.outBase t.regs.count.toNat = setOf t'.mem s.regs.outBase t.regs.count.toNat)

/-- R271, R276: under the contract a kernel command that passes its launch checks and ends in a fault has met a bus fault, and,
unless count-only, has left the first COUNT elements of the intersection in the output. FAULT_ADDR is the lowest address of
the access that met it: after BUS_READ an access of 4, 16 or 32 bytes inside a storage window, one byte of it not readable;
after BUS_WRITE, which a count-only command never meets, the store of the next elements of the intersection at `OUT[COUNT]`,
one byte of it not writable (R66, R152, R153). -/
def Obligations.BusFaultLeavesAPrefix : Prop :=
  ∀ (i : Instr) (q : Profile) (s t : State), s.phase = .idle → profileOf i = some q →
    launchChecks q (launch (encode i) s) = none → Contract s → exec i s = .next t → t.regs.fault = true →
    (t.regs.faultCode = 0x05 ∨ t.regs.faultCode = 0x06) ∧
    (t.regs.faultCode = 0x05 → ∃ x n, (n = 4 ∨ n = 16 ∨ n = 32) ∧
      ((t.regs.faultAddr = eltAddr s.regs.aBase x ∧ 4 * x + n ≤ lenA q s) ∨
        (t.regs.faultAddr = eltAddr s.regs.bBase x ∧ 4 * x + n ≤ lenB q s)) ∧
      ∃ u, u < n ∧ s.port.readable (t.regs.faultAddr + BitVec.ofNat 64 u) = false) ∧
    (t.regs.faultCode = 0x06 → i.countOnly = false ∧
      t.regs.faultAddr = eltAddr s.regs.outBase t.regs.count.toNat ∧
      ∃ n, n ≤ q.width ∧ t.regs.count.toNat + n ≤ (interOf (setA s) (setB s)).length ∧
        ∃ u, u < 4 * n ∧ s.port.writable (t.regs.faultAddr + BitVec.ofNat 64 u) = false) ∧
    t.regs.count.toNat ≤ (interOf (setA s) (setB s)).length ∧
    (i.countOnly = false →
      setOf t.mem s.regs.outBase t.regs.count.toNat = (interOf (setA s) (setB s)).take t.regs.count.toNat)

/-! ### Invariants of every step -/

/-- Entry 7: every step keeps memory in its canonical form. -/
def Obligations.MemoryStaysCanonical : Prop :=
  ∀ s t : State, Memory.wf s.mem → step s = .next t → Memory.wf t.mem

/-- R28, R34, R41: every step keeps the status registers coherent. -/
def Obligations.StatusStaysCoherent : Prop :=
  ∀ s t : State, StatusCoherent s → step s = .next t → StatusCoherent t

/-- R36, R111: every step keeps the latched flag equal to CMD's bit 8 and the command legal past the launch. -/
def Obligations.LatchStaysCoherent : Prop :=
  ∀ s t : State, LatchCoherent s → step s = .next t → LatchCoherent t

/-- R157, R215, R202: every step keeps the cursors of a running command within the lengths and in step with the blocks, and
the running count below their sum. -/
def Obligations.CursorsStayBounded : Prop :=
  ∀ s t : State, CursorsBounded s → step s = .next t → CursorsBounded t

/-- The four invariants hold at reset (R45; the memory's form is entry 7's). -/
def Obligations.InvariantsHoldAtReset : Prop :=
  Memory.wf State.reset.mem ∧ StatusCoherent State.reset ∧ LatchCoherent State.reset ∧ CursorsBounded State.reset

/-! ### The host and memory -/

/-- R78, R310 (entry 4, the model's choice of a stop): while busy, a host line that writes a byte of a storage window or
touches the output window stops the model. R310, R312, R314: every other host line on memory completes. A write changes that
byte alone, whether or not completion has been observed, and nothing about the byte is left to observe (entry 5). A read takes
one byte: the one in memory where nothing about it is left to observe (R74), any byte otherwise (entry 27). -/
def Obligations.OnlyBusyWindowsStopTheHost : Prop :=
  (∀ (s : State) (q : Profile) (p : Addr) (b : Byte) (rest : List HostLine), s.phase ≠ .idle →
    currentProfile s = some q →
    (s.host.script = .memWrite p b :: rest →
      (windowA q s).has p = true ∨ (windowB q s).has p = true ∨ (windowOut s).has p = true →
        step s = .fault .hostTouchesWindow) ∧
    (s.host.script = .memRead p :: rest → (windowOut s).has p = true → step s = .fault .hostTouchesWindow)) ∧
  (∀ (s : State) (p : Addr) (b : Byte) (rest : List HostLine), s.host.script = .memWrite p b :: rest →
    (∀ q, s.phase ≠ .idle → currentProfile s = some q →
      (windowA q s).has p = false ∧ (windowB q s).has p = false ∧ (windowOut s).has p = false) →
    ∃ t, step s = .next t ∧ Memory.read t.mem p.toNat = b ∧
      (∀ a : Addr, a ≠ p → Memory.read t.mem a.toNat = Memory.read s.mem a.toNat) ∧
      notYetSeen p t = false ∧ (∀ a : Addr, a ≠ p → notYetSeen a t = notYetSeen a s) ∧
      t.regs = s.regs ∧ t.phase = s.phase ∧ t.work = s.work ∧ t.port = s.port ∧ t.host.script = rest ∧
      t.host.got = s.host.got) ∧
  ∀ (s : State) (p : Addr) (rest : List HostLine), s.host.script = .memRead p :: rest →
    (∀ q, s.phase ≠ .idle → currentProfile s = some q → (windowOut s).has p = false) →
    ∃ (t : State) (v : Byte), step s = .next t ∧ t.host.got = v.setWidth 64 :: s.host.got ∧
      (notYetSeen p s = false → v = Memory.read s.mem p.toNat) ∧
      t.mem = s.mem ∧ (∀ a : Addr, notYetSeen a t = notYetSeen a s) ∧
      t.regs = s.regs ∧ t.phase = s.phase ∧ t.work = s.work ∧ t.port = s.port ∧ t.host.script = rest

/-- R74, R312 (entries 5, 25): after a command run on an idle engine and waited for, the host can read and write every byte of
memory: a read returns the byte, a write changes that byte alone. -/
def Obligations.CompletedOutputIsVisible : Prop :=
  ∀ (i : Instr) (s t : State) (p : Addr) (b : Byte), s.phase = .idle → exec i s = .next t →
    hostMemRead p t = .next { t with host := { t.host with
      got := (Memory.read t.mem p.toNat).setWidth 64 :: t.host.got } } ∧
    ∃ u, hostMemWrite p b t = .next u ∧ Memory.read u.mem p.toNat = b ∧ u.regs = t.regs ∧
      ∀ a : Addr, a ≠ p → Memory.read u.mem a.toNat = Memory.read t.mem a.toNat
end

