-- ==== Sys2Proof/Laws/Memory.lean ====
section
/-! SUPPORT. The laws of system memory: reading after writing, and that every write keeps the canonical form. -/

-- Elaborated one at a time: the package as one text would otherwise hold a thread and its stack for many theorems at once.
set_option Elab.async false

namespace Sys2Proof.Machine

theorem Memory.read_erase (p q : Nat) (M : Memory) :
    Memory.read (Memory.erase p M) q = if q = p then Config.unlistedByte else Memory.read M q := by
  induction M with
  | nil => simp [Memory.erase, Memory.read]
  | cons cell rest ih =>
    obtain ⟨b, v⟩ := cell
    simp only [Memory.erase] at ih ⊢
    by_cases hb : b = p
    · subst hb
      simp only [List.filter_cons, bne_self_eq_false, Bool.false_eq_true, if_false, ih, Memory.read]
      by_cases hq : q = b
      · simp [hq]
      · simp [hq, Ne.symm hq]
    · simp only [List.filter_cons, bne_iff_ne, ne_eq, hb, not_false_eq_true, if_true, Memory.read, ih]
      by_cases hq : q = p
      · subst hq; simp [hb]
      · simp [hq]

theorem Memory.read_insert (p q : Nat) (v : Byte) (M : Memory) (h : ∀ cell ∈ M, cell.1 ≠ p) :
    Memory.read (Memory.insert p v M) q = if q = p then v else Memory.read M q := by
  induction M with
  | nil =>
    by_cases hq : q = p
    · simp [Memory.insert, Memory.read, hq]
    · simp [Memory.insert, Memory.read, hq, Ne.symm hq]
  | cons cell rest ih =>
    obtain ⟨b, w⟩ := cell
    have hb : b ≠ p := h (b, w) (by simp)
    have ih := ih fun c hc => h c (by simp [hc])
    by_cases hlt : p < b
    · by_cases hq : q = p
      · simp [Memory.insert, hlt, Memory.read, hq]
      · simp [Memory.insert, hlt, Memory.read, hq, Ne.symm hq]
    · by_cases hq : q = p
      · subst hq; simp [Memory.insert, hlt, Memory.read, ih, hb]
      · simp [Memory.insert, hlt, Memory.read, ih, hq]

theorem Memory.erase_ne (p : Nat) (M : Memory) : ∀ cell ∈ Memory.erase p M, cell.1 ≠ p := by
  intro cell h; simpa [Memory.erase] using (List.mem_filter.1 h).2

/-- Reading after a write of one byte. -/
theorem Memory.read_write (M : Memory) (p q : Nat) (v : Byte) :
    Memory.read (Memory.write M p v) q = if q = p then v else Memory.read M q := by
  unfold Memory.write
  split
  · rename_i hv; rw [Memory.read_erase, hv]
  · rw [Memory.read_insert _ _ _ _ (Memory.erase_ne p M), Memory.read_erase]
    by_cases hq : q = p <;> simp [hq]

theorem Memory.mem_insert {p : Nat} {v : Byte} {M : Memory} {cell : Host.Cell} (h : cell ∈ Memory.insert p v M) :
    cell = (p, v) ∨ cell ∈ M := by
  induction M with
  | nil => simpa [Memory.insert] using h
  | cons c rest ih =>
    obtain ⟨b, w⟩ := c
    by_cases hlt : p < b
    · simpa [Memory.insert, hlt] using h
    · rw [Memory.insert, if_neg hlt] at h
      rcases List.mem_cons.1 h with h | h
      · simp [h]
      · rcases ih h with h | h <;> simp [h]

theorem Memory.wf_erase {M : Memory} (p : Nat) (h : Memory.wf M) : Memory.wf (Memory.erase p M) :=
  ⟨h.1.sublist List.filter_sublist, fun c hc => h.2 c (List.mem_filter.1 hc).1⟩

theorem Memory.wf_insert {M : Memory} {p : Nat} {v : Byte} (h : Memory.wf M) (hp : p < 2 ^ 64)
    (hv : v ≠ Config.unlistedByte) (hne : ∀ cell ∈ M, cell.1 ≠ p) : Memory.wf (Memory.insert p v M) := by
  refine ⟨?_, fun c hc => ?_⟩
  · obtain ⟨h, -⟩ := h
    induction M with
    | nil => simp [Memory.insert]
    | cons c rest ih =>
      obtain ⟨b, w⟩ := c
      have hb : b ≠ p := hne (b, w) (by simp)
      rw [List.pairwise_cons] at h
      by_cases hlt : p < b
      · rw [Memory.insert, if_pos hlt]
        refine List.pairwise_cons.2 ⟨fun c hc => ?_, List.pairwise_cons.2 h⟩
        rcases List.mem_cons.1 hc with rfl | hc
        · exact hlt
        · exact lt_trans hlt (h.1 c hc)
      · rw [Memory.insert, if_neg hlt]
        refine List.pairwise_cons.2 ⟨fun c hc => ?_, ih (fun c hc => hne c (by simp [hc])) h.2⟩
        rcases Memory.mem_insert hc with rfl | hc
        · exact lt_of_le_of_ne (not_lt.1 hlt) hb
        · exact h.1 c hc
  · rcases Memory.mem_insert hc with rfl | hc
    · exact ⟨hp, hv⟩
    · exact h.2 c hc

/-- A write of one byte keeps the canonical form. -/
theorem Memory.wf_write {M : Memory} {p : Nat} (v : Byte) (h : Memory.wf M) (hp : p < 2 ^ 64) :
    Memory.wf (Memory.write M p v) := by
  unfold Memory.write
  split
  · exact Memory.wf_erase p h
  · rename_i hv; exact Memory.wf_insert (Memory.wf_erase p h) hp hv (Memory.erase_ne p M)

/-- A write of bytes keeps the canonical form. -/
theorem Memory.wf_writeBytes {M : Memory} (p : Addr) (bs : List Byte) (h : Memory.wf M) :
    Memory.wf (Memory.writeBytes M p bs) := by
  induction bs generalizing M p with
  | nil => exact h
  | cons b rest ih => exact ih _ (Memory.wf_write b h p.isLt)

theorem Memory.wf_nil : Memory.wf [] := by simp [Memory.wf]

/-- Reading a byte after a write of at most 2^64 bytes: the byte at the offset from the write's address, or the old one. -/
theorem Memory.read_writeBytes (M : Memory) (p q : Addr) (bs : List Byte) (hl : bs.length ≤ 2 ^ 64) :
    Memory.read (Memory.writeBytes M p bs) q.toNat =
      if (q - p).toNat < bs.length then bs.getD (q - p).toNat 0 else Memory.read M q.toNat := by
  induction bs generalizing M p with
  | nil => simp [Memory.writeBytes]
  | cons b rest ih =>
    simp only [List.length_cons] at hl
    rw [Memory.writeBytes, ih _ _ (by omega), Memory.read_write]
    by_cases hqp : q = p
    · subst hqp
      have h1 : (q - (q + 1)).toNat = 2 ^ 64 - 1 := by
        have : q - (q + 1) = (-1 : BitVec 64) := by ring
        rw [this]; decide
      have h2 : ¬ (q - (q + 1)).toNat < rest.length := by omega
      rw [if_neg h2]
      simp
    · have hne : q.toNat ≠ p.toNat := fun h => hqp (BitVec.eq_of_toNat_eq h)
      have h0 : (q - p).toNat ≠ 0 := by
        intro h
        apply hqp
        exact sub_eq_zero.1 (BitVec.eq_of_toNat_eq h)
      have h1 : (q - (p + 1)).toNat = (q - p).toNat - 1 := by
        have e : q - (p + 1) = (q - p) - 1 := by ring
        have hlt := (q - p).isLt
        have e1 : (1 : BitVec 64).toNat = 1 := rfl
        rw [e, BitVec.toNat_sub, e1]
        omega
      rw [h1]
      simp only [List.length_cons, hne, if_false]
      obtain ⟨k, hk⟩ := Nat.exists_eq_succ_of_ne_zero h0
      rw [hk]
      simp

/-- A write leaves every byte outside it alone. -/
theorem Memory.read_writeBytes_of_ge (M : Memory) (p q : Addr) (bs : List Byte) (hl : bs.length ≤ 2 ^ 64)
    (h : bs.length ≤ (q - p).toNat) : Memory.read (Memory.writeBytes M p bs) q.toNat = Memory.read M q.toNat := by
  rw [Memory.read_writeBytes M p q bs hl, if_neg (by omega)]

end Sys2Proof.Machine
end

