-- ==== Sys2Proof/Laws/State.lean ====
section
/-! SUPPORT. One lemma per field per named update of State, so that no proof unfolds an update. -/

-- Elaborated one at a time: the package as one text would otherwise hold a thread and its stack for many theorems at once.
set_option Elab.async false

namespace Sys2Proof.Machine

@[simp] theorem State.setRegs_regs (s : State) (v : Regs) : (s.setRegs v).regs = v := rfl
@[simp] theorem State.setRegs_phase (s : State) (v : Regs) : (s.setRegs v).phase = s.phase := rfl
@[simp] theorem State.setRegs_work (s : State) (v : Regs) : (s.setRegs v).work = s.work := rfl
@[simp] theorem State.setRegs_mem (s : State) (v : Regs) : (s.setRegs v).mem = s.mem := rfl
@[simp] theorem State.setRegs_port (s : State) (v : Regs) : (s.setRegs v).port = s.port := rfl
@[simp] theorem State.setRegs_host (s : State) (v : Regs) : (s.setRegs v).host = s.host := rfl
@[simp] theorem State.setRegs_na (s : State) (v : Regs) : (s.setRegs v).na = v.aLen.toNat := rfl
@[simp] theorem State.setRegs_nb (s : State) (v : Regs) : (s.setRegs v).nb = v.bLen.toNat := rfl

@[simp] theorem State.setPhase_regs (s : State) (v : Phase) : (s.setPhase v).regs = s.regs := rfl
@[simp] theorem State.setPhase_phase (s : State) (v : Phase) : (s.setPhase v).phase = v := rfl
@[simp] theorem State.setPhase_work (s : State) (v : Phase) : (s.setPhase v).work = s.work := rfl
@[simp] theorem State.setPhase_mem (s : State) (v : Phase) : (s.setPhase v).mem = s.mem := rfl
@[simp] theorem State.setPhase_port (s : State) (v : Phase) : (s.setPhase v).port = s.port := rfl
@[simp] theorem State.setPhase_host (s : State) (v : Phase) : (s.setPhase v).host = s.host := rfl
@[simp] theorem State.setPhase_na (s : State) (v : Phase) : (s.setPhase v).na = s.na := rfl
@[simp] theorem State.setPhase_nb (s : State) (v : Phase) : (s.setPhase v).nb = s.nb := rfl

@[simp] theorem State.setWork_regs (s : State) (v : Work) : (s.setWork v).regs = s.regs := rfl
@[simp] theorem State.setWork_phase (s : State) (v : Work) : (s.setWork v).phase = s.phase := rfl
@[simp] theorem State.setWork_work (s : State) (v : Work) : (s.setWork v).work = v := rfl
@[simp] theorem State.setWork_mem (s : State) (v : Work) : (s.setWork v).mem = s.mem := rfl
@[simp] theorem State.setWork_port (s : State) (v : Work) : (s.setWork v).port = s.port := rfl
@[simp] theorem State.setWork_host (s : State) (v : Work) : (s.setWork v).host = s.host := rfl
@[simp] theorem State.setWork_na (s : State) (v : Work) : (s.setWork v).na = s.na := rfl
@[simp] theorem State.setWork_nb (s : State) (v : Work) : (s.setWork v).nb = s.nb := rfl

@[simp] theorem State.setMem_regs (s : State) (v : Memory) : (s.setMem v).regs = s.regs := rfl
@[simp] theorem State.setMem_phase (s : State) (v : Memory) : (s.setMem v).phase = s.phase := rfl
@[simp] theorem State.setMem_work (s : State) (v : Memory) : (s.setMem v).work = s.work := rfl
@[simp] theorem State.setMem_mem (s : State) (v : Memory) : (s.setMem v).mem = v := rfl
@[simp] theorem State.setMem_port (s : State) (v : Memory) : (s.setMem v).port = s.port := rfl
@[simp] theorem State.setMem_host (s : State) (v : Memory) : (s.setMem v).host = s.host := rfl
@[simp] theorem State.setMem_na (s : State) (v : Memory) : (s.setMem v).na = s.na := rfl
@[simp] theorem State.setMem_nb (s : State) (v : Memory) : (s.setMem v).nb = s.nb := rfl

@[simp] theorem State.setHost_regs (s : State) (v : HostSide) : (s.setHost v).regs = s.regs := rfl
@[simp] theorem State.setHost_phase (s : State) (v : HostSide) : (s.setHost v).phase = s.phase := rfl
@[simp] theorem State.setHost_work (s : State) (v : HostSide) : (s.setHost v).work = s.work := rfl
@[simp] theorem State.setHost_mem (s : State) (v : HostSide) : (s.setHost v).mem = s.mem := rfl
@[simp] theorem State.setHost_port (s : State) (v : HostSide) : (s.setHost v).port = s.port := rfl
@[simp] theorem State.setHost_host (s : State) (v : HostSide) : (s.setHost v).host = v := rfl
@[simp] theorem State.setHost_na (s : State) (v : HostSide) : (s.setHost v).na = s.na := rfl
@[simp] theorem State.setHost_nb (s : State) (v : HostSide) : (s.setHost v).nb = s.nb := rfl

end Sys2Proof.Machine
end

