-- ==== Sys2Proof/Laws/Ops.lean ====
section
/-! SUPPORT. What the shared operations can do, each said once: a read raises BUS_READ in the state it is made in; everything
a rule application does to the state is `Grows` (only working registers, memory inside the output slots it fills, and the
record of stores change). -/

-- Elaborated one at a time: the package as one text would otherwise hold a thread and its stack for many theorems at once.
set_option Elab.async false

namespace Sys2Proof.Machine

/-- What a rule application of a loop can do to the state: registers, platform and the host's lines stay, cursors and count
only grow, and only the output slots between the old and the new count are written, none in count-only mode. -/
structure Grows (s t : State) : Prop where
  regs : t.regs = s.regs
  port : t.port = s.port
  script : t.host.script = s.host.script
  got : t.host.got = s.host.got
  draws : t.host.draws = s.host.draws
  co : t.work.co = s.work.co
  i_le : s.work.i ≤ t.work.i
  c_le : s.work.c ≤ t.work.c
  mem : 4 * t.work.c ≤ 2 ^ 64 → ∀ p : Addr,
    (p - s.regs.outBase).toNat < 4 * s.work.c ∨ 4 * t.work.c ≤ (p - s.regs.outBase).toNat →
      Memory.read t.mem p.toNat = Memory.read s.mem p.toNat
  wf : Memory.wf s.mem → Memory.wf t.mem
  countOnly : s.work.co = true → t.mem = s.mem ∧ t.host = s.host

theorem Grows.refl (s : State) : Grows s s :=
  ⟨rfl, rfl, rfl, rfl, rfl, rfl, le_rfl, le_rfl, fun _ _ _ => rfl, id, fun _ => ⟨rfl, rfl⟩⟩

theorem Grows.trans {s t u : State} (h : Grows s t) (g : Grows t u) : Grows s u where
  regs := g.regs.trans h.regs
  port := g.port.trans h.port
  script := g.script.trans h.script
  got := g.got.trans h.got
  draws := g.draws.trans h.draws
  co := g.co.trans h.co
  i_le := h.i_le.trans g.i_le
  c_le := h.c_le.trans g.c_le
  mem hc p hp := by
    have hcu := g.c_le
    have hct := h.c_le
    have hr := congrArg Regs.outBase h.regs
    rw [g.mem hc p (by rw [hr]; omega), h.mem (by omega) p (by omega)]
  wf := g.wf ∘ h.wf
  countOnly hco := by
    obtain ⟨a, b⟩ := h.countOnly hco
    obtain ⟨c, d⟩ := g.countOnly (h.co.trans hco)
    exact ⟨c.trans a, d.trans b⟩

/-- A rule application that writes no memory and only moves working registers on. -/
theorem Grows.of_work {s t : State} (hr : t.regs = s.regs) (hp : t.port = s.port) (hh : t.host = s.host)
    (hm : t.mem = s.mem) (hco : t.work.co = s.work.co) (hi : s.work.i ≤ t.work.i) (hc : s.work.c = t.work.c) :
    Grows s t :=
  ⟨hr, hp, by rw [hh], by rw [hh], by rw [hh], hco, hi, hc.le, fun _ _ _ => by rw [hm], fun h => by rw [hm]; exact h,
    fun _ => ⟨hm, hh⟩⟩

/-- The fault is one of the two bus faults. -/
def IsBus (f : EngineFault) : Prop := f = .busRead ∨ f = .busWrite

/-- A read: if it raises, it raises BUS_READ in the state it is made in. -/
def Reads {α : Type} (s : State) (x : Except Raised α) : Prop := ∀ e, x = .error e → e.state = s ∧ e.fault = .busRead

/-- A rule application, or a part of one, from `s`: whether it ends or raises, the state has grown from `s`, and what it
raises is a bus fault. -/
def Applies (s : State) (x : Except Raised State) : Prop :=
  (∀ t, x = .ok t → Grows s t) ∧ ∀ e, x = .error e → Grows s e.state ∧ IsBus e.fault

theorem Reads.ok {α : Type} {s : State} (a : α) : Reads s (.ok a) := by intro e h; cases h

theorem Reads.bind {α β : Type} {s : State} {x : Except Raised α} {f : α → Except Raised β} (hx : Reads s x)
    (hf : ∀ a, x = .ok a → Reads s (f a)) : Reads s (x >>= f) := by
  cases x with
  | error e => intro e' h; cases h; exact hx e rfl
  | ok a => exact hf a rfl

theorem Applies.ok {s t : State} (h : Grows s t) : Applies s (.ok t) := by
  refine ⟨fun u hu => ?_, fun e he => ?_⟩
  · cases hu; exact h
  · cases he

theorem Applies.after_read {α : Type} {s r : State} {x : Except Raised α} {f : α → Except Raised State} (hr : Grows r s)
    (hx : Reads s x) (hf : ∀ a, x = .ok a → Applies r (f a)) : Applies r (x >>= f) := by
  cases x with
  | error e =>
    refine ⟨fun t h => ?_, fun e' h => ?_⟩
    · cases h
    · cases h; obtain ⟨h1, h2⟩ := hx e rfl; exact ⟨h1 ▸ hr, .inl h2⟩
  | ok a => exact hf a rfl

theorem Applies.trans {s t : State} {x : Except Raised State} (h : Grows s t) (hx : Applies t x) : Applies s x :=
  ⟨fun u hu => h.trans (hx.1 u hu), fun e he => ⟨h.trans (hx.2 e he).1, (hx.2 e he).2⟩⟩

theorem Applies.bind {s : State} {x : Except Raised State} {f : State → Except Raised State} (hx : Applies s x)
    (hf : ∀ t, x = .ok t → Applies t (f t)) : Applies s (x >>= f) := by
  cases x with
  | error e => exact ⟨fun t h => (by cases h), fun e' h => (by cases h; exact hx.2 e rfl)⟩
  | ok t => exact (hf t rfl).trans (hx.1 t rfl)

/-! ### Reads -/

theorem checkRead_reads (s : State) (p : Addr) (n : Nat) : Reads s (checkRead s p n) := by
  intro e h
  unfold checkRead at h
  split at h
  · cases h
  · cases h; exact ⟨rfl, rfl⟩

theorem readElem_reads (s : State) (p : Addr) : Reads s (readElem s p) :=
  (checkRead_reads s p 4).bind fun _ _ => Reads.ok _

theorem readA_reads (s : State) (x : Nat) : Reads s (readA s x) := readElem_reads s _

theorem readB_reads (s : State) (x : Nat) : Reads s (readB s x) := readElem_reads s _

theorem loadV4_reads (s : State) (base : Addr) (x : Nat) : Reads s (loadV4 s base x) :=
  (checkRead_reads s _ 16).bind fun _ _ => Reads.ok _

theorem loadV8_reads (s : State) (base : Addr) (x : Nat) : Reads s (loadV8 s base x) :=
  (checkRead_reads s _ 32).bind fun _ _ => Reads.ok _

theorem bmax_reads (s : State) (t : Nat) : Reads s (bmax s t) := readB_reads s _

/-- A read of an element answers what memory holds there. -/
theorem readElem_ok {s : State} {p : Addr} {e : Elem} (h : readElem s p = .ok e) : e = Memory.elem s.mem p := by
  unfold readElem at h
  cases hc : checkRead s p 4 with
  | error e => rw [hc] at h; cases h
  | ok u => rw [hc] at h; cases h; rfl

/-- A read of an element succeeds where its four bytes are readable. -/
theorem readElem_eq {s : State} {p : Addr} (h : allBytes s.port.readable p 4 = true) :
    readElem s p = .ok (Memory.elem s.mem p) := by
  unfold readElem checkRead
  rw [if_pos h]; rfl

theorem loadV4_eq {s : State} {base : Addr} {x : Nat} (h : allBytes s.port.readable (eltAddr base x) 16 = true) :
    loadV4 s base x = .ok (memLanes4 s.mem base x) := by
  unfold loadV4 checkRead
  rw [if_pos h]; rfl

theorem loadV8_eq {s : State} {base : Addr} {x : Nat} (h : allBytes s.port.readable (eltAddr base x) 32 = true) :
    loadV8 s base x = .ok (ofLanes8 fun l => Memory.elem s.mem (eltAddr base (x + l))) := by
  unfold loadV8 checkRead
  rw [if_pos h]; rfl

/-! ### Stores -/

theorem elemBytes_length (es : List Elem) : (es.flatMap elemBytes).length = 4 * es.length := by
  induction es with
  | nil => rfl
  | cons e rest ih => rw [List.flatMap_cons, List.length_append, ih]; simp [elemBytes]; omega

/-- A byte outside the slots `[c, c + n)` of an output buffer lies outside the write of them. -/
theorem outSlot_offset {o p : Addr} {c n : Nat} (hc : 4 * (c + n) ≤ 2 ^ 64)
    (h : (p - o).toNat < 4 * c ∨ 4 * (c + n) ≤ (p - o).toNat) : n = 0 ∨ 4 * n ≤ (p - eltAddr o c).toNat := by
  have e : p - eltAddr o c = (p - o) - BitVec.ofNat 64 (4 * c) := by unfold eltAddr; ring
  have hl := (p - o).isLt
  rw [e, BitVec.toNat_sub, BitVec.toNat_ofNat]
  omega

/-- A store from the next output slot, not in count-only mode: it fills the slots it is given, or raises BUS_WRITE in the
state it is made in. -/
theorem storeElems_applies (s : State) (es : List Elem) (hco : s.work.co = false) :
    (∀ t, storeElems s (outSlot s) es = .ok t → Grows s (t.setWork { t.work with c := t.work.c + es.length })) ∧
      ∀ e, storeElems s (outSlot s) es = .error e → e.state = s ∧ e.fault = .busWrite := by
  unfold storeElems
  by_cases hok : allBytes s.port.writable (outSlot s) (4 * es.length) = true
  · rw [if_pos hok]
    refine ⟨fun t h => ?_, fun e h => (by cases h)⟩
    cases h
    refine ⟨rfl, rfl, rfl, rfl, rfl, rfl, le_rfl, Nat.le_add_right _ _, fun hc p hp => ?_, fun h => ?_, fun h => ?_⟩
    · simp only [State.setWork_work, State.setHost_work, State.setMem_work] at hc hp
      rcases outSlot_offset hc hp with h0 | h0
      · have : es = [] := List.length_eq_zero_iff.1 h0
        subst this; rfl
      · exact Memory.read_writeBytes_of_ge _ _ _ _ (by rw [elemBytes_length]; omega) (by rw [elemBytes_length]; exact h0)
    · exact Memory.wf_writeBytes _ _ h
    · rw [hco] at h; cases h
  · rw [if_neg hok]
    refine ⟨fun t h => (by cases h), fun e h => ?_⟩
    cases h; exact ⟨rfl, rfl⟩

theorem emitElems_applies (s : State) (es : List Elem) : Applies s (emitElems es s) := by
  unfold emitElems storeOut
  cases hco : s.work.co with
  | true =>
    exact Applies.ok (⟨rfl, rfl, rfl, rfl, rfl, rfl, le_rfl, Nat.le_add_right _ _, fun _ _ _ => rfl, id, fun _ => ⟨rfl, rfl⟩⟩)
  | false =>
    obtain ⟨hok, herr⟩ := storeElems_applies s es hco
    cases hx : storeElems s (outSlot s) es with
    | error e =>
      refine ⟨fun t h => (by cases h), fun e' h => ?_⟩
      cases h
      obtain ⟨h1, h2⟩ := herr e hx
      exact ⟨h1 ▸ Grows.refl _, .inr h2⟩
    | ok t => exact Applies.ok (hok t hx)

theorem emit_applies (s : State) (e : Elem) : Applies s (emit e s) := emitElems_applies s [e]

theorem compactStore4_applies (s : State) (X : V128) (m : BitVec 4) : Applies s (compactStore4 X m s) := by
  unfold compactStore4
  split
  · exact Applies.ok (Grows.refl s)
  · exact emitElems_applies s _

theorem compactStore8_applies (s : State) (Y : V256) (m : BitVec 8) : Applies s (compactStore8 Y m s) := by
  unfold compactStore8
  split
  · exact Applies.ok (Grows.refl s)
  · exact emitElems_applies s _

/-- Emitting advances the count by the number of elements and leaves every other working register, and the phase. -/
theorem emitElems_work {s t : State} {es : List Elem} (h : emitElems es s = .ok t) :
    t.work = { s.work with c := s.work.c + es.length } ∧ t.phase = s.phase := by
  unfold emitElems storeOut storeElems at h
  cases hco : s.work.co with
  | true => rw [hco] at h; cases h; exact ⟨rfl, rfl⟩
  | false =>
    rw [hco] at h
    by_cases hok : allBytes s.port.writable (outSlot s) (4 * es.length) = true
    · rw [if_pos hok] at h; cases h; exact ⟨rfl, rfl⟩
    · rw [if_neg hok] at h; cases h

theorem popcount_le {n : Nat} (m : BitVec n) : popcount m ≤ n := by
  have := List.length_filter_le (fun l => m.getLsbD l) (List.range n)
  simpa [popcount, setBits] using this

theorem compactStore4_work {s t : State} {X : V128} {m : BitVec 4} (h : compactStore4 X m s = .ok t) :
    t.work = { s.work with c := s.work.c + popcount m } ∧ t.phase = s.phase := by
  unfold compactStore4 at h
  split at h
  · rename_i h0; cases h; rw [h0]; exact ⟨rfl, rfl⟩
  · have := emitElems_work h
    have hl : ((lanes4 (pshufb X (readShuf4T s.regs.tblValid m))).take (popcount m)).length = popcount m := by
      have := popcount_le m
      simp [lanes4]; omega
    rwa [hl] at this

theorem compactStore8_work {s t : State} {Y : V256} {m : BitVec 8} (h : compactStore8 Y m s = .ok t) :
    t.work = { s.work with c := s.work.c + popcount m } ∧ t.phase = s.phase := by
  unfold compactStore8 at h
  split at h
  · rename_i h0; cases h; rw [h0]; exact ⟨rfl, rfl⟩
  · have := emitElems_work h
    have hl : ((lanes8 (permute8 Y (readPerm8T s.regs.tblValid m))).take (popcount m)).length = popcount m := by
      have := popcount_le m
      simp [lanes8, lanes4]; omega
    rwa [hl] at this

/-! ### Block advancement -/

/-- What Advance can do (R155): one side or both move by `W`, nothing else changes. -/
theorem advance_cases (W : Nat) (u v : Elem) (s : State) :
    (u = v ∧ advance W u v s = s.setWork { s.work with i := s.work.i + W, j := s.work.j + W }) ∨
      (u.toNat < v.toNat ∧ advance W u v s = s.setWork { s.work with i := s.work.i + W }) ∨
      (v.toNat < u.toNat ∧ advance W u v s = s.setWork { s.work with j := s.work.j + W }) := by
  unfold advance
  by_cases h : u = v
  · exact .inl ⟨h, by rw [if_pos h]⟩
  · by_cases hlt : u.toNat < v.toNat
    · exact .inr (.inl ⟨hlt, by rw [if_neg h, if_pos hlt]⟩)
    · refine .inr (.inr ⟨?_, by rw [if_neg h, if_neg hlt]⟩)
      have : u.toNat ≠ v.toNat := fun e => h (BitVec.eq_of_toNat_eq e)
      omega

theorem advance_grows (W : Nat) (u v : Elem) (s : State) : Grows s (advance W u v s) := by
  rcases advance_cases W u v s with ⟨_, h⟩ | ⟨_, h⟩ | ⟨_, h⟩ <;> rw [h] <;>
    exact Grows.of_work rfl rfl rfl rfl rfl (by simp) rfl

end Sys2Proof.Machine
end

