-- ==== Sys2Proof/Laws/Datapath.lean ====
section
/-! SUPPORT. The small lemmas of the datapath's definitions: masks bit by bit, vectors lane by lane and byte by byte,
the positions
of a mask's bits, the classification table's fields. -/

-- Elaborated one at a time: the package as one text would otherwise hold a thread and its stack for many theorems at once.
set_option Elab.async false

namespace Sys2Proof.Machine

theorem maskOf_getLsbD (n : Nat) (f : Nat → Bool) (l : Nat) (h : l < n) : (maskOf n f).getLsbD l = f l := by
  unfold maskOf
  rw [BitVec.getLsbD_ofFnLE]
  simp [h]

theorem eqMask4_getLsbD (X Y : V128) (l : Nat) (h : l < 4) : (eqMask4 X Y).getLsbD l = (lane4 X l == lane4 Y l) :=
  maskOf_getLsbD _ _ _ h

theorem eqMask8_getLsbD (X Y : V256) (l : Nat) (h : l < 8) : (eqMask8 X Y).getLsbD l = (lane8 X l == lane8 Y l) :=
  maskOf_getLsbD _ _ _ h

theorem lane4_ofLanes4 (f : Nat → Elem) (l : Nat) (h : l < 4) : lane4 (ofLanes4 f) l = f l := by
  unfold lane4 ofLanes4
  interval_cases l <;> rfl

theorem lane8_ofLanes8 (f : Nat → Elem) (l : Nat) (h : l < 8) : lane8 (ofLanes8 f) l = f l := by
  unfold lane8 ofLanes8
  split
  · exact lane4_ofLanes4 _ _ (by omega)
  · rw [lane4_ofLanes4 _ _ (by omega)]; congr 1; omega

theorem V128.ext_lanes {X Y : V128} (h : ∀ l, l < 4 → lane4 X l = lane4 Y l) : X = Y := by
  obtain ⟨a, b, c, d⟩ := X
  obtain ⟨a', b', c', d'⟩ := Y
  have h0 := h 0 (by omega); have h1 := h 1 (by omega); have h2 := h 2 (by omega); have h3 := h 3 (by omega)
  simp only [lane4] at h0 h1 h2 h3
  rw [h0, h1, h2, h3]

theorem elemOfBytes_byteOf (e : Elem) : elemOfBytes (byteOf e 0) (byteOf e 1) (byteOf e 2) (byteOf e 3) = e := by
  unfold elemOfBytes byteOf
  apply BitVec.eq_of_getLsbD_eq
  intro i hi
  simp only [BitVec.getLsbD_append, BitVec.getLsbD_extractLsb']
  have : i < 32 := hi
  interval_cases i <;> rfl

theorem byteOf_elemOfBytes (g : Nat → Byte) (t : Nat) (ht : t < 4) :
    byteOf (elemOfBytes (g 0) (g 1) (g 2) (g 3)) t = g t := by
  unfold elemOfBytes byteOf
  apply BitVec.eq_of_getLsbD_eq
  intro i hi
  rw [BitVec.getLsbD_extractLsb']
  simp only [BitVec.getLsbD_append, hi, decide_true, Bool.true_and]
  interval_cases t <;> interval_cases i <;> rfl

theorem byteOf_ext {e f : Elem} (h : ∀ t, t < 4 → byteOf e t = byteOf f t) : e = f := by
  rw [← elemOfBytes_byteOf e, ← elemOfBytes_byteOf f, h 0 (by omega), h 1 (by omega), h 2 (by omega), h 3 (by omega)]

theorem byte16_ofBytes16 (f : Nat → Byte) (k : Nat) (hk : k < 16) : byte16 (ofBytes16 f) k = f k := by
  unfold byte16 ofBytes16
  rw [lane4_ofLanes4 _ _ (by omega)]
  have := byteOf_elemOfBytes (fun t => f (4 * (k / 4) + t)) (k % 4) (by omega)
  rw [show 4 * (k / 4) + k % 4 = k by omega] at this
  exact this

/-- R148, byte by byte. -/
theorem pshufb_byte (X : V128) (P : Pattern) (k : Nat) (hk : k < 16) :
    byte16 (pshufb X P) k = if (P k).getLsbD 7 then 0 else byte16 X ((P k).toNat % 16) := byte16_ofBytes16 _ _ hk

theorem byteOf_lane4 (X : V128) (l t : Nat) (ht : t < 4) : byteOf (lane4 X l) t = byte16 X (4 * l + t) := by
  unfold byte16; rw [show (4 * l + t) / 4 = l by omega, show (4 * l + t) % 4 = t by omega]

theorem getLsbD7_ofNat {n : Nat} (h : n < 128) : (BitVec.ofNat 8 n).getLsbD 7 = false := by
  rw [BitVec.getLsbD_ofNat]
  simp [Nat.testBit_lt_two_pow (show n < 2 ^ 7 by omega)]

/-- A pattern that names a lane's four bytes puts that lane there. -/
theorem pshufb_lane (X : V128) (P : Pattern) (l u : Nat) (hl : l < 4) (hu : u < 4)
    (h : ∀ t, t < 4 → P (4 * l + t) = BitVec.ofNat 8 (4 * u + t)) : lane4 (pshufb X P) l = lane4 X u := by
  refine byteOf_ext fun t ht => ?_
  rw [byteOf_lane4 _ _ _ ht, byteOf_lane4 _ _ _ ht, pshufb_byte _ _ _ (by omega), h t ht, getLsbD7_ofNat (by omega)]
  simp only [Bool.false_eq_true, if_false]
  congr 1
  rw [BitVec.toNat_ofNat]; omega

theorem setBits_getLsbD {n : Nat} (m : BitVec n) (l : Nat) : l ∈ setBits m ↔ l < n ∧ m.getLsbD l = true := by
  unfold setBits; rw [List.mem_filter, List.mem_range]

theorem setBits_sorted {n : Nat} (m : BitVec n) : (setBits m).Pairwise (· < ·) :=
  List.Pairwise.sublist List.filter_sublist List.pairwise_lt_range

theorem setBits_getD_lt {n : Nat} (m : BitVec n) (l : Nat) (h : l < popcount m) : (setBits m).getD l 0 < n := by
  rw [List.getD_eq_getElem _ _ h]
  exact ((setBits_getLsbD m _).1 (List.getElem_mem h)).1

theorem lanes4_getElem (X : V128) (l : Nat) (h : l < (lanes4 X).length) : (lanes4 X)[l] = lane4 X l := by
  have : l < 4 := h
  interval_cases l <;> rfl

theorem lanes8_getElem (Y : V256) (l : Nat) (h : l < (lanes8 Y).length) : (lanes8 Y)[l] = lane8 Y l := by
  have : l < 8 := h
  interval_cases l <;> rfl

theorem nctCode_getLsbD (x : BitVec 16) (i u : Nat) (hu : u < 4) : (nctCode x i).getLsbD u = x.getLsbD (4 * i + u) := by
  unfold nctCode; rw [BitVec.getLsbD_extractLsb']; simp [hu]

theorem nctLane_lt (x : BitVec 16) (i : Nat) (hi : i < 4) : nctLane x i < 4 := by
  unfold nctLane
  cases h : setBits (nctCode x i) with
  | nil => simpa using hi
  | cons u us => simp; exact ((setBits_getLsbD _ u).1 (by rw [h]; simp)).1

theorem nct_single {x : BitVec 16} {P : BitVec 8} (h : nct x = .single P) :
    (∀ i, i < 4 → popcount (nctCode x i) < 2) ∧ x ≠ 0 ∧
      P = BitVec.ofNat 8 (nctLane x 0 + 4 * nctLane x 1 + 16 * nctLane x 2 + 64 * nctLane x 3) := by
  unfold nct at h
  split at h
  · cases h
  · rename_i h1
    split at h
    · cases h
    · rename_i h2
      cases h
      refine ⟨fun i hi => ?_, h2, rfl⟩
      by_contra hc
      exact h1 (List.any_eq_true.2 ⟨i, List.mem_range.2 hi, decide_eq_true (by omega)⟩)

theorem mask4_ext {m n : BitVec 4} (h : ∀ l, l < 4 → (m.getLsbD l = true ↔ n.getLsbD l = true)) : m = n :=
  BitVec.eq_of_getLsbD_eq fun l hl => Bool.eq_iff_iff.2 (h l hl)

end Sys2Proof.Machine
end

