-- ==== Sys2Proof/Laws/Access.lean ====
section
/-! SUPPORT. The engine's accesses in terms of regions and sets: a region byte by byte, effective addresses that do
not wrap, what a
store leaves to be read back, what emitting elements does. -/

-- Elaborated one at a time: the package as one text would otherwise hold a thread and its stack for many theorems at once.
set_option Elab.async false

namespace Sys2Proof.Machine

theorem Region.has_iff {g : Region} {p : Addr} (hg : g.base.toNat + g.size ≤ 2 ^ 64) :
    g.has p = true ↔ g.base.toNat ≤ p.toNat ∧ p.toNat < g.base.toNat + g.size := by
  unfold Region.has
  rw [decide_eq_true_iff, BitVec.toNat_sub]
  have := p.isLt; have := g.base.isLt
  omega

/-- `Region.without` takes out that byte and no other. -/
theorem Region.any_without (g : Region) (p a : Addr) :
    ((g.without p).any fun k => k.has a) = (g.has a && a != p) := by
  have ha := (a - g.base).isLt
  have hp := (p - g.base).isLt
  have e1 : a = p ↔ (a - g.base).toNat = (p - g.base).toNat :=
    ⟨fun h => by rw [h], fun h => sub_left_inj.1 (BitVec.eq_of_toNat_eq h)⟩
  unfold Region.without
  split
  · rename_i h
    have e2 : a - (p + 1) = (a - g.base) - (p - g.base) - 1 := by ring
    have e3 : (a - (p + 1)).toNat = ((a - g.base).toNat + (2 ^ 64 - (p - g.base).toNat) + (2 ^ 64 - 1)) % 2 ^ 64 := by
      rw [e2, BitVec.toNat_sub, BitVec.toNat_sub, show (1 : BitVec 64).toNat = 1 from rfl]
      omega
    unfold Region.has at h
    rw [decide_eq_true_iff] at h
    rw [Bool.eq_iff_iff]
    simp only [Region.has, List.any_cons, List.any_nil, Bool.or_false, Bool.or_eq_true, Bool.and_eq_true,
      decide_eq_true_iff, bne_iff_ne, ne_eq, e1, e3]
    omega
  · rename_i h
    have hb : ∀ b : Bool, (b = true → a ≠ p) → b = (b && a != p) := fun b hb => by cases b <;> simp_all
    simp only [List.any_cons, List.any_nil, Bool.or_false]
    exact hb _ fun hc e => h (e ▸ hc)

/-- The bytes still to be observed after a host write: all but the byte written. -/
theorem unseen_without (u : List Region) (p a : Addr) :
    ((u.flatMap (Region.without p)).any fun k => k.has a) = ((u.any fun k => k.has a) && a != p) := by
  induction u with
  | nil => rfl
  | cons g u ih =>
    rw [List.flatMap_cons, List.any_append, ih, Region.any_without, List.any_cons, Bool.and_or_distrib_right]

theorem overlap_false {p lp q lq : Nat} (h : overlap p lp q lq = false) : lp = 0 ∨ lq = 0 ∨ q + lq ≤ p ∨ p + lp ≤ q := by
  unfold overlap at h
  rw [decide_eq_false_iff_not] at h
  omega

theorem profile_facts {i : Instr} {q : Profile} (h : profileOf i = some q) :
    (q.align = 4 ∨ q.align = 16 ∨ q.align = 32) ∧ (q.width = 1 ∨ q.width = 4 ∨ q.width = 8) := by
  cases i <;> cases h <;> decide

theorem padTo_bounds {W : Nat} (hW : W = 1 ∨ W = 4 ∨ W = 8) {n : Nat} (hn : n < 2 ^ 32) : n ≤ padTo W n ∧
    padTo W n ≤ 2 ^ 32 ∧ padTo W n < n + W := by
  unfold padTo
  rcases hW with rfl | rfl | rfl <;> omega

theorem eltAddr_toNat {base : Addr} {x : Nat} (h : base.toNat + 4 * x < 2 ^ 64) :
    (eltAddr base x).toNat = base.toNat + 4 * x := by
  unfold eltAddr
  rw [BitVec.toNat_add, BitVec.toNat_ofNat]
  omega

theorem allBytes_iff (ok : Addr → Bool) (p : Addr) (n : Nat) : allBytes ok p n = true ↔ ∀ t, t < n →
    ok (p + BitVec.ofNat 64 t) = true := by
  unfold allBytes; rw [List.all_eq_true]; simp

theorem allBytes_false (ok : Addr → Bool) (p : Addr) (n : Nat) : allBytes ok p n = false ↔ ∃ t, t < n ∧
    ok (p + BitVec.ofNat 64 t) = false := by
  rw [← Bool.not_eq_true, allBytes_iff]; simp

theorem elemBytes_flat_getD (es : List Elem) (k : Nat) (h : k < 4 * es.length) :
    (es.flatMap elemBytes).getD k 0 = byteOf (es.getD (k / 4) 0) (k % 4) := by
  induction es generalizing k with
  | nil => simp at h
  | cons e rest ih =>
    rw [List.flatMap_cons]
    by_cases hk : k < 4
    · rw [List.getD_append _ _ _ _ (by exact hk)]
      interval_cases k <;> rfl
    · rw [List.getD_append_right _ _ _ _ (by exact not_lt.1 hk)]
      have hl : (elemBytes e).length = 4 := rfl
      rw [hl, ih (k - 4) (by simp at h; omega)]
      have : k / 4 = (k - 4) / 4 + 1 := by omega
      rw [this, List.getD_cons_succ]
      congr 1; omega

theorem eltAddr_add (base : Addr) (x y : Nat) : eltAddr (eltAddr base x) y = eltAddr base (x + y) := by
  unfold eltAddr
  rw [add_assoc, ← BitVec.ofNat_add]; congr 2; omega

/-- Reading an element's bytes (R61). -/
theorem elem_eq (M : Memory) (p : Addr) :
    Memory.elem M p = elemOfBytes (Memory.read M (p + BitVec.ofNat 64 0).toNat)
    (Memory.read M (p + BitVec.ofNat 64 1).toNat)
   (Memory.read M (p + BitVec.ofNat 64 2).toNat) (Memory.read M (p + BitVec.ofNat 64 3).toNat) := by
  unfold Memory.elem; simp

/-- The elements of a store are read back. -/
theorem setOf_writeBytes (M : Memory) (p : Addr) (es : List Elem) (h : 4 * es.length ≤ 2 ^ 64) :
    setOf (Memory.writeBytes M p (es.flatMap elemBytes)) p es.length = es := by
  unfold setOf
  apply List.ext_getElem
  · simp
  · intro x h1 h2
    rw [List.getElem_map, List.getElem_range, elem_eq]
    have hx : x < es.length := h2
    have byte : ∀ t, t < 4 → Memory.read (Memory.writeBytes M p (es.flatMap elemBytes))
        (eltAddr p x + BitVec.ofNat 64 t).toNat = byteOf es[x] t := by
      intro t ht
      have e : eltAddr p x + BitVec.ofNat 64 t - p = BitVec.ofNat 64 (4 * x + t) := by
        unfold eltAddr; rw [BitVec.ofNat_add]; ring
      have e2 : (eltAddr p x + BitVec.ofNat 64 t - p).toNat = 4 * x + t := by
        rw [e, BitVec.toNat_ofNat]; omega
      rw [Memory.read_writeBytes _ _ _ _ (by rw [elemBytes_length]; omega), e2, elemBytes_length, if_pos (by omega),
        elemBytes_flat_getD _ _ (by omega), show (4 * x + t) / 4 = x by omega, show (4 * x + t) % 4 = t by omega,
            List.getD_eq_getElem _ _ hx]
    rw [byte 0 (by omega), byte 1 (by omega), byte 2 (by omega), byte 3 (by omega), elemOfBytes_byteOf]

theorem storeElems_spec (s : State) (p : Addr) (es : List Elem) (hl : 4 * es.length ≤ 2 ^ 64) :
    (allBytes s.port.writable p (4 * es.length) = true →
      ∃ t, storeElems s p es = .ok t ∧ setOf t.mem p es.length = es ∧ t.regs = s.regs ∧ t.work = s.work ∧
          t.phase = s.phase ∧ t.port = s.port ∧
        ∀ a : Addr, 4 * es.length ≤ (a - p).toNat → Memory.read t.mem a.toNat = Memory.read s.mem a.toNat) ∧
    (allBytes s.port.writable p (4 * es.length) = false → storeElems s p es = .error ⟨.busWrite, p, s⟩) := by
  unfold storeElems
  refine ⟨fun h => ?_, fun h => by rw [h]; rfl⟩
  rw [if_pos h]
  refine ⟨_, rfl, setOf_writeBytes _ _ _ hl, rfl, rfl, rfl, rfl, fun a ha => ?_⟩
  exact Memory.read_writeBytes_of_ge _ _ _ _ (by rw [elemBytes_length]; omega) (by rw [elemBytes_length]; exact ha)

theorem onRegion_iff {g : Region} {ok : Addr → Bool} (hg : g.size ≤ 2 ^ 64) : OnRegion g ok ↔
    allBytes ok g.base g.size = true := by
  rw [allBytes_iff]
  constructor
  · intro h t ht
    refine h _ ?_
    unfold Region.has
    rw [show g.base + BitVec.ofNat 64 t - g.base = BitVec.ofNat 64 t by ring, BitVec.toNat_ofNat, decide_eq_true_iff]
    omega
  · intro h p hp
    unfold Region.has at hp
    rw [decide_eq_true_iff] at hp
    have := h (p - g.base).toNat hp
    rwa [BitVec.ofNat_toNat, BitVec.setWidth_eq, show g.base + (p - g.base) = p by ring] at this

/-- What emitting elements does (R122, R152, R153). -/
theorem emitElems_spec (s : State) (es : List Elem) (hl : 4 * es.length ≤ 2 ^ 64) :
    (s.work.co = true → emitElems es s = .ok (s.setWork { s.work with c := s.work.c + es.length })) ∧
    (s.work.co = false → allBytes s.port.writable (outSlot s) (4 * es.length) = true →
      ∃ t, emitElems es s = .ok t ∧ setOf t.mem (outSlot s) es.length = es ∧
        t.work = { s.work with c := s.work.c + es.length } ∧ t.regs = s.regs ∧ t.phase = s.phase ∧ t.port = s.port ∧
        ∀ a : Addr, 4 * es.length ≤ (a - outSlot s).toNat → Memory.read t.mem a.toNat = Memory.read s.mem a.toNat) ∧
    (s.work.co = false → allBytes s.port.writable (outSlot s) (4 * es.length) = false →
      emitElems es s = .error ⟨.busWrite, outSlot s, s⟩) := by
  unfold emitElems storeOut
  refine ⟨fun h => ?_, fun h hw => ?_, fun h hw => ?_⟩
  · rw [if_pos h]; rfl
  · rw [if_neg (by simp [h])]
    obtain ⟨t, e, h1, h2, h3, h4, h5, h6⟩ := (storeElems_spec s (outSlot s) es hl).1 hw
    rw [e]
    exact ⟨_, rfl, h1, by simp [h3], h2, h4, h5, h6⟩
  · rw [if_neg (by simp [h]), (storeElems_spec s (outSlot s) es hl).2 hw]; rfl

end Sys2Proof.Machine
end

