-- ==== Sys2Proof/Laws/Iterations.lean ====
section
/-! SUPPORT. What one iteration of each loop can do: every body only grows the state or raises a bus fault (`Applies`), and
where its cursors and count go. -/

-- Elaborated one at a time: the package as one text would otherwise hold a thread and its stack for many theorems at once.
set_option Elab.async false

namespace Sys2Proof.Machine

/-! ### Scalar merge -/

theorem mergeBody_applies (s : State) : Applies s (mergeBody s) := by
  unfold mergeBody
  refine Applies.after_read (Grows.refl s) (readA_reads s _) fun ea _ => ?_
  refine Applies.after_read (Grows.refl s) (readB_reads s _) fun eb _ => ?_
  split
  · exact (emit_applies s ea).bind fun t _ => Applies.ok (Grows.of_work rfl rfl rfl rfl rfl (by simp) rfl)
  · split <;> exact Applies.ok (Grows.of_work rfl rfl rfl rfl rfl (by simp) rfl)

/-- Where an iteration of the merge loop goes (R192): on equality both cursors and the count move, else one cursor. -/
theorem mergeBody_ok {s t : State} (h : mergeBody s = .ok t) :
    t.phase = s.phase ∧
      (t.work = { s.work with c := s.work.c + 1, i := s.work.i + 1, j := s.work.j + 1 } ∨
        t.work = { s.work with i := s.work.i + 1 } ∨ t.work = { s.work with j := s.work.j + 1 }) := by
  unfold mergeBody at h
  cases ha : readA s s.work.i with
  | error e => rw [ha] at h; cases h
  | ok ea =>
    cases hb : readB s s.work.j with
    | error e => rw [ha, hb] at h; cases h
    | ok eb =>
      rw [ha, hb] at h
      simp only [bind, Except.bind] at h
      split at h
      · cases hx : emit ea s with
        | error e => rw [hx] at h; cases h
        | ok u =>
          rw [hx] at h; cases h
          obtain ⟨hw, hp⟩ := emitElems_work hx
          exact ⟨hp, .inl (by simp [hw])⟩
      · split at h <;> cases h
        · exact ⟨rfl, .inr (.inl rfl)⟩
        · exact ⟨rfl, .inr (.inr rfl)⟩

/-! ### Galloping -/

theorem doubling_reads (s : State) (k : Nat) (a : Elem) (fuel r : Nat) : Reads s (doubling s k a fuel r) := by
  induction fuel generalizing r with
  | zero => exact Reads.ok r
  | succ n ih =>
    unfold doubling
    split
    · refine (bmax_reads s _).bind fun e _ => ?_
      split
      · exact ih _
      · exact Reads.ok r
    · exact Reads.ok r

theorem bisect_reads (s : State) (k : Nat) (a : Elem) (fuel lower upper mid : Nat) :
    Reads s (bisect s k a fuel lower upper mid) := by
  induction fuel generalizing lower upper mid with
  | zero => exact Reads.ok _
  | succ n ih =>
    unfold bisect
    split
    · refine (bmax_reads s _).bind fun e _ => ?_
      split
      · exact ih _ _ _
      · exact ih _ _ _
    · exact Reads.ok _

/-- The step size the doubling loop stops at (R202): the initial one, or one whose half is still a block of B. -/
theorem doubling_half {s : State} {k : Nat} {a : Elem} {fuel r0 r : Nat} (h : doubling s k a fuel r0 = .ok r) :
    r = r0 ∨ k + r / 2 < nblk s := by
  induction fuel generalizing r0 with
  | zero => cases h; exact .inl rfl
  | succ n ih =>
    unfold doubling at h
    split at h
    · rename_i hk
      cases hb : bmax s (k + r0) with
      | error e => rw [hb] at h; cases h
      | ok e =>
        rw [hb] at h
        simp only [bind, Except.bind] at h
        split at h
        · rcases ih h with rfl | h'
          · right
            have : 2 * r0 / 2 = r0 := by omega
            rwa [this]
          · exact .inr h'
        · cases h; exact .inl rfl
    · cases h; exact .inl rfl

/-- The binary search stays within its bounds (R202). -/
theorem bisect_bounds {s : State} {k : Nat} {a : Elem} {fuel lower upper mid : Nat} {p : Nat × Nat × Nat}
    (h : bisect s k a fuel lower upper mid = .ok p) (hle : lower ≤ upper) :
    lower ≤ p.1 ∧ p.1 ≤ p.2.1 ∧ p.2.1 ≤ upper := by
  induction fuel generalizing lower upper mid with
  | zero => cases h; exact ⟨le_rfl, hle, le_rfl⟩
  | succ n ih =>
    unfold bisect at h
    split at h
    · rename_i hlt
      dsimp only at h
      cases hb : bmax s (k + (lower + upper) / 2) with
      | error e => rw [hb] at h; cases h
      | ok e =>
        rw [hb] at h
        simp only [bind, Except.bind] at h
        split at h
        · have := ih h (by omega); omega
        · have := ih h (by omega); omega
    · cases h; exact ⟨le_rfl, hle, le_rfl⟩

theorem emitOnMatch_applies (a : Elem) (m : BitVec 4) (s : State) : Applies s (emitOnMatch a m s) := by
  unfold emitOnMatch
  split
  · exact emit_applies s a
  · exact Applies.ok (Grows.refl s)

theorem emitOnMatch_work {a : Elem} {m : BitVec 4} {s t : State} (h : emitOnMatch a m s = .ok t) :
    t.work = { s.work with c := s.work.c + if m ≠ 0 then 1 else 0 } ∧ t.phase = s.phase := by
  unfold emitOnMatch at h
  split at h
  · rename_i hm; rw [if_pos hm]; exact emitElems_work h
  · rename_i hm; cases h; rw [if_neg hm]; exact ⟨rfl, rfl⟩

theorem probe_applies (a : Elem) (s : State) : Applies s (probe a s) := by
  unfold probe
  refine Applies.after_read (Grows.refl s) (loadV4_reads s _ _) fun vb _ => ?_
  refine Applies.bind (Applies.trans ?_ (emitOnMatch_applies _ _ _)) fun t _ =>
    Applies.ok (Grows.of_work rfl rfl rfl rfl rfl (by simp) rfl)
  exact Grows.of_work rfl rfl rfl rfl rfl le_rfl rfl

/-- The probe moves the cursor of A by one and counts at most one element (R203). -/
theorem probe_ok {a : Elem} {s t : State} (h : probe a s = .ok t) :
    t.phase = s.phase ∧ t.work.i = s.work.i + 1 ∧ t.work.j = s.work.j ∧ t.work.k = s.work.k ∧
      s.work.c ≤ t.work.c ∧ t.work.c ≤ s.work.c + 1 := by
  unfold probe at h
  simp only [bind, Except.bind] at h
  split at h
  · cases h
  · split at h
    · cases h
    · rename_i u hu
      cases h
      obtain ⟨hw, hp⟩ := emitOnMatch_work hu
      refine ⟨hp, by simp [hw], by simp [hw], by simp [hw], by simp [hw], ?_⟩
      simp only [hw, State.setWork_work]
      split <;> omega

theorem gallopBody_applies (s : State) : Applies s (gallopBody s) := by
  unfold gallopBody
  refine Applies.after_read (Grows.refl s) (readA_reads s _) fun a _ => ?_
  refine Applies.after_read (Grows.refl s) (doubling_reads s _ _ _ _) fun r _ => ?_
  refine Applies.after_read (Grows.refl s) (bmax_reads s _) fun last _ => ?_
  split
  · exact Applies.ok (Grows.of_work rfl rfl rfl rfl rfl le_rfl rfl)
  · refine Applies.after_read (Grows.refl s) (bisect_reads s _ _ _ _ _ _) fun found _ => ?_
    refine Applies.trans ?_ (probe_applies a _)
    exact Grows.of_work rfl rfl rfl rfl rfl le_rfl rfl

/-- Where an iteration of GALLOP goes: to the tail at the block found last (the break), or on to the next element of A at a
block not before the last one and still a block of B. -/
theorem gallopBody_ok {s t : State} (h : gallopBody s = .ok t) :
    (t.phase = .tail ∧ t.work.i = s.work.i ∧ t.work.j = 4 * s.work.k ∧ t.work.k = s.work.k ∧ t.work.c = s.work.c) ∨
      (t.phase = s.phase ∧ t.work.i = s.work.i + 1 ∧ t.work.j = 4 * t.work.k ∧ s.work.k ≤ t.work.k ∧
        (s.work.k < nblk s → t.work.k < nblk s) ∧ s.work.c ≤ t.work.c ∧ t.work.c ≤ s.work.c + 1) := by
  unfold gallopBody at h
  cases ha : readA s s.work.i with
  | error e => rw [ha] at h; cases h
  | ok a =>
    rw [ha] at h
    simp only [bind, Except.bind] at h
    cases hr : doubling s s.work.k a searchFuel 1 with
    | error e => rw [hr] at h; cases h
    | ok r =>
      rw [hr] at h
      simp only at h
      generalize hup : (if s.work.k + r < nblk s then r else nblk s - 1 - s.work.k) = upper at h
      cases hl : bmax s (s.work.k + upper) with
      | error e => rw [hl] at h; cases h
      | ok last =>
        rw [hl] at h
        simp only at h
        split at h
        · cases h; exact .inl ⟨rfl, rfl, rfl, rfl, rfl⟩
        · cases hf : bisect s s.work.k a searchFuel (r / 2) upper s.work.mid with
          | error e => rw [hf] at h; cases h
          | ok found =>
            rw [hf] at h
            simp only at h
            obtain ⟨h1, h2, h3, h4, h5, h6⟩ := probe_ok h
            simp only [State.setWork_work, State.setWork_phase] at h1 h2 h3 h4 h5 h6
            refine .inr ⟨h1, h2, by rw [h3, h4], by rw [h4]; omega, fun hk => ?_, h5, h6⟩
            have hle : r / 2 ≤ upper := by
              rcases doubling_half hr with rfl | h'
              · omega
              · rw [← hup]; split <;> omega
            have hb := bisect_bounds hf hle
            have : upper ≤ nblk s - 1 - s.work.k := by rw [← hup]; split <;> omega
            rw [h4]; omega

/-! ### Block kernels -/

/-- Where an iteration of a block kernel of width `W` goes: one side or both move by `W`, at most `W` elements are counted. -/
structure BlockMove (W : Nat) (s t : State) : Prop where
  phase : t.phase = s.phase
  count : s.work.c ≤ t.work.c ∧ t.work.c ≤ s.work.c + W
  cursors : (t.work.i = s.work.i + W ∧ t.work.j = s.work.j + W) ∨ (t.work.i = s.work.i + W ∧ t.work.j = s.work.j) ∨
    (t.work.i = s.work.i ∧ t.work.j = s.work.j + W)

theorem advance_blockMove {W : Nat} {u v : Elem} {s t : State} (hp : t.phase = s.phase) (hi : t.work.i = s.work.i)
    (hj : t.work.j = s.work.j) (hc : s.work.c ≤ t.work.c ∧ t.work.c ≤ s.work.c + W) :
    BlockMove W s (advance W u v t) := by
  rcases advance_cases W u v t with ⟨_, h⟩ | ⟨_, h⟩ | ⟨_, h⟩ <;> rw [h] <;>
    exact ⟨hp, hc, by simp [hi, hj]⟩

theorem filterBlocks_applies (s : State) : Applies s (filterBlocks s) := by
  unfold filterBlocks
  refine Applies.bind (Applies.trans ?_ (compactStore4_applies _ _ _)) fun t _ => Applies.ok (advance_grows 4 _ _ t)
  exact Grows.of_work rfl rfl rfl rfl rfl le_rfl rfl

theorem filterBlocks_ok {s t : State} (h : filterBlocks s = .ok t) : BlockMove 4 s t := by
  unfold filterBlocks at h
  simp only [bind, Except.bind] at h
  split at h
  · cases h
  · rename_i u hu
    cases h
    obtain ⟨hw, hp⟩ := compactStore4_work hu
    have := popcount_le (qfMatch s.regs.tblValid s.work.va s.work.vb)
    exact advance_blockMove hp (by rw [hw]; rfl) (by rw [hw]; rfl) (by rw [hw]; simp; omega)

theorem bodyQfB4_applies (s : State) : Applies s (bodyQfB4 s) := by
  unfold bodyQfB4
  refine Applies.after_read (Grows.refl s) (loadV4_reads s _ _) fun va _ => ?_
  refine Applies.after_read (Grows.refl s) (loadV4_reads s _ _) fun vb _ => ?_
  refine Applies.trans ?_ (filterBlocks_applies _)
  exact Grows.of_work rfl rfl rfl rfl rfl le_rfl rfl

theorem bodyQfB4_ok {s t : State} (h : bodyQfB4 s = .ok t) : BlockMove 4 s t := by
  unfold bodyQfB4 at h
  simp only [bind, Except.bind] at h
  split at h
  · cases h
  · split at h
    · cases h
    · have := filterBlocks_ok h
      exact ⟨this.phase, this.count, this.cursors⟩

/-- A reload of QF_V2 answers a state that differs in its vector register alone. -/
theorem reloadA_ok {s t : State} (h : reloadA s = .ok t) : ∃ va, t = s.setWork { s.work with va := va } := by
  unfold reloadA at h
  split at h
  · simp only [bind, Except.bind] at h
    split at h
    · cases h
    · cases h; exact ⟨_, rfl⟩
  · cases h; exact ⟨s.work.va, rfl⟩

theorem reloadB_ok {s t : State} (h : reloadB s = .ok t) : ∃ vb, t = s.setWork { s.work with vb := vb } := by
  unfold reloadB at h
  split at h
  · simp only [bind, Except.bind] at h
    split at h
    · cases h
    · cases h; exact ⟨_, rfl⟩
  · cases h; exact ⟨s.work.vb, rfl⟩

theorem reloadA_applies (s : State) : Applies s (reloadA s) := by
  unfold reloadA
  split
  · exact Applies.after_read (Grows.refl s) (loadV4_reads s _ _) fun va _ =>
      Applies.ok (Grows.of_work rfl rfl rfl rfl rfl le_rfl rfl)
  · exact Applies.ok (Grows.refl s)

theorem reloadB_applies (s : State) : Applies s (reloadB s) := by
  unfold reloadB
  split
  · exact Applies.after_read (Grows.refl s) (loadV4_reads s _ _) fun vb _ =>
      Applies.ok (Grows.of_work rfl rfl rfl rfl rfl le_rfl rfl)
  · exact Applies.ok (Grows.refl s)

theorem enterQfV2_applies (s : State) : Applies s (enterQfV2 s) := by
  unfold enterQfV2
  refine Applies.bind (Applies.trans ?_ (reloadA_applies _)) fun t _ => reloadB_applies t
  exact Grows.of_work rfl rfl rfl rfl rfl le_rfl rfl

theorem reloadMovedA_applies (s t : State) : Applies t (reloadMovedA s t) := by
  unfold reloadMovedA
  split
  · exact reloadA_applies t
  · exact Applies.ok (Grows.refl t)

theorem reloadMovedB_applies (s t : State) : Applies t (reloadMovedB s t) := by
  unfold reloadMovedB
  split
  · exact reloadB_applies t
  · exact Applies.ok (Grows.refl t)

theorem reloadMovedA_ok {s t u : State} (h : reloadMovedA s t = .ok u) :
    ∃ va, u = t.setWork { t.work with va := va } := by
  unfold reloadMovedA at h
  split at h
  · exact reloadA_ok h
  · cases h; exact ⟨t.work.va, rfl⟩

theorem reloadMovedB_ok {s t u : State} (h : reloadMovedB s t = .ok u) :
    ∃ vb, u = t.setWork { t.work with vb := vb } := by
  unfold reloadMovedB at h
  split at h
  · exact reloadB_ok h
  · cases h; exact ⟨t.work.vb, rfl⟩

theorem bodyQfV2_applies (s : State) : Applies s (bodyQfV2 s) := by
  unfold bodyQfV2
  refine (filterBlocks_applies s).bind fun t _ => ?_
  exact (reloadMovedA_applies s t).bind fun u _ => reloadMovedB_applies s u

theorem bodyQfV2_ok {s t : State} (h : bodyQfV2 s = .ok t) : BlockMove 4 s t := by
  unfold bodyQfV2 at h
  simp only [bind, Except.bind] at h
  split at h
  · cases h
  · rename_i t1 h1
    have m := filterBlocks_ok h1
    split at h
    · cases h
    · rename_i t2 h2
      obtain ⟨va, rfl⟩ := reloadMovedA_ok h2
      obtain ⟨vb, rfl⟩ := reloadMovedB_ok h
      exact ⟨m.phase, m.count, m.cursors⟩

theorem bodyShuf4_applies (s : State) : Applies s (bodyShuf4 s) := by
  unfold bodyShuf4
  refine Applies.after_read (Grows.refl s) (loadV4_reads s _ _) fun va _ => ?_
  refine Applies.after_read (Grows.refl s) (loadV4_reads s _ _) fun vb _ => ?_
  refine Applies.bind (Applies.trans ?_ (compactStore4_applies _ _ _)) fun t _ => Applies.ok (advance_grows 4 _ _ t)
  exact Grows.of_work rfl rfl rfl rfl rfl le_rfl rfl

theorem bodyShuf4_ok {s t : State} (h : bodyShuf4 s = .ok t) : BlockMove 4 s t := by
  unfold bodyShuf4 at h
  simp only [bind, Except.bind] at h
  split at h
  · cases h
  · split at h
    · cases h
    · split at h
      · cases h
      · rename_i _ va _ _ vb _ _ u hu
        cases h
        obtain ⟨hw, hp⟩ := compactStore4_work hu
        have := popcount_le (rotMatch4 va vb)
        exact advance_blockMove hp (by rw [hw]; rfl) (by rw [hw]; rfl) (by rw [hw]; simp; omega)

theorem bodyShuf8_applies (s : State) : Applies s (bodyShuf8 s) := by
  unfold bodyShuf8
  refine Applies.after_read (Grows.refl s) (loadV4_reads s _ _) fun va0 _ => ?_
  refine Applies.after_read (Grows.refl s) (loadV4_reads s _ _) fun va1 _ => ?_
  refine Applies.after_read (Grows.refl s) (loadV4_reads s _ _) fun vb0 _ => ?_
  refine Applies.after_read (Grows.refl s) (loadV4_reads s _ _) fun vb1 _ => ?_
  refine Applies.bind (Applies.trans ?_ (compactStore4_applies _ _ _)) fun t _ =>
    (compactStore4_applies _ _ _).bind fun u _ => Applies.ok (advance_grows 8 _ _ u)
  exact Grows.of_work rfl rfl rfl rfl rfl le_rfl rfl

theorem bodyShuf8_ok {s t : State} (h : bodyShuf8 s = .ok t) : BlockMove 8 s t := by
  unfold bodyShuf8 at h
  simp only [bind, Except.bind] at h
  split at h
  · cases h
  · split at h
    · cases h
    · split at h
      · cases h
      · split at h
        · cases h
        · split at h
          · cases h
          · rename_i u hu
            split at h
            · cases h
            · rename_i w hw2
              cases h
              obtain ⟨hu1, hu2⟩ := compactStore4_work hu
              obtain ⟨hw1, hw3⟩ := compactStore4_work hw2
              have e0 := popcount_le (n := 4) u.work.m0
              have e1 := popcount_le (n := 4) u.work.m1
              refine advance_blockMove (hw3.trans hu2) (by rw [hw1, hu1]; rfl) (by rw [hw1, hu1]; rfl) ?_
              rw [hw1, hu1]
              rw [hu1] at e0 e1
              simp only [State.setWork_work] at e0 e1 ⊢
              omega

theorem bodyShuf256_applies (s : State) : Applies s (bodyShuf256 s) := by
  unfold bodyShuf256
  refine Applies.after_read (Grows.refl s) (loadV8_reads s _ _) fun ya _ => ?_
  refine Applies.after_read (Grows.refl s) (loadV8_reads s _ _) fun yb _ => ?_
  refine Applies.bind (Applies.trans ?_ (compactStore8_applies _ _ _)) fun t _ => Applies.ok (advance_grows 8 _ _ t)
  exact Grows.of_work rfl rfl rfl rfl rfl le_rfl rfl

theorem bodyShuf256_ok {s t : State} (h : bodyShuf256 s = .ok t) : BlockMove 8 s t := by
  unfold bodyShuf256 at h
  simp only [bind, Except.bind] at h
  split at h
  · cases h
  · split at h
    · cases h
    · split at h
      · cases h
      · rename_i _ ya _ _ yb _ _ u hu
        cases h
        obtain ⟨hw, hp⟩ := compactStore8_work hu
        have := popcount_le (alignMatch8 ya yb)
        exact advance_blockMove hp (by rw [hw]; rfl) (by rw [hw]; rfl) (by rw [hw]; simp; omega)

end Sys2Proof.Machine
end

