-- ==== Sys2Proof/Laws/Engine.lean ====
section
/-! SUPPORT. What one step of the engine can do, said once: from a busy state it goes on to a busy state that differs in the
gate, the working registers, memory inside the output slots it fills and the record of stores, or it ends there by
completion or by taking a fault. -/

-- Elaborated one at a time: the package as one text would otherwise hold a thread and its stack for many theorems at once.
set_option Elab.async false

namespace Sys2Proof.Machine

/-- What the engine can change while a command runs, before the command's end is recorded. -/
structure Advances (s t : State) : Prop where
  regs : t.regs = { s.regs with tblValid := t.regs.tblValid }
  gate : s.regs.tblValid = true → t.regs.tblValid = true
  port : t.port = s.port
  script : t.host.script = s.host.script
  got : t.host.got = s.host.got
  draws : t.host.draws = s.host.draws
  co : t.work.co = s.work.co
  c_le : s.work.c ≤ t.work.c
  mem : 4 * t.work.c ≤ 2 ^ 64 → ∀ p : Addr,
    (p - s.regs.outBase).toNat < 4 * s.work.c ∨ 4 * t.work.c ≤ (p - s.regs.outBase).toNat →
      Memory.read t.mem p.toNat = Memory.read s.mem p.toNat
  wf : Memory.wf s.mem → Memory.wf t.mem
  countOnly : s.work.co = true → t.mem = s.mem ∧ t.host = s.host

theorem Grows.advances {s t : State} (h : Grows s t) : Advances s t where
  regs := by rw [h.regs]
  gate hv := by rw [h.regs]; exact hv
  port := h.port
  script := h.script
  got := h.got
  draws := h.draws
  co := h.co
  c_le := h.c_le
  mem := h.mem
  wf := h.wf
  countOnly := h.countOnly

theorem Advances.refl (s : State) : Advances s s := (Grows.refl s).advances

theorem Advances.trans {s t u : State} (h : Advances s t) (g : Advances t u) : Advances s u where
  regs := by rw [g.regs, h.regs]
  gate := g.gate ∘ h.gate
  port := g.port.trans h.port
  script := g.script.trans h.script
  got := g.got.trans h.got
  draws := g.draws.trans h.draws
  co := g.co.trans h.co
  c_le := h.c_le.trans g.c_le
  mem hc p hp := by
    have hcu := g.c_le
    have hct := h.c_le
    have hr : t.regs.outBase = s.regs.outBase := by rw [h.regs]
    rw [g.mem hc p (by rw [hr]; omega), h.mem (by omega) p (by omega)]
  wf := g.wf ∘ h.wf
  countOnly hco := by
    obtain ⟨a, b⟩ := h.countOnly hco
    obtain ⟨c, d⟩ := g.countOnly (h.co.trans hco)
    exact ⟨c.trans a, d.trans b⟩

/-- A change of phase and of cursors alone. -/
theorem Advances.of_work {s t : State} (hr : t.regs = s.regs) (hp : t.port = s.port) (hh : t.host = s.host)
    (hm : t.mem = s.mem) (hco : t.work.co = s.work.co) (hc : s.work.c = t.work.c) : Advances s t where
  regs := by rw [hr]
  gate hv := by rw [hr]; exact hv
  port := hp
  script := by rw [hh]
  got := by rw [hh]
  draws := by rw [hh]
  co := hco
  c_le := hc.le
  mem _ _ _ := by rw [hm]
  wf hw := by rw [hm]; exact hw
  countOnly _ := ⟨hm, hh⟩

/-- How a step of the engine from `s` ends in `t`: busy still, completed, or with a fault taken. -/
inductive Ends (s t : State) : Prop where
  | running (h : Advances s t) (busy : t.busy = true)
  | completed (u : State) (h : Advances s u) (e : t = complete u)
  | faulted (u : State) (f : EngineFault) (p : Addr) (h : Advances s u) (e : t = takeFault f p u)

theorem Ends.trans {s u t : State} (h : Advances s u) (g : Ends u t) : Ends s t := by
  cases g with
  | running g b => exact .running (h.trans g) b
  | completed v g e => exact .completed v (h.trans g) e
  | faulted v f p g e => exact .faulted v f p (h.trans g) e

theorem busy_iff {s : State} : s.busy = true ↔ s.phase ≠ .idle := by
  unfold State.busy
  cases s.phase <;> simp

theorem settle_ends {s : State} {x : Except Raised State} (hx : Applies s x)
    (hb : ∀ t, x = .ok t → t.phase ≠ .idle) : Ends s (settle x) := by
  cases x with
  | ok t => exact .running (hx.1 t rfl).advances (busy_iff.2 (hb t rfl))
  | error e => exact .faulted e.state e.fault e.addr (hx.2 e rfl).1.advances rfl

theorem toTail_ends (s : State) : Ends s (toTail s) :=
  .running (.of_work rfl rfl rfl rfl rfl rfl) (busy_iff.2 (by simp [toTail]))

theorem enterQfV2_phase {s t : State} (h : enterQfV2 s = .ok t) : t.phase = .vec := by
  unfold enterQfV2 at h
  simp only [bind, Except.bind] at h
  split at h
  · cases h
  · rename_i u hu
    obtain ⟨va, rfl⟩ := reloadA_ok hu
    obtain ⟨vb, rfl⟩ := reloadB_ok h
    rfl

theorem dispatch_ends (i : Instr) (s : State) : Ends s (dispatch i s) := by
  cases i with
  | tbld => exact .completed s (.refl s) rfl
  | merge => exact toTail_ends s
  | gallop co => exact .running (.of_work rfl rfl rfl rfl rfl rfl) rfl
  | qfB4 co => exact .running (.of_work rfl rfl rfl rfl rfl rfl) rfl
  | qfV2 co => exact settle_ends (enterQfV2_applies s) fun t h => by rw [enterQfV2_phase h]; decide
  | shuf4 => exact .running (.of_work rfl rfl rfl rfl rfl rfl) rfl
  | shuf8 => exact .running (.of_work rfl rfl rfl rfl rfl rfl) rfl
  | shuf256 => exact .running (.of_work rfl rfl rfl rfl rfl rfl) rfl

theorem gate_ends (n : Bool) (i : Instr) (s : State) : Ends s (gate n i s) := by
  unfold gate
  split
  · exact .running (.of_work rfl rfl rfl rfl rfl rfl) rfl
  · exact dispatch_ends i s

theorem launchStep_ends (s : State) : Ends s (launchStep s) := by
  unfold launchStep
  split
  · exact .faulted s _ _ (.refl s) rfl
  · split
    · exact gate_ends _ _ s
    · split
      · exact .faulted s _ _ (.refl s) rfl
      · exact gate_ends _ _ s

theorem buildTables_advances (s : State) : Advances s (buildTables s) where
  regs := rfl
  gate _ := rfl
  port := rfl
  script := rfl
  got := rfl
  draws := rfl
  co := rfl
  c_le := le_rfl
  mem _ _ _ := rfl
  wf := id
  countOnly _ := ⟨rfl, rfl⟩

theorem buildStep_ends (s : State) : Ends s (buildStep s) := by
  unfold buildStep
  split
  · exact .faulted s _ _ (.refl s) rfl
  · exact Ends.trans (buildTables_advances s) (dispatch_ends _ _)

/-- A loop step of a block kernel: its body where the guard holds, else the hand-over. -/
theorem guarded_ends {s : State} {P : Prop} [Decidable P] {body : Except Raised State} (hs : s.phase = .vec)
    (hx : Applies s body) (hp : ∀ t, body = .ok t → t.phase = s.phase) :
    Ends s (settle (if P then body else .ok (toTail s))) := by
  split
  · exact settle_ends hx fun t h => by rw [hp t h, hs]; decide
  · exact toTail_ends s

theorem vecStep_ends {s : State} (hs : s.phase = .vec) : Ends s (vecStep s) := by
  unfold vecStep
  split
  · exact toTail_ends s
  · exact toTail_ends s
  · exact toTail_ends s
  · unfold vecGallop
    split
    · refine settle_ends (gallopBody_applies s) fun t h => ?_
      rcases gallopBody_ok h with ⟨hp, _⟩ | ⟨hp, _⟩
      · rw [hp]; decide
      · rw [hp, hs]; decide
    · exact .running (.of_work rfl rfl rfl rfl rfl rfl) rfl
  · exact guarded_ends hs (bodyQfB4_applies s) fun t h => (bodyQfB4_ok h).phase
  · exact guarded_ends hs (bodyQfV2_applies s) fun t h => (bodyQfV2_ok h).phase
  · exact guarded_ends hs (bodyShuf4_applies s) fun t h => (bodyShuf4_ok h).phase
  · exact guarded_ends hs (bodyShuf8_applies s) fun t h => (bodyShuf8_ok h).phase
  · exact guarded_ends hs (bodyShuf256_applies s) fun t h => (bodyShuf256_ok h).phase

theorem tailStep_ends {s : State} (hs : s.phase = .tail) : Ends s (settle (tailIter s)) := by
  unfold tailIter
  split
  · exact settle_ends (mergeBody_applies s) fun t h => by rw [(mergeBody_ok h).1, hs]; decide
  · exact .completed s (.refl s) rfl

theorem noteIrq_of_busy {s : State} (h : s.busy = true) : noteIrq s = s := by
  unfold noteIrq State.irq
  simp [h]

/-- Noting the interrupt changes the record of stores alone. -/
theorem noteIrq_cases (s : State) : noteIrq s = s ∨ noteIrq s = s.setHost { s.host with unseen := [] } := by
  unfold noteIrq
  split
  · exact .inr rfl
  · exact .inl rfl

/-- What one step of the engine can do from a busy state: the step before the interrupt is noted ends as `Ends` says. -/
theorem engineStep_ends {s : State} (h : s.busy = true) : ∃ t, engineStep s = noteIrq t ∧ Ends s t := by
  unfold engineStep
  cases hp : s.phase with
  | idle => exact absurd hp (busy_iff.1 h)
  | launch => exact ⟨_, rfl, launchStep_ends s⟩
  | tbuild => exact ⟨_, rfl, buildStep_ends s⟩
  | vec => exact ⟨_, rfl, vecStep_ends hp⟩
  | tail => exact ⟨_, rfl, tailStep_ends hp⟩

/-- An idle engine does nothing. -/
theorem engineStep_idle {s : State} (h : s.phase = .idle) : engineStep s = s := by
  unfold engineStep; rw [h]

theorem runToIdle_idle {s : State} (n : Nat) (h : s.phase = .idle) : runToIdle n s = s := by
  cases n with
  | zero => rfl
  | succ n => unfold runToIdle; rw [h]

theorem runToIdle_succ {s : State} (n : Nat) (h : s.busy = true) :
    runToIdle (n + 1) s = runToIdle n (engineStep s) := by
  rw [runToIdle]
  cases hp : s.phase with
  | idle => exact absurd hp (busy_iff.1 h)
  | launch => rfl
  | tbuild => rfl
  | vec => rfl
  | tail => rfl

end Sys2Proof.Machine
end

