-- ==== Sys2Proof/Laws/Run.lean ====
section
/-! SUPPORT. A whole command as the run of the engine's steps: a measure that every step lowers, so that the run ends
(spec/40_command_dispatch.md R135); induction along the run; what keeps an invariant over every step of the machine. -/

-- Elaborated one at a time: the package as one text would otherwise hold a thread and its stack for many theorems at once.
set_option Elab.async false

namespace Sys2Proof.Machine

theorem busy_false {s : State} (h : s.phase = .idle) : s.busy = false := by unfold State.busy; rw [h]

/-- Steps of B's cursor still to come in VEC; GALLOP's may move back at the break. -/
def vecLeft (s : State) : Nat :=
  match decode s.regs.cmd with
  | .ok (.gallop _) => s.nb
  | _ => s.nb - s.work.j

theorem vecLeft_gallop {s : State} {co : Bool} (h : decode s.regs.cmd = .ok (.gallop co)) : vecLeft s = s.nb := by
  unfold vecLeft; rw [h]

theorem vecLeft_block {s : State} (h : ∀ co, decode s.regs.cmd ≠ .ok (.gallop co)) : vecLeft s = s.nb - s.work.j := by
  unfold vecLeft; split
  · rename_i co hc; exact absurd hc (h co)
  · rfl

theorem vecLeft_le (s : State) : s.nb - s.work.j ≤ vecLeft s ∧ vecLeft s ≤ s.nb := by
  unfold vecLeft; split
  · exact ⟨Nat.sub_le _ _, le_rfl⟩
  · exact ⟨le_rfl, Nat.sub_le _ _⟩

/-- Steps the engine can still make, counted by phase. -/
def budget (s : State) : Nat :=
  match s.phase with
  | .idle => 0
  | .launch => s.na + s.nb + 4
  | .tbuild => s.na + s.nb + 3
  | .vec => (s.na - s.work.i) + vecLeft s + 2
  | .tail => (s.na - s.work.i) + (s.nb - s.work.j) + 1

theorem fullTo_le (W n : Nat) : fullTo W n ≤ n := by unfold fullTo; omega

theorem Grows.na {s t : State} (h : Grows s t) : t.na = s.na := by unfold State.na; rw [h.regs]

theorem Grows.nb {s t : State} (h : Grows s t) : t.nb = s.nb := by unfold State.nb; rw [h.regs]

theorem noteIrq_budget (s : State) : budget (noteIrq s) = budget s := by
  rcases noteIrq_cases s with h | h <;> rw [h]; rfl

theorem takeFault_budget (f : EngineFault) (p : Addr) (s : State) : budget (takeFault f p s) = 0 := rfl

theorem budget_vec_le {s : State} (h : s.phase = .vec) : budget s ≤ s.na + s.nb + 2 := by
  unfold budget; rw [h]; have := vecLeft_le s; simp only; omega

theorem toTail_budget (s : State) : budget (toTail s) = (s.na - s.work.i) + (s.nb - s.work.j) + 1 := rfl

theorem dispatch_budget (i : Instr) (s : State) : budget (dispatch i s) ≤ s.na + s.nb + 2 := by
  cases i with
  | tbld => exact Nat.zero_le _
  | merge => unfold dispatch toTail budget; simp; omega
  | qfV2 co =>
    unfold dispatch
    cases hx : enterQfV2 s with
    | error e => exact Nat.zero_le _
    | ok t =>
      have g := (enterQfV2_applies s).1 t hx
      have := budget_vec_le (s := t) (enterQfV2_phase hx)
      rw [g.na, g.nb] at this
      exact this
  | gallop co => exact budget_vec_le (s := enterGallop s) rfl
  | qfB4 co => exact budget_vec_le (s := s.setPhase .vec) rfl
  | shuf4 => exact budget_vec_le (s := s.setPhase .vec) rfl
  | shuf8 => exact budget_vec_le (s := s.setPhase .vec) rfl
  | shuf256 => exact budget_vec_le (s := s.setPhase .vec) rfl

theorem gate_budget (n : Bool) (i : Instr) (s : State) : budget (gate n i s) < s.na + s.nb + 4 := by
  unfold gate
  split
  · show s.na + s.nb + 3 < _; omega
  · have := dispatch_budget i s; omega

theorem launchStep_budget (s : State) : budget (launchStep s) < s.na + s.nb + 4 := by
  unfold launchStep
  split
  · rw [takeFault_budget]; omega
  · split
    · exact gate_budget _ _ s
    · split
      · rw [takeFault_budget]; omega
      · exact gate_budget _ _ s

theorem buildStep_budget (s : State) : budget (buildStep s) < s.na + s.nb + 3 := by
  unfold buildStep
  split
  · rw [takeFault_budget]; omega
  · have := dispatch_budget ‹Instr› (buildTables s)
    have e1 : (buildTables s).na = s.na := rfl
    have e2 : (buildTables s).nb = s.nb := rfl
    rw [e1, e2] at this; omega

/-- Budget in VEC of a block kernel. -/
theorem block_budget {s : State} {W : Nat} (hW : 0 < W) {body : Except Raised State} (hs : s.phase = .vec)
    (hg : ∀ co, decode s.regs.cmd ≠ .ok (.gallop co)) (ha : Applies s body) (hm : ∀ t, body = .ok t → BlockMove W s t) :
    budget (settle (if s.work.i < fullTo W s.na ∧
        s.work.j < fullTo W s.nb then body else .ok (toTail s))) < budget s := by
  have hb : budget s = (s.na - s.work.i) + (s.nb - s.work.j) + 2 := by
    unfold budget; rw [hs]; simp only; rw [vecLeft_block hg]
  split
  · rename_i h
    have h1 := fullTo_le W s.na
    have h2 := fullTo_le W s.nb
    cases hx : body with
    | error e => rw [hb]; show 0 < _; omega
    | ok t =>
      have g := ha.1 t hx
      have m := hm t hx
      have ht : budget t = (s.na - t.work.i) + (s.nb - t.work.j) + 2 := by
        unfold budget; rw [m.phase, hs]; simp only
        rw [vecLeft_block (by rw [g.regs]; exact hg), g.na, g.nb]
      show budget t < _
      rw [ht, hb]
      rcases m.cursors with c | c | c <;> rw [c.1, c.2] <;> omega
  · rw [hb]; show budget (toTail s) < _; rw [toTail_budget]; omega

theorem vecStep_budget {s : State} (hs : s.phase = .vec) : budget (vecStep s) < budget s := by
  have tt : budget (toTail s) < budget s := by
    rw [toTail_budget]; unfold budget; rw [hs]; have := vecLeft_le s; simp only; omega
  unfold vecStep
  split
  · exact tt
  · exact tt
  · exact tt
  · rename_i co hd
    have hb : budget s = (s.na - s.work.i) + s.nb + 2 := by unfold budget; rw [hs]; simp only; rw [vecLeft_gallop hd]
    unfold vecGallop
    split
    · rename_i h
      cases hx : gallopBody s with
      | error e => rw [hb]; show 0 < _; omega
      | ok t =>
        have g := (gallopBody_applies s).1 t hx
        show budget t < _
        rcases gallopBody_ok hx with ⟨hp, hi, hj, _⟩ | ⟨hp, hi, _⟩
        · have : budget t = (t.na - t.work.i) + (t.nb - t.work.j) + 1 := by unfold budget; rw [hp]
          rw [this, hb, g.na, g.nb, hi]; omega
        · have : budget t = (s.na - t.work.i) + s.nb + 2 := by
            unfold budget; rw [hp, hs]; simp only; rw [vecLeft_gallop (by rw [g.regs]; exact hd), g.na, g.nb]
          rw [this, hb, hi]; omega
    · rw [hb]
      show (s.na - s.work.i) + (s.nb - 4 * s.work.k) + 1 < _; omega
  all_goals (rename_i hd)
  · exact block_budget (by omega) hs (by rw [hd]; intro co h; cases h) (bodyQfB4_applies s) fun t h => bodyQfB4_ok h
  · exact block_budget (by omega) hs (by rw [hd]; intro co h; cases h) (bodyQfV2_applies s) fun t h => bodyQfV2_ok h
  · exact block_budget (by omega) hs (by rw [hd]; intro co h; cases h) (bodyShuf4_applies s) fun t h => bodyShuf4_ok h
  · exact block_budget (by omega) hs (by rw [hd]; intro co h; cases h) (bodyShuf8_applies s) fun t h => bodyShuf8_ok h
  · exact block_budget (by omega) hs (by rw [hd]; intro co h; cases h) (bodyShuf256_applies s) fun t h => bodyShuf256_ok h

theorem tailStep_budget {s : State} (hs : s.phase = .tail) : budget (settle (tailIter s)) < budget s := by
  have hb : budget s = (s.na - s.work.i) + (s.nb - s.work.j) + 1 := by unfold budget; rw [hs]
  unfold tailIter
  split
  · rename_i h
    cases hx : mergeBody s with
    | error e => rw [hb]; show 0 < _; omega
    | ok t =>
      have g := (mergeBody_applies s).1 t hx
      obtain ⟨hp, hw⟩ := mergeBody_ok hx
      show budget t < _
      have : budget t = (s.na - t.work.i) + (s.nb - t.work.j) + 1 := by unfold budget; rw [hp, hs, g.na, g.nb]
      rw [this, hb]
      rcases hw with h | h | h <;> rw [h] <;> simp only <;> omega
  · rw [hb]; show 0 < _; omega

theorem engineStep_budget {s : State} (h : s.busy = true) : budget (engineStep s) < budget s := by
  unfold engineStep
  cases hp : s.phase with
  | idle => exact absurd hp (busy_iff.1 h)
  | launch => simp only [noteIrq_budget]; have := launchStep_budget s; unfold budget at *; rw [hp]; exact this
  | tbuild => simp only [noteIrq_budget]; have := buildStep_budget s; unfold budget at *; rw [hp]; exact this
  | vec => simp only [noteIrq_budget]; exact vecStep_budget hp
  | tail => simp only [noteIrq_budget]; exact tailStep_budget hp

theorem budget_pos {s : State} (h : s.busy = true) : 0 < budget s := by
  unfold budget
  cases hp : s.phase with
  | idle => exact absurd hp (busy_iff.1 h)
  | _ => simp

theorem runToIdle_ends {n : Nat} {s : State} (h : budget s ≤ n) : (runToIdle n s).phase = .idle := by
  induction n generalizing s with
  | zero =>
    cases hb : s.busy with
    | true => have := budget_pos hb; omega
    | false => show s.phase = .idle; by_contra hc; rw [busy_iff.2 hc] at hb; cases hb
  | succ n ih =>
    cases hb : s.busy with
    | true =>
      rw [runToIdle_succ n hb]
      have := engineStep_budget hb
      exact ih (by omega)
    | false =>
      have : s.phase = .idle := by by_contra hc; rw [busy_iff.2 hc] at hb; cases hb
      rw [runToIdle_idle _ this]; exact this

theorem budget_le_fuel (s : State) : budget s ≤ engineFuel s := by
  unfold engineFuel budget
  cases s.phase with
  | vec => have := vecLeft_le s; simp only; omega
  | _ => simp only; omega

theorem observe_phase (s : State) : (observe s).phase = s.phase := by unfold observe; split <;> rfl

theorem exec_eq (i : Instr) (s : State) : exec i s = .next (runWord (encode i) s) := by
  cases i <;> rfl

/-- Induction along a running command: from a busy state to the end. -/
theorem runToIdle_induct {P : State → Prop} {n : Nat} {s : State} (hs : P s)
    (hstep : ∀ t, t.busy = true → P t → P (engineStep t)) : P (runToIdle n s) := by
  induction n generalizing s with
  | zero => exact hs
  | succ n ih =>
    cases hb : s.busy with
    | true => rw [runToIdle_succ n hb]; exact ih (hstep s hb hs)
    | false =>
      have : s.phase = .idle := by by_contra hc; rw [busy_iff.2 hc] at hb; cases hb
      rw [runToIdle_idle _ this]; exact hs

/-- Lift a predicate through `noteIrq`, which touches the record of stores alone. -/
theorem noteIrq_lift {P : State → Prop} (hP : ∀ s u, P s → P (s.setHost { s.host with unseen := u })) {s : State}
    (h : P s) :
    P (noteIrq s) := by
  rcases noteIrq_cases s with e | e <;> rw [e]
  · exact h
  · exact hP s _ h

theorem observe_cases (s : State) : observe s = s ∨ observe s = s.setHost { s.host with unseen := [] } := by
  unfold observe; split
  · exact .inr rfl
  · exact .inl rfl

theorem engineStep_cases (s : State) : (s.phase = .idle ∧ engineStep s = s) ∨ (s.busy = true ∧ ∃ t,
    engineStep s = noteIrq t ∧ Ends s t) := by
  by_cases h : s.phase = .idle
  · exact .inl ⟨h, engineStep_idle h⟩
  · exact .inr ⟨busy_iff.2 h, engineStep_ends (busy_iff.2 h)⟩

theorem runWord_keeps {P : State → Prop} (hHost : ∀ s v, P s → P (s.setHost v)) (hEngine : ∀ s, s.busy = true → P s →
    P (engineStep s))
    (hWrite : ∀ n v s, P s → P (hostWrite n v s)) {s : State} (v : Reg64) (hs : P s) : P (runWord v s) := by
  unfold runWord
  simp only
  have := runToIdle_induct (P := P) (n := engineFuel (hostWrite 1 v s)) (hWrite 1 v s hs) (fun t => hEngine t)
  rcases observe_cases (runToIdle (engineFuel (hostWrite 1 v s)) (hostWrite 1 v s)) with e | e <;> rw [e]
  · exact this
  · exact hHost _ _ this

/-- A host write that is not barred: what it leaves. -/
theorem hostMemWrite_next {p : Addr} {b : Byte} {s t : State} (h : hostMemWrite p b s = .next t) :
    (inStorageWindow p s || inOutputWindow p s) = false ∧
      t = (s.setMem (Memory.write s.mem p.toNat b)).setHost
        { s.host with unseen := s.host.unseen.flatMap (Region.without p) } := by
  unfold hostMemWrite at h
  split at h
  · cases h
  · rename_i hb; cases h; exact ⟨by simpa using hb, rfl⟩

/-- A host read that is not barred: only the host's side moves, by one value read and at most one free value taken. -/
theorem hostMemRead_next {p : Addr} {s t : State} (h : hostMemRead p s = .next t) :
    inOutputWindow p s = false ∧ ∃ v, t = s.setHost v ∧ v.script = s.host.script ∧ v.unseen = s.host.unseen ∧
      s.host.draws ≤ v.draws ∧
      (notYetSeen p s = false → v = { s.host with got := (Memory.read s.mem p.toNat).setWidth 64 :: s.host.got }) ∧
      ∃ w, v.got = w :: s.host.got := by
  unfold hostMemRead at h
  split at h
  · cases h
  · rename_i ho
    refine ⟨by simpa using ho, ?_⟩
    split at h <;> cases h
    · rename_i hn
      exact ⟨_, rfl, rfl, rfl, Nat.le_succ _, fun e => (by rw [e] at hn; cases hn), _, rfl⟩
    · exact ⟨_, rfl, rfl, rfl, le_rfl, fun _ => rfl, _, rfl⟩

/-- An invariant that the engine's step, the host's register writes and memory writes, the reset input and changes of the
host's side keep is kept by every step. -/
theorem step_keeps {P : State → Prop} (hHost : ∀ s v, P s → P (s.setHost v)) (hEngine : ∀ s, s.busy = true → P s →
    P (engineStep s))
    (hWrite : ∀ n v s, P s → P (hostWrite n v s))
    (hMem : ∀ s (p : Addr) b, P s → P (s.setMem (Memory.write s.mem p.toNat b)))
    (hReset : ∀ s, P s → P (resetInput s)) {s t : State} (hs : P s) (h : step s = .next t) : P t := by
  have hE : ∀ s, P s → P (engineStep s) := fun s h => by
    rcases engineStep_cases s with ⟨_, e⟩ | ⟨e, _⟩
    · rw [e]; exact h
    · exact hEngine s e h
  have hn : ∀ s, P s → P (noteIrq s) := fun s h => noteIrq_lift (fun s u => hHost s _) h
  have ho : ∀ s, P s → P (observe s) := fun s h => by
    rcases observe_cases s with e | e <;> rw [e]
    · exact h
    · exact hHost _ _ h
  have hp : P (popLine s) := hHost _ _ hs
  unfold step at h
  split at h
  · cases h; exact hE _ hs
  · split at h
    · rw [exec_eq] at h; cases h; exact runWord_keeps hHost hEngine hWrite _ hp
    · unfold playLine at h; cases h; exact runWord_keeps hHost hEngine hWrite _ hp
  · unfold playLine at h
    split at h
    · cases h; exact hn _ (hWrite _ _ _ hp)
    · cases h
      unfold hostReadLine; simp only
      split
      · exact ho _ (hHost _ _ hp)
      · exact hHost _ _ hp
    · split at h
      · cases h; exact hE _ hs
      · cases h; exact ho _ hp
    · cases h; exact runWord_keeps hHost hEngine hWrite _ hp
    · cases h; exact hE _ hp
    · rw [(hostMemWrite_next h).2]; exact hHost _ _ (hMem _ _ _ hp)
    · obtain ⟨_, v, e, _⟩ := hostMemRead_next h
      rw [e]; exact hHost _ _ hp
    · cases h; exact hReset _ hp

theorem hostWrite_busy {s : State} (n : Nat) (v : Reg64) (h : s.busy = true) :
    hostWrite n v s = if n = 3 then s.setRegs { s.regs with ie := v.getLsbD 0 } else s := by
  unfold hostWrite; rw [if_pos h]

theorem hostWrite_idle {s : State} (n : Nat) (v : Reg64) (h : s.busy = false) :
    hostWrite n v s = hostWriteIdle n v s := by
  unfold hostWrite; rw [h]; rfl

theorem noteIrq_phase (s : State) : (noteIrq s).phase = s.phase := by rcases noteIrq_cases s with h | h <;> rw [h]; rfl

/-- A run whose next step ends it. -/
theorem runToIdle_one {n : Nat} {s : State} (hb : s.busy = true) (h : (engineStep s).phase = .idle) :
    runToIdle (n + 1) s = engineStep s := by rw [runToIdle_succ n hb, runToIdle_idle n h]

theorem hostWrite_launch {s : State} (v : Reg64) (h : s.phase = .idle) : hostWrite 1 v s = launch v s := by
  rw [hostWrite_idle _ _ (busy_false h)]; rfl

theorem observe_noteIrq_end {r u : State} (hr : r = complete u ∨ ∃ f p, r = takeFault f p u) :
    observe (noteIrq r) = r.setHost { r.host with unseen := [] } := by
  have hb : r.busy = false ∧ (r.regs.done || r.regs.fault) = true := by
    rcases hr with rfl | ⟨f, p, rfl⟩
    · exact ⟨rfl, rfl⟩
    · exact ⟨rfl, by simp [takeFault]⟩
  rcases noteIrq_cases r with e | e <;> rw [e] <;> unfold observe <;>
    rw [if_pos (by simp only [State.setHost_regs, show ∀ v, (r.setHost v).busy = r.busy from fun _ => rfl, hb]; rfl)]
  rfl

theorem exec_next {i : Instr} {s t : State} (h : exec i s = .next t) : t = runWord (encode i) s := by
  rw [exec_eq] at h; cases h; rfl

end Sys2Proof.Machine
end

