-- ==== Sys2Proof/Laws/Cursors.lean ====
section
/-! SUPPORT. The cursors and the count of a running command: the cursors stay bounded under the engine's steps
(spec/41_vector_primitives.md R157), a step counts at most eight elements, and how a whole run ends. -/

-- Elaborated one at a time: the package as one text would otherwise hold a thread and its stack for many theorems at once.
set_option Elab.async false

namespace Sys2Proof.Machine

theorem CursorsBounded.of_idle {s : State} (h : s.phase = .idle) : CursorsBounded s :=
  ⟨fun h' => (by rw [h] at h'; rcases h' with h' | h' <;> cases h'), fun h' =>
      (by rw [h] at h'; rcases h' with h' | h' <;> cases h'),
    fun h' => (by rw [h] at h'; cases h')⟩

theorem CursorsBounded.setHost {s : State} (v : HostSide) (h : CursorsBounded s) : CursorsBounded (s.setHost v) :=
    ⟨h.1, h.2, h.3⟩

theorem CursorsBounded.of_tail {s : State} (h : s.phase = .tail) (hb : s.work.i ≤ s.na ∧ s.work.j ≤ s.nb ∧
    s.work.c ≤ s.work.i + s.work.j) : CursorsBounded s :=
  ⟨fun h' => (by rw [h] at h'; rcases h' with h' | h' <;> cases h'), fun _ => hb, fun h' => (by rw [h] at h'; cases h')⟩

theorem CursorsBounded.of_vec {s : State} (h : s.phase = .vec) (hb : s.work.i ≤ s.na ∧ s.work.j ≤ s.nb ∧
    s.work.c ≤ s.work.i + s.work.j)
   (hv : vecCursors s) : CursorsBounded s :=
  ⟨fun h' => (by rw [h] at h'; rcases h' with h' | h' <;> cases h'), fun _ => hb, fun _ => hv⟩

theorem takeFault_bounded (f : EngineFault) (p : Addr) (s : State) : CursorsBounded (takeFault f p s) := .of_idle rfl

theorem dispatch_bounded {i : Instr} {s : State} (hd : decode s.regs.cmd = .ok i) (h : s.work.i = 0 ∧ s.work.j = 0 ∧
    s.work.c = 0) :
    CursorsBounded (dispatch i s) := by
  obtain ⟨h1, h2, h3⟩ := h
  cases i with
  | tbld => exact .of_idle rfl
  | merge =>
    show CursorsBounded (s.setPhase .tail)
    exact .of_tail rfl (by simp [h1, h2, h3])
  | gallop co =>
    show CursorsBounded ((s.setWork { s.work with k := 0 }).setPhase .vec)
    exact .of_vec rfl (by simp [h1, h2, h3]) (by unfold vecCursors; simp [hd, h2])
  | qfB4 co =>
    show CursorsBounded (s.setPhase .vec)
    exact .of_vec rfl (by simp [h1, h2, h3]) (by unfold vecCursors; simp [hd, h1, h2])
  | qfV2 co =>
    unfold dispatch
    cases hx : enterQfV2 s with
    | error e => exact .of_idle rfl
    | ok t =>
      have hp := enterQfV2_phase hx
      show CursorsBounded t
      unfold enterQfV2 at hx
      simp only [bind, Except.bind] at hx
      split at hx
      · cases hx
      rename_i u hu
      obtain ⟨va, rfl⟩ := reloadA_ok hu
      obtain ⟨vb, rfl⟩ := reloadB_ok hx
      exact .of_vec hp (by simp [h1, h2, h3]) (by unfold vecCursors; simp [hd, h1, h2])
  | shuf4 =>
    show CursorsBounded (s.setPhase .vec)
    exact .of_vec rfl (by simp [h1, h2, h3]) (by unfold vecCursors; simp [hd, h1, h2])
  | shuf8 =>
    show CursorsBounded (s.setPhase .vec)
    exact .of_vec rfl (by simp [h1, h2, h3]) (by unfold vecCursors; simp [hd, h1, h2])
  | shuf256 =>
    show CursorsBounded (s.setPhase .vec)
    exact .of_vec rfl (by simp [h1, h2, h3]) (by unfold vecCursors; simp [hd, h1, h2])

theorem gate_bounded {n : Bool} {i : Instr} {s : State} (hd : decode s.regs.cmd = .ok i) (h : s.work.i = 0 ∧
    s.work.j = 0 ∧ s.work.c = 0) :
    CursorsBounded (gate n i s) := by
  unfold gate; split
  · exact ⟨fun _ => h, fun h' => (by rcases h' with h' | h' <;> cases h'), fun h' => (by cases h')⟩
  · exact dispatch_bounded hd h

theorem block_bounded {s : State} {W : Nat} (hW : 0 < W) {body : Except Raised State} (hs : s.phase = .vec)
    (ha : Applies s body) (hm : ∀ t, body = .ok t → BlockMove W s t) 
    (hb : s.work.i ≤ s.na ∧ s.work.j ≤ s.nb ∧ s.work.c ≤ s.work.i + s.work.j) (hi : s.work.i % W = 0 ∧ s.work.j % W = 0)
    (hv : ∀ t, t.regs = s.regs → t.work.i % W = 0 ∧ t.work.j % W = 0 → vecCursors t) :
    CursorsBounded (settle (if s.work.i < fullTo W s.na ∧ s.work.j < fullTo W s.nb then body else .ok (toTail s))) := by
  split
  · rename_i hg
    cases hx : body with
    | error e => exact .of_idle rfl
    | ok t =>
      have m := hm t hx
      have g := ha.1 t hx
      show CursorsBounded t
      have k1 : s.work.i + W ≤ s.na := by
        have := hg.1; unfold fullTo at this
        have e1 := Nat.div_add_mod s.na W
        have e2 := Nat.div_add_mod s.work.i W
        rw [hi.1] at e2
        have : s.work.i / W < s.na / W := by
          by_contra hc
          have := Nat.mul_le_mul_left W (not_lt.1 hc)
          omega
        have := Nat.mul_le_mul_left W (Nat.succ_le_of_lt this)
        rw [Nat.mul_succ] at this
        omega
      have k2 : s.work.j + W ≤ s.nb := by
        have := hg.2; unfold fullTo at this
        have e1 := Nat.div_add_mod s.nb W
        have e2 := Nat.div_add_mod s.work.j W
        rw [hi.2] at e2
        have : s.work.j / W < s.nb / W := by
          by_contra hc
          have := Nat.mul_le_mul_left W (not_lt.1 hc)
          omega
        have := Nat.mul_le_mul_left W (Nat.succ_le_of_lt this)
        rw [Nat.mul_succ] at this
        omega
      refine .of_vec (m.phase.trans hs) ?_ (hv t g.regs ?_)
      · rw [g.na, g.nb]; have := m.count; rcases m.cursors with c | c | c <;> omega
      · rcases m.cursors with c | c | c <;> simp [c, hi]
  · exact .of_tail rfl hb

theorem vecStep_bounded {s : State} (hs : s.phase = .vec) (h : CursorsBounded s) : CursorsBounded (vecStep s) := by
  have hb := h.2 (.inl hs)
  have hv := h.3 hs
  have tt : CursorsBounded (toTail s) := .of_tail rfl hb
  unfold vecStep
  split
  · exact tt
  · exact tt
  · exact tt
  · rename_i co hd
    unfold vecCursors at hv; rw [hd] at hv; simp only at hv
    have hn : 4 * nblk s ≤ s.nb := by unfold nblk; omega
    unfold vecGallop
    split
    · rename_i hg
      cases hx : gallopBody s with
      | error e => exact .of_idle rfl
      | ok t =>
        have g := (gallopBody_applies s).1 t hx
        have hnt : nblk t = nblk s := by unfold nblk; rw [g.nb]
        show CursorsBounded t
        rcases gallopBody_ok hx with ⟨hp, hi, hj, hk, hc⟩ | ⟨hp, hi, hj, hk, hk2, hc⟩
        · exact .of_tail hp (by rw [g.na, g.nb]; omega)
        · refine .of_vec (hp.trans hs) (by rw [g.na, g.nb]; omega) ?_
          unfold vecCursors; rw [g.regs, hd]; simp only; rw [hnt]; omega
    · show CursorsBounded (toTail (s.setWork { s.work with j := 4 * s.work.k }))
      exact .of_tail rfl (by simp [toTail]; omega)
  all_goals (rename_i hd; unfold vecCursors at hv; rw [hd] at hv; simp only at hv)
  · exact block_bounded (by omega) hs (bodyQfB4_applies s) (fun t h => bodyQfB4_ok h) hb hv fun t h =>
      (by unfold vecCursors; rw [h, hd]; exact id)
  · exact block_bounded (by omega) hs (bodyQfV2_applies s) (fun t h => bodyQfV2_ok h) hb hv fun t h =>
      (by unfold vecCursors; rw [h, hd]; exact id)
  · exact block_bounded (by omega) hs (bodyShuf4_applies s) (fun t h => bodyShuf4_ok h) hb hv fun t h =>
      (by unfold vecCursors; rw [h, hd]; exact id)
  · exact block_bounded (by omega) hs (bodyShuf8_applies s) (fun t h => bodyShuf8_ok h) hb hv fun t h =>
      (by unfold vecCursors; rw [h, hd]; exact id)
  · exact block_bounded (by omega) hs (bodyShuf256_applies s) (fun t h => bodyShuf256_ok h) hb hv fun t h =>
      (by unfold vecCursors; rw [h, hd]; exact id)

theorem engineStep_bounded {s : State} (h : CursorsBounded s) : CursorsBounded (engineStep s) := by
  unfold engineStep
  cases hp : s.phase with
  | idle => exact h
  | launch =>
    refine noteIrq_lift (fun _ _ h => h.setHost _) ?_
    unfold launchStep
    split
    · exact takeFault_bounded _ _ _
    · rename_i i hd
      split
      · exact gate_bounded hd (h.1 (.inl hp))
      · split
        · exact takeFault_bounded _ _ _
        · exact gate_bounded hd (h.1 (.inl hp))
  | tbuild =>
    refine noteIrq_lift (fun _ _ h => h.setHost _) ?_
    unfold buildStep
    split
    · exact takeFault_bounded _ _ _
    · rename_i i hd; exact dispatch_bounded (s := buildTables s) hd (h.1 (.inr hp))
  | vec => exact noteIrq_lift (fun _ _ h => h.setHost _) (vecStep_bounded hp h)
  | tail =>
    refine noteIrq_lift (fun _ _ h => h.setHost _) ?_
    have hb := h.2 (.inr hp)
    unfold tailIter
    split
    · cases hx : mergeBody s with
      | error e => exact .of_idle rfl
      | ok t =>
        have g := (mergeBody_applies s).1 t hx
        obtain ⟨hp2, hw⟩ := mergeBody_ok hx
        show CursorsBounded t
        refine .of_tail (hp2.trans hp) ?_
        rw [g.na, g.nb]
        rcases hw with h | h | h <;> rw [h] <;> simp only <;> omega
    · exact .of_idle rfl

/-- A rule application, or a part of one, counts at most `N` elements, whether it ends or raises. -/
def Counts (N : Nat) (s : State) (x : Except Raised State) : Prop :=
  (∀ t, x = .ok t → t.work.c ≤ s.work.c + N) ∧ ∀ e, x = .error e → e.state.work.c ≤ s.work.c + N

theorem Counts.ok {N : Nat} {s t : State} (h : t.work.c ≤ s.work.c + N) : Counts N s (.ok t) := by
  refine ⟨fun u hu => ?_, fun e he => ?_⟩
  · cases hu; exact h
  · cases he

theorem Counts.after_read {α : Type} {N : Nat} {s r : State} {x : Except Raised α} {f : α → Except Raised State}
    (hr : s.work.c ≤ r.work.c + N) (hx : Reads s x) (hf : ∀ a, x = .ok a → Counts N r (f a)) : Counts N r (x >>= f) := by
  cases x with
  | error e =>
    refine ⟨fun t h => (by cases h), fun e' h => ?_⟩
    cases h; rw [(hx e rfl).1]; exact hr
  | ok a => exact hf a rfl

theorem Counts.of_eq {N : Nat} {s t : State} {x : Except Raised State} (h : t.work.c = s.work.c) (hx : Counts N t x) :
    Counts N s x := by unfold Counts at *; rwa [h] at hx

theorem Counts.bind {N M : Nat} {s : State} {x : Except Raised State} {f : State → Except Raised State}
    (hx : Counts N s x)
    (hf : ∀ t, x = .ok t → Counts M t (f t)) : Counts (N + M) s (x >>= f) := by
  cases x with
  | error e =>
    refine ⟨fun t h => (by cases h), fun e' h => ?_⟩
    cases h; have := hx.2 e rfl; omega
  | ok t =>
    have h1 := hx.1 t rfl
    have h2 := hf t rfl
    refine ⟨fun u hu => ?_, fun e he => ?_⟩
    · have := h2.1 u hu; omega
    · have := h2.2 e he; omega

theorem Counts.mono {N M : Nat} {s : State} {x : Except Raised State} (hx : Counts N s x) (h : N ≤ M) : Counts M s x :=
  ⟨fun t ht => (hx.1 t ht).trans (by omega), fun e he => (hx.2 e he).trans (by omega)⟩

theorem emitElems_counts (s : State) (es : List Elem) : Counts es.length s (emitElems es s) := by
  refine ⟨fun t h => by rw [(emitElems_work h).1], fun e h => ?_⟩
  unfold emitElems storeOut at h
  cases hco : s.work.co with
  | true => rw [hco] at h; cases h
  | false =>
    rw [hco] at h
    cases hx : storeElems s (outSlot s) es with
    | ok t => simp [hx, bind, Except.bind] at h
    | error e' =>
      simp [hx, bind, Except.bind] at h
      subst h
      rw [((storeElems_applies s es hco).2 _ hx).1]; omega

theorem compactStore4_counts (s : State) (X : V128) (m : BitVec 4) : Counts 4 s (compactStore4 X m s) := by
  unfold compactStore4
  split
  · exact Counts.ok (by omega)
  · refine (emitElems_counts s _).mono ?_
    simp [lanes4]

theorem compactStore8_counts (s : State) (Y : V256) (m : BitVec 8) : Counts 8 s (compactStore8 Y m s) := by
  unfold compactStore8
  split
  · exact Counts.ok (by omega)
  · refine (emitElems_counts s _).mono ?_
    simp [lanes8, lanes4]

theorem advance_count (W : Nat) (u v : Elem) (s : State) : (advance W u v s).work.c = s.work.c := by
  rcases advance_cases W u v s with ⟨_, h⟩ | ⟨_, h⟩ | ⟨_, h⟩ <;> rw [h] <;> rfl

theorem mergeBody_counts (s : State) : Counts 1 s (mergeBody s) := by
  unfold mergeBody
  refine Counts.after_read (by omega) (readA_reads s _) fun ea _ => ?_
  refine Counts.after_read (by omega) (readB_reads s _) fun eb _ => ?_
  split
  · exact Counts.bind (N := 1) (M := 0) (emitElems_counts s [ea]) fun t _ => Counts.ok le_rfl
  · split <;> exact Counts.ok (by simp)

theorem emitOnMatch_counts (a : Elem) (m : BitVec 4) (s : State) : Counts 1 s (emitOnMatch a m s) := by
  unfold emitOnMatch
  split
  · exact emitElems_counts _ [a]
  · exact Counts.ok (Nat.le_add_right _ _)

theorem probe_counts (a : Elem) (s : State) : Counts 1 s (probe a s) := by
  unfold probe
  refine Counts.after_read (Nat.le_add_right _ _) (loadV4_reads s _ _) fun vb _ => ?_
  refine Counts.bind (N := 1) (M := 0) ?_ fun t _ => Counts.ok le_rfl
  refine Counts.of_eq ?_ (emitOnMatch_counts a _ _)
  rfl

theorem gallopBody_counts (s : State) : Counts 1 s (gallopBody s) := by
  unfold gallopBody
  refine Counts.after_read (by omega) (readA_reads s _) fun a _ => ?_
  refine Counts.after_read (by omega) (doubling_reads s _ _ _ _) fun r _ => ?_
  refine Counts.after_read (by omega) (bmax_reads s _) fun last _ => ?_
  split
  · exact Counts.ok (by simp [toTail])
  · refine Counts.after_read (by omega) (bisect_reads s _ _ _ _ _ _) fun found _ => ?_
    refine Counts.of_eq ?_ (probe_counts a _)
    rfl

theorem filterBlocks_counts (s : State) : Counts 4 s (filterBlocks s) := by
  unfold filterBlocks
  exact Counts.bind (N := 4) (M := 0) (Counts.of_eq (t := State.setWork s _) (by rfl)
      (compactStore4_counts _ _ _)) fun t _ =>
    Counts.ok (by rw [advance_count]; omega)

theorem bodyQfB4_counts (s : State) : Counts 4 s (bodyQfB4 s) := by
  unfold bodyQfB4
  refine Counts.after_read (by omega) (loadV4_reads s _ _) fun va _ => ?_
  refine Counts.after_read (by omega) (loadV4_reads s _ _) fun vb _ => ?_
  exact Counts.of_eq (t := State.setWork s _) (by rfl) (filterBlocks_counts _)

theorem reloadA_counts (s : State) : Counts 0 s (reloadA s) := by
  unfold reloadA
  split
  · exact Counts.after_read (by omega) (loadV4_reads s _ _) fun va _ => Counts.ok (by simp)
  · exact Counts.ok (by omega)

theorem reloadB_counts (s : State) : Counts 0 s (reloadB s) := by
  unfold reloadB
  split
  · exact Counts.after_read (by omega) (loadV4_reads s _ _) fun va _ => Counts.ok (by simp)
  · exact Counts.ok (by omega)

theorem bodyQfV2_counts (s : State) : Counts 4 s (bodyQfV2 s) := by
  unfold bodyQfV2
  refine Counts.bind (N := 4) (M := 0) (filterBlocks_counts s) fun t _ => Counts.bind (N := 0) (M := 0) ?_ fun u _ => ?_
  · unfold reloadMovedA; split
    · exact reloadA_counts t
    · exact Counts.ok le_rfl
  · unfold reloadMovedB; split
    · exact reloadB_counts u
    · exact Counts.ok le_rfl

theorem bodyShuf4_counts (s : State) : Counts 4 s (bodyShuf4 s) := by
  unfold bodyShuf4
  refine Counts.after_read (by omega) (loadV4_reads s _ _) fun va _ => ?_
  refine Counts.after_read (by omega) (loadV4_reads s _ _) fun vb _ => ?_
  exact Counts.bind (N := 4) (M := 0) (Counts.of_eq (t := State.setWork s _) (by rfl)
      (compactStore4_counts _ _ _)) fun t _ =>
    Counts.ok (by rw [advance_count]; omega)

theorem bodyShuf8_counts (s : State) : Counts 8 s (bodyShuf8 s) := by
  unfold bodyShuf8
  refine Counts.after_read (by omega) (loadV4_reads s _ _) fun va0 _ => ?_
  refine Counts.after_read (by omega) (loadV4_reads s _ _) fun va1 _ => ?_
  refine Counts.after_read (by omega) (loadV4_reads s _ _) fun vb0 _ => ?_
  refine Counts.after_read (by omega) (loadV4_reads s _ _) fun vb1 _ => ?_
  refine Counts.bind (N := 4) (M := 4) (Counts.of_eq (t := State.setWork s _) (by rfl)
      (compactStore4_counts _ _ _)) fun t _ => ?_
  exact Counts.bind (N := 4) (M := 0) (compactStore4_counts _ _ _) fun u _ => Counts.ok (by rw [advance_count]; omega)

theorem bodyShuf256_counts (s : State) : Counts 8 s (bodyShuf256 s) := by
  unfold bodyShuf256
  refine Counts.after_read (by omega) (loadV8_reads s _ _) fun ya _ => ?_
  refine Counts.after_read (by omega) (loadV8_reads s _ _) fun yb _ => ?_
  exact Counts.bind (N := 8) (M := 0) (Counts.of_eq (t := State.setWork s _) (by rfl)
      (compactStore8_counts _ _ _)) fun t _ =>
    Counts.ok (by rw [advance_count]; omega)

theorem settle_counts {N : Nat} {s : State} {x : Except Raised State} (h : Counts N s x) :
    (settle x).work.c ≤ s.work.c + N := by
  cases x with
  | ok t => exact h.1 t rfl
  | error e => exact h.2 e rfl

theorem enterQfV2_counts (s : State) : Counts 0 s (enterQfV2 s) := by
  unfold enterQfV2
  exact Counts.bind (N := 0) (M := 0) (Counts.of_eq rfl (reloadA_counts (s.setPhase .vec))) fun t _ => reloadB_counts t

theorem dispatch_counts (i : Instr) (s : State) : (dispatch i s).work.c ≤ s.work.c := by
  cases i with
  | qfV2 co => exact settle_counts (enterQfV2_counts s)
  | _ => exact le_rfl

theorem gate_counts (n : Bool) (i : Instr) (s : State) : (gate n i s).work.c ≤ s.work.c := by
  unfold gate; split
  · exact le_rfl
  · exact dispatch_counts i s

/-- One step of the engine counts at most eight elements. -/
theorem engineStep_counts (s : State) : (engineStep s).work.c ≤ s.work.c + 8 := by
  have hn : ∀ t, (noteIrq t).work.c = t.work.c := fun t => by rcases noteIrq_cases t with h | h <;> rw [h]; rfl
  unfold engineStep
  cases hp : s.phase with
  | idle => simp
  | launch =>
    simp only [hn]
    unfold launchStep
    split
    · exact Nat.le_add_right _ _
    · split
      · exact (gate_counts _ _ s).trans (Nat.le_add_right _ _)
      · split
        · exact Nat.le_add_right _ _
        · exact (gate_counts _ _ s).trans (Nat.le_add_right _ _)
  | tbuild =>
    simp only [hn]
    unfold buildStep
    split
    · exact Nat.le_add_right _ _
    · exact (dispatch_counts _ (buildTables s)).trans (Nat.le_add_right _ _)
  | vec =>
    simp only [hn]
    unfold vecStep
    split
    · exact Nat.le_add_right _ _
    · exact Nat.le_add_right _ _
    · exact Nat.le_add_right _ _
    · unfold vecGallop; split
      · exact settle_counts ((gallopBody_counts s).mono (by omega))
      · exact Nat.le_add_right _ _
    · unfold vecQfB4; split
      · exact settle_counts ((bodyQfB4_counts s).mono (by omega))
      · exact Nat.le_add_right _ _
    · unfold vecQfV2; split
      · exact settle_counts ((bodyQfV2_counts s).mono (by omega))
      · exact Nat.le_add_right _ _
    · unfold vecShuf4; split
      · exact settle_counts ((bodyShuf4_counts s).mono (by omega))
      · exact Nat.le_add_right _ _
    · unfold vecShuf8; split
      · exact settle_counts ((bodyShuf8_counts s).mono (by omega))
      · exact Nat.le_add_right _ _
    · unfold vecShuf256; split
      · exact settle_counts ((bodyShuf256_counts s).mono (by omega))
      · exact Nat.le_add_right _ _
  | tail =>
    simp only [hn]
    unfold tailIter; split
    · exact settle_counts ((mergeBody_counts s).mono (by omega))
    · exact Nat.le_add_right _ _

theorem CursorsBounded.count_le {s : State} (h : CursorsBounded s) (hb : s.busy = true) : s.work.c ≤ s.na + s.nb := by
  cases hp : s.phase with
  | idle => exact absurd hp (busy_iff.1 hb)
  | launch => have := h.1 (.inl hp); omega
  | tbuild => have := h.1 (.inr hp); omega
  | vec => have := h.2 (.inl hp); omega
  | tail => have := h.2 (.inr hp); omega

/-- How a command run to its end leaves the engine. -/
theorem run_outcome {n : Nat} {s : State} (hb : s.busy = true) (hn : budget s ≤ n) :
    ∃ u r, Advances s u ∧ runToIdle n s = noteIrq r ∧ (r = complete u ∨ ∃ f p, r = takeFault f p u) ∧
      (CursorsBounded s → u.work.c ≤ s.na + s.nb + 8) := by
  have hnw : ∀ t, (noteIrq t).work = t.work := fun t => by rcases noteIrq_cases t with h | h <;> rw [h]; rfl
  induction n generalizing s with
  | zero => have := budget_pos hb; omega
  | succ n ih =>
    rw [runToIdle_succ n hb]
    have hlt := engineStep_budget hb
    obtain ⟨t, e, he⟩ := engineStep_ends hb
    have hcount : ∀ u : State, CursorsBounded s → (engineStep s).work.c = u.work.c → u.work.c ≤ s.na + s.nb + 8 := by
      intro u hc h
      have h1 := engineStep_counts s
      have h2 := hc.count_le hb
      omega
    cases he with
    | running g bt =>
      rw [noteIrq_of_busy bt] at e
      rw [e] at hlt ⊢
      obtain ⟨u, r, h1, h2, h3, h4⟩ := ih bt (by omega)
      refine ⟨u, r, g.trans h1, h2, h3, fun hc => ?_⟩
      have e1 : t.na = s.na := by unfold State.na; rw [g.regs]
      have e2 : t.nb = s.nb := by unfold State.nb; rw [g.regs]
      have := h4 (by rw [← e]; exact engineStep_bounded hc)
      omega
    | completed u g e2 =>
      subst e2
      refine ⟨u, complete u, g, ?_, .inl rfl, fun hc => hcount u hc (by rw [e, hnw]; rfl)⟩
      rw [e, runToIdle_idle]
      exact noteIrq_lift (P := fun s => s.phase = .idle) (fun _ _ h => h) rfl
    | faulted u f p g e2 =>
      subst e2
      refine ⟨u, takeFault f p u, g, ?_, .inr ⟨f, p, rfl⟩, fun hc => hcount u hc (by rw [e, hnw]; rfl)⟩
      rw [e, runToIdle_idle]
      exact noteIrq_lift (P := fun s => s.phase = .idle) (fun _ _ h => h) rfl

/-- How a word run on an idle engine ends. -/
theorem runWord_outcome (v : Reg64) {s : State} (h : s.phase = .idle) :
    ∃ u r, Advances (launch v s) u ∧ runWord v s = r.setHost { r.host with unseen := [] } ∧
      (r = complete u ∨ ∃ f p, r = takeFault f p u) ∧ u.work.c ≤ s.na + s.nb + 8 := by
  unfold runWord
  simp only
  rw [hostWrite_launch v h]
  obtain ⟨u, r, h1, h2, h3, h4⟩ := run_outcome (s := launch v s) rfl (budget_le_fuel (launch v s))
  refine ⟨u, r, h1, ?_, h3, h4 ⟨fun _ => ⟨rfl, rfl, rfl⟩, fun h => (by rcases h with h | h <;> cases h), fun h =>
      (by cases h)⟩⟩
  rw [h2, observe_noteIrq_end h3]

end Sys2Proof.Machine
end

