-- ==== Sys2Proof/Laws/Emitted.lean ====
section
/-! SUPPORT. The mathematics of the kernels, apart from the machine (spec/45_qfilter.md R223, spec/44_galloping.md
R205): what has
been emitted when the cursors are at `i` and `j` are the common values that one of them has passed. -/

-- Elaborated one at a time: the package as one text would otherwise hold a thread and its stack for many theorems at once.
set_option Elab.async false

namespace Sys2Proof.Machine

/-- The first `n` values of a sequence ascend strictly (R14). -/
def Rising (a : Nat → Elem) (n : Nat) : Prop := ∀ x y, x < y → y < n → (a x).toNat < (a y).toNat

theorem Rising.inj {a : Nat → Elem} {n x y : Nat} (h : Rising a n) (hx : x < n) (hy : y < n) (e : a x = a y) : x = y := by
  rcases Nat.lt_trichotomy x y with hxy | hxy | hxy
  · have := h x y hxy hy; rw [e] at this; omega
  · exact hxy
  · have := h y x hxy hx; rw [e] at this; omega

theorem Rising.le {a : Nat → Elem} {n x y : Nat} (h : Rising a n) (hxy : x ≤ y) (hy : y < n) :
    (a x).toNat ≤ (a y).toNat := by
  rcases Nat.lt_or_eq_of_le hxy with hlt | rfl
  · exact (h x y hlt hy).le
  · exact le_rfl

theorem Rising.lt_of_lt {a : Nat → Elem} {n x y : Nat} (h : Rising a n) (hx : x < n)
    (e : (a x).toNat < (a y).toNat) : x < y := by
  by_contra hc
  have := h.le (not_lt.1 hc) hx
  omega

/-- The values the two sequences share. -/
def Common (a b : Nat → Elem) (na nb : Nat) (e : Elem) : Prop := (∃ x, x < na ∧ a x = e) ∧ ∃ y, y < nb ∧ b y = e

/-- The values one of the cursors has passed (R223). -/
def Passed (a b : Nat → Elem) (i j : Nat) (e : Elem) : Prop := (∃ x, x < i ∧ a x = e) ∨ ∃ y, y < j ∧ b y = e

/-- What has been emitted when the cursors are at `i`, `j` (R223): the common values that one of them has passed,
ascending. -/
structure Emitted (a b : Nat → Elem) (na nb i j : Nat) (E : List Elem) : Prop where
  sorted : Ascending E
  mem : ∀ e, e ∈ E ↔ Common a b na nb e ∧ Passed a b i j e

theorem Emitted.start (a b : Nat → Elem) (na nb : Nat) : Emitted a b na nb 0 0 [] :=
  ⟨List.Pairwise.nil, fun e => ⟨fun h => (by cases h), fun h => (by
    rcases h.2 with ⟨x, hx, _⟩ | ⟨y, hy, _⟩ <;> omega)⟩⟩

section

variable {a b : Nat → Elem} {na nb i j i' j' : Nat} {E Ms : List Elem}

/-- Emitting the matches between what the cursors have yet to pass and then moving the cursors keeps `Emitted`. -/
theorem Emitted.extend (ha : Rising a na) (hb : Rising b nb) (h : Emitted a b na nb i j E) (hi : i ≤ i') (hj : j ≤ j')
    (hi' : i' ≤ na) (hj' : j' ≤ nb) (hs : Ascending Ms)
    (sound : ∀ e ∈ Ms, ∃ x y, i ≤ x ∧ x < na ∧ j ≤ y ∧ y < nb ∧ a x = e ∧ b y = e ∧ (x < i' ∨ y < j'))
    (complete : ∀ x y, i ≤ x → x < na → j ≤ y → y < nb → a x = b y → (x < i' ∨ y < j') → a x ∈ Ms) :
    Emitted a b na nb i' j' (E ++ Ms) := by
  refine ⟨List.pairwise_append.2 ⟨h.sorted, hs, fun e he e' he' => ?_⟩, fun e => ?_⟩
  · obtain ⟨x, y, hx, hxn, hy, hyn, ex, ey, -⟩ := sound e' he'
    rcases ((h.mem e).1 he).2 with ⟨u, hu, eu⟩ | ⟨u, hu, eu⟩
    · rw [← eu, ← ex]; exact ha u x (by omega) hxn
    · rw [← eu, ← ey]; exact hb u y (by omega) hyn
  · rw [List.mem_append, h.mem e]
    constructor
    · rintro (⟨hc, hp⟩ | he)
      · refine ⟨hc, ?_⟩
        rcases hp with ⟨u, hu, eu⟩ | ⟨u, hu, eu⟩
        · exact .inl ⟨u, by omega, eu⟩
        · exact .inr ⟨u, by omega, eu⟩
      · obtain ⟨x, y, hx, hxn, hy, hyn, ex, ey, ho⟩ := sound e he
        refine ⟨⟨⟨x, hxn, ex⟩, y, hyn, ey⟩, ?_⟩
        rcases ho with ho | ho
        · exact .inl ⟨x, ho, ex⟩
        · exact .inr ⟨y, ho, ey⟩
    · rintro ⟨⟨⟨x, hxn, ex⟩, y, hyn, ey⟩, hp⟩
      by_cases hx : x < i
      · exact .inl ⟨⟨⟨x, hxn, ex⟩, y, hyn, ey⟩, .inl ⟨x, hx, ex⟩⟩
      · by_cases hy : y < j
        · exact .inl ⟨⟨⟨x, hxn, ex⟩, y, hyn, ey⟩, .inr ⟨y, hy, ey⟩⟩
        · refine .inr ?_
          rw [← ex]
          refine complete x y (by omega) hxn (by omega) hyn (ex.trans ey.symm) ?_
          rcases hp with ⟨u, hu, eu⟩ | ⟨u, hu, eu⟩
          · have : u = x := ha.inj (by omega) hxn (eu.trans ex.symm)
            exact .inl (by omega)
          · have : u = y := hb.inj (by omega) hyn (eu.trans ey.symm)
            exact .inr (by omega)

/-- Moving the cursors past values that have no partner ahead. -/
theorem Emitted.skip (ha : Rising a na) (hb : Rising b nb) (h : Emitted a b na nb i j E) (hi : i ≤ i') (hj : j ≤ j')
    (hi' : i' ≤ na) (hj' : j' ≤ nb)
    (none : ∀ x y, i ≤ x → x < na → j ≤ y → y < nb → (x < i' ∨ y < j') → a x ≠ b y) :
    Emitted a b na nb i' j' E := by
  have := h.extend ha hb hi hj hi' hj' (Ms := []) List.Pairwise.nil (by intro e he; cases he)
    (fun x y hx hxn hy hyn e ho => absurd e (none x y hx hxn hy hyn ho))
  simpa using this

/-- R192, equal elements. -/
theorem Emitted.both (ha : Rising a na) (hb : Rising b nb) (h : Emitted a b na nb i j E) (hi : i < na) (hj : j < nb)
    (e : a i = b j) : Emitted a b na nb (i + 1) (j + 1) (E ++ [a i]) := by
  refine h.extend ha hb (by omega) (by omega) hi hj (List.pairwise_singleton _ _) ?_ ?_
  · intro v hv
    rw [List.mem_singleton] at hv
    exact ⟨i, j, le_rfl, hi, le_rfl, hj, hv.symm, by rw [hv, e], .inl (by omega)⟩
  · intro x y hx hxn hy hyn hxy ho
    rw [List.mem_singleton]
    rcases ho with ho | ho
    · have : x = i := by omega
      rw [this]
    · have : y = j := by omega
      rw [hxy, this, e]

/-- R192, A's element smaller. -/
theorem Emitted.left (ha : Rising a na) (hb : Rising b nb) (h : Emitted a b na nb i j E) (hi : i < na) (hj : j < nb)
    (e : (a i).toNat < (b j).toNat) : Emitted a b na nb (i + 1) j E := by
  refine h.skip ha hb (by omega) le_rfl hi (by omega) fun x y hx hxn hy hyn ho hxy => ?_
  have hx' : x = i := by omega
  have := hb.le hy hyn
  rw [hx'] at hxy
  rw [hxy] at e; omega

/-- R192, B's element smaller. -/
theorem Emitted.right (ha : Rising a na) (hb : Rising b nb) (h : Emitted a b na nb i j E) (hi : i < na) (hj : j < nb)
    (e : (b j).toNat < (a i).toNat) : Emitted a b na nb i (j + 1) E := by
  refine h.skip ha hb le_rfl (by omega) (by omega) hj fun x y hx hxn hy hyn ho hxy => ?_
  have hy' : y = j := by omega
  have := ha.le hx hxn
  rw [hy'] at hxy
  rw [hxy] at this; omega

/-- R155, R223: a visited pair of blocks of width `W`, its matches emitted, then the side with the smaller maximum
moved. -/
theorem Emitted.block {W : Nat} (ha : Rising a na) (hb : Rising b nb) (h : Emitted a b na nb i j E) (hW : 0 < W)
    (hi : i + W ≤ na)
    (hj : j + W ≤ nb) (hs : Ascending Ms) (hm : ∀ e, e ∈ Ms ↔ ∃ x y, i ≤ x ∧ x < i + W ∧ j ≤ y ∧ y < j + W ∧
        a x = e ∧ b y = e)
    (hmove : (a (i + W - 1) = b (j + W - 1) ∧ i' = i + W ∧ j' = j + W) ∨
      ((a (i + W - 1)).toNat < (b (j + W - 1)).toNat ∧ i' = i + W ∧ j' = j) ∨
      ((b (j + W - 1)).toNat < (a (i + W - 1)).toNat ∧ i' = i ∧ j' = j + W)) :
    Emitted a b na nb i' j' (E ++ Ms) := by
  refine h.extend ha hb (by omega) (by omega) (by omega) (by omega) hs ?_ ?_
  · intro e he
    obtain ⟨x, y, h1, h2, h3, h4, h5, h6⟩ := (hm e).1 he
    exact ⟨x, y, h1, by omega, h3, by omega, h5, h6, by omega⟩
  · intro x y hx hxn hy hyn e ho
    refine (hm _).2 ⟨x, y, hx, ?_, hy, ?_, rfl, e.symm⟩
    · by_contra hc
      have h1 := ha (i + W - 1) x (by omega) hxn
      have h2 : y < j + W := by omega
      have h3 := hb.le (show y ≤ j + W - 1 by omega) (by omega)
      rw [e] at h1
      rcases hmove with ⟨m, _, _⟩ | ⟨m, _, _⟩ | ⟨m, _, _⟩
      · rw [m] at h1; omega
      · omega
      · omega
    · by_contra hc
      have h1 := hb (j + W - 1) y (by omega) hyn
      have h2 : x < i + W := by omega
      have h3 := ha.le (show x ≤ i + W - 1 by omega) (by omega)
      rw [e] at h3
      rcases hmove with ⟨m, _, _⟩ | ⟨m, _, _⟩ | ⟨m, _, _⟩
      · rw [m] at h3; omega
      · omega
      · omega

/-- R202, R203: an element of A against the leftmost 4-block of B whose maximum is not below it. -/
theorem Emitted.gallop {k k' : Nat} (ha : Rising a na) (hb : Rising b nb) (h : Emitted a b na nb i (4 * k) E)
    (hi : i < na)
    (hk : k ≤ k') (hk' : 4 * k' + 4 ≤ nb) (hmax : (a i).toNat ≤ (b (4 * k' + 3)).toNat)
    (hleft : ∀ n, k ≤ n → n < k' → (b (4 * n + 3)).toNat < (a i).toNat) (hs : Ascending Ms)
    (hm : ∀ e, e ∈ Ms ↔ e = a i ∧ ∃ y, 4 * k' ≤ y ∧ y < 4 * k' + 4 ∧ b y = a i) :
    Emitted a b na nb (i + 1) (4 * k') (E ++ Ms) := by
  have low : ∀ y, 4 * k ≤ y → y < 4 * k' → (b y).toNat < (a i).toNat := by
    intro y h1 h2
    have := hleft (y / 4) (by omega) (by omega)
    have := hb.le (show y ≤ 4 * (y / 4) + 3 by omega) (by omega)
    omega
  refine h.extend ha hb (by omega) (by omega) hi (by omega) hs ?_ ?_
  · intro e he
    obtain ⟨h1, y, h2, h3, h4⟩ := (hm e).1 he
    exact ⟨i, y, le_rfl, hi, by omega, by omega, h1.symm, by rw [h4, h1], .inl (by omega)⟩
  · intro x y hx hxn hy hyn e ho
    have hax := ha.le hx hxn
    have hy1 : 4 * k' ≤ y := by
      by_contra hc
      have := low y hy (by omega)
      rw [e] at hax; omega
    have hx1 : x = i := by omega
    subst hx1
    refine (hm _).2 ⟨rfl, y, hy1, ?_, e.symm⟩
    have : ¬ (b (4 * k' + 3)).toNat < (b y).toNat := by rw [← e]; omega
    by_contra hc
    exact this (hb _ _ (by omega) hyn)

/-- When one cursor has passed its whole set, everything common has been emitted. -/
theorem Emitted.all (h : Emitted a b na nb i j E) (hend : i = na ∨ j = nb) (e : Elem) : e ∈ E ↔ Common a b na nb e := by
  rw [h.mem e]
  refine ⟨fun h => h.1, fun h => ⟨h, ?_⟩⟩
  rcases hend with rfl | rfl
  · exact .inl h.1
  · exact .inr h.2

/-- What has been emitted is downward closed among the common values. -/
theorem Emitted.closed (ha : Rising a na) (hb : Rising b nb) (h : Emitted a b na nb i j E) {e f : Elem} (he : e ∈ E)
    (hf : Common a b na nb f)
    (hlt : f.toNat < e.toNat) : f ∈ E := by
  rw [h.mem] at he ⊢
  refine ⟨hf, ?_⟩
  obtain ⟨⟨x, hx, ex⟩, y, hy, ey⟩ := hf
  rcases he.2 with ⟨u, hu, eu⟩ | ⟨u, hu, eu⟩
  · exact .inl ⟨x, by have := ha.lt_of_lt (y := u) hx (by rw [ex, eu]; exact hlt); omega, ex⟩
  · exact .inr ⟨y, by have := hb.lt_of_lt (y := u) hy (by rw [ey, eu]; exact hlt); omega, ey⟩

end

/-- Ascending lists with the same members are equal. -/
theorem Ascending.ext {E F : List Elem} (hE : Ascending E) (hF : Ascending F) (h : ∀ e, e ∈ E ↔ e ∈ F) : E = F := by
  induction E generalizing F with
  | nil =>
    cases F with
    | nil => rfl
    | cons f fs => exact absurd ((h f).2 (by simp)) (by simp)
  | cons e es ih =>
    cases F with
    | nil => exact absurd ((h e).1 (by simp)) (by simp)
    | cons f fs =>
      obtain ⟨he, hes⟩ := List.pairwise_cons.1 hE
      obtain ⟨hf, hfs⟩ := List.pairwise_cons.1 hF
      have hef : e = f := by
        rcases List.mem_cons.1 ((h e).1 (by simp)) with h1 | h1
        · exact h1
        · rcases List.mem_cons.1 ((h f).2 (by simp)) with h2 | h2
          · exact h2.symm
          · have := hf e h1; have := he f h2; omega
      subst hef
      congr 1
      refine ih hes hfs fun v => ⟨fun hv => ?_, fun hv => ?_⟩
      · rcases List.mem_cons.1 ((h v).1 (by simp [hv])) with rfl | h1
        · exact absurd (he v hv) (lt_irrefl _)
        · exact h1
      · rcases List.mem_cons.1 ((h v).2 (by simp [hv])) with rfl | h1
        · exact absurd (hf v hv) (lt_irrefl _)
        · exact h1

/-- An ascending list whose members are the first of another is the front of it. -/
theorem Ascending.front {E F : List Elem} (hE : Ascending E) (hF : Ascending F) (hsub : ∀ e ∈ E, e ∈ F)
    (hcl : ∀ e ∈ E, ∀ f ∈ F, f.toNat < e.toNat → f ∈ E) : E.length ≤ F.length ∧ F.take E.length = E := by
  induction E generalizing F with
  | nil => simp
  | cons e es ih =>
    cases F with
    | nil => exact absurd (hsub e (by simp)) (by simp)
    | cons f fs =>
      obtain ⟨he, hes⟩ := List.pairwise_cons.1 hE
      obtain ⟨hf, hfs⟩ := List.pairwise_cons.1 hF
      have hef : e = f := by
        rcases List.mem_cons.1 (hsub e (by simp)) with h1 | h1
        · exact h1
        · have h2 := hf e h1
          rcases List.mem_cons.1 (hcl e (by simp) f (by simp) h2) with h3 | h3
          · exact h3.symm
          · have := he f h3; omega
      subst hef
      obtain ⟨h1, h2⟩ := ih hes hfs (fun v hv => (by
          rcases List.mem_cons.1 (hsub v (by simp [hv])) with rfl | h1
          · exact absurd (he v hv) (lt_irrefl _)
          · exact h1))
        (fun v hv u hu hlt => (by
          rcases List.mem_cons.1 (hcl v (by simp [hv]) u (by simp [hu]) hlt) with rfl | h1
          · exact absurd (hf u hu) (lt_irrefl _)
          · exact h1))
      exact ⟨by simpa using h1, by simp [h2]⟩

end Sys2Proof.Machine
end

