-- ==== Sys2Proof/Laws/PerInstr.lean ====
section
/-! SUPPORT. Statements made for every instruction, one lemma per constructor: the word a command is written with is legal
and carries the command's fields (spec/30_encoding.md R90, R94). -/

-- Elaborated one at a time: the package as one text would otherwise hold a thread and its stack for many theorems at once.
set_option Elab.async false

namespace Sys2Proof.Laws.Words

/-- The command is well-formed, and its word has its fields. -/
def Statement (i : Instr) : Prop := i.wellFormed = true ∧ wordFields (encode i) = i.fields

theorem tbld : Statement .tbld := by unfold Statement; decide

theorem merge : Statement .merge := by unfold Statement; decide

theorem gallop (co : Bool) : Statement (.gallop co) := by unfold Statement; revert co; decide

theorem qfB4 (co : Bool) : Statement (.qfB4 co) := by unfold Statement; revert co; decide

theorem qfV2 (co : Bool) : Statement (.qfV2 co) := by unfold Statement; revert co; decide

theorem shuf4 : Statement .shuf4 := by unfold Statement; decide

theorem shuf8 : Statement .shuf8 := by unfold Statement; decide

theorem shuf256 : Statement .shuf256 := by unfold Statement; decide

end Sys2Proof.Laws.Words
end

