-- ==== Sys2Proof/Tests/Slice0.lean ====
section
/-! SUPPORT. Tests: the expected values are those of spec/95_test_vectors.md (derived there from the rules by hand) or words
written out from the encoding of spec/30_encoding.md; and, for each statement that has hypotheses, a witness that meets
them. -/

-- Elaborated one at a time: the package as one text would otherwise hold a thread and its stack for many theorems at once.
set_option Elab.async false

namespace Sys2Proof.Tests

open Sys2Proof Sys2Proof.Machine

/-! ### Helpers -/

/-- Memory with elements laid out from an address. -/
def laid (p : Addr) (es : List Elem) (M : Memory) : Memory := Memory.writeBytes M p (es.flatMap elemBytes)

/-- The start state of spec/95_test_vectors.md section 1: A at 0x1000, B at 0x2000, the output at 0x3000. -/
def start (A B : List Elem) : State :=
  { State.reset with
    regs := { Regs.reset with
      aBase := 0x1000, aLen := BitVec.ofNat 32 A.length, bBase := 0x2000, bLen := BitVec.ofNat 32 B.length,
      outBase := 0x3000 }
    mem := laid 0x2000 B (laid 0x1000 A []) }

/-- Scenario 2. -/
def two : State := start [1, 2, 3, 4] [2, 4, 6, 8]

/-- Scenario 2 with the tables built. -/
def twoBuilt : State := two.setRegs { two.regs with tblValid := true }

/-- Scenario 3. -/
def three : State := start [1, 2, 3, 4, 5, 6, 7, 8] [1, 2, 3, 4, 5, 6, 7, 8]

/-- The state an outcome goes on in, or reset. -/
def after : Host.Outcome State Fault Refusal → State
  | .next t => t
  | .fault _ => State.reset
  | .refused _ => State.reset

/-- The model's own stop, where there is one. -/
def stopOf : Host.Outcome State Fault Refusal → Option Fault
  | .next _ => none
  | .fault f => some f
  | .refused _ => none

/-- STATUS, FAULT_ADDR and the elements in `OUT[0..COUNT)` after a command. -/
def seen (i : Instr) (s : State) : Reg64 × Addr × List Elem :=
  let t := after (exec i s)
  (hostRead 2 t, hostRead 10 t, setOf t.mem s.regs.outBase t.regs.count.toNat)

/-- A busy state: `s` in a phase with a word in CMD. -/
def inPhase (p : Phase) (v : Reg64) (s : State) : State := (launch v s).setPhase p

/-- `s` with one unreadable and one unwritable region. -/
def holes (r w : Region) (s : State) : State := { s with port := ⟨[r], [w]⟩ }

/-- `s` with host lines pending. -/
def playing (ls : List HostLine) (s : State) : State := { s with host := { s.host with script := ls } }

/-- A state in which the four bytes at 0x3000 are left to observe. -/
def stored (s : State) : State := { s with host := { s.host with unseen := [⟨0x3000, 4⟩] } }

/-! ### Well-formedness refuses each ill-formed word -/

theorem test_refuses_reserved_bits : Fields.wellFormed ⟨4, false, 1⟩ = false ∧ Fields.rsvZero ⟨4, false, 1⟩ = false := by decide

theorem test_refuses_reserved_opcodes :
    Fields.opKnown ⟨0, false, 0⟩ = false ∧ Fields.wellFormed ⟨0, false, 0⟩ = false ∧
      Fields.opKnown ⟨9, false, 0⟩ = false ∧ Fields.wellFormed ⟨0xFF, false, 0⟩ = false := by decide

theorem test_refuses_count_only_on_shuf4 :
    Fields.coAllowed ⟨6, true, 0⟩ = false ∧ Fields.wellFormed ⟨6, true, 0⟩ = false ∧
      Fields.wellFormed ⟨5, true, 0⟩ = true := by decide

/-! ### Decoding: words written out bit by bit (RSV, CO, OP) -/

theorem test_decode_tbld : decode ((0 : BitVec 55) ++ (0b0 : BitVec 1) ++ (0b00000001 : BitVec 8)) = .ok .tbld := by decide

theorem test_decode_merge : decode ((0 : BitVec 55) ++ (0b0 : BitVec 1) ++ (0b00000010 : BitVec 8)) = .ok .merge := by decide

theorem test_decode_gallop :
    decode ((0 : BitVec 55) ++ (0b0 : BitVec 1) ++ (0b00000011 : BitVec 8)) = .ok (.gallop false) ∧
      decode ((0 : BitVec 55) ++ (0b1 : BitVec 1) ++ (0b00000011 : BitVec 8)) = .ok (.gallop true) := by decide

theorem test_decode_qfB4 :
    decode ((0 : BitVec 55) ++ (0b0 : BitVec 1) ++ (0b00000100 : BitVec 8)) = .ok (.qfB4 false) ∧
      decode ((0 : BitVec 55) ++ (0b1 : BitVec 1) ++ (0b00000100 : BitVec 8)) = .ok (.qfB4 true) := by decide

theorem test_decode_qfV2 :
    decode ((0 : BitVec 55) ++ (0b0 : BitVec 1) ++ (0b00000101 : BitVec 8)) = .ok (.qfV2 false) ∧
      decode ((0 : BitVec 55) ++ (0b1 : BitVec 1) ++ (0b00000101 : BitVec 8)) = .ok (.qfV2 true) := by decide

theorem test_decode_shuf4 : decode ((0 : BitVec 55) ++ (0b0 : BitVec 1) ++ (0b00000110 : BitVec 8)) = .ok .shuf4 := by decide

theorem test_decode_shuf8 : decode ((0 : BitVec 55) ++ (0b0 : BitVec 1) ++ (0b00000111 : BitVec 8)) = .ok .shuf8 := by decide

theorem test_decode_shuf256 :
    decode ((0 : BitVec 55) ++ (0b0 : BitVec 1) ++ (0b00001000 : BitVec 8)) = .ok .shuf256 := by decide

/-- V-LN-1 to V-LN-5. -/
theorem test_decode_illegal :
    decode 0x106 = .error .countOnlyNotAllowed ∧ decode 0x000 = .error .reservedOpcode ∧
      decode 0x009 = .error .reservedOpcode ∧ decode 0x0FF = .error .reservedOpcode ∧
      decode 0x204 = .error .reservedBits ∧ decode 0x8000000000000004 = .error .reservedBits ∧
      decode 0x102 = .error .countOnlyNotAllowed ∧ decode 0x107 = .error .countOnlyNotAllowed ∧
      decode 0x108 = .error .countOnlyNotAllowed := by decide

/-- Table words are laid out least significant byte first; bits above the row's are 0. -/
theorem test_decode_table_word :
    decodeTableWord 64 0x103 = some (.gallop true) ∧ decodeTableWord 8 0x103 = some (.gallop false) ∧
      decodeTableWord 64 0x106 = none := by decide

/-! ### Datapath and tables -/

/-- V-TB-7, V-TB-8, V-TB-9, V-TB-12, V-TB-10, with the stored forms of V-TB-7 and V-TB-10. -/
theorem test_nct :
    nct 0x2010 = .single 0x60 ∧ nct 0x0420 = .single 0xE4 ∧ nct 0x8182 = .single 0xCD ∧ nct 0 = .noMatch ∧
      nct 0x8033 = .ambig ∧ storedVerdict (nct 0x2010) = 0x160 ∧ storedVerdict (nct 0xFFFF) = 0x200 := by decide

/-- V-TB-15. -/
theorem test_msd : (List.range 16).map (msd 0xCD) = [4, 5, 6, 7, 12, 13, 14, 15, 0, 1, 2, 3, 12, 13, 14, 15] := by decide

/-- V-TB-19. -/
theorem test_stage_patterns :
    (List.range 16).map (stagePattern goa 1) = [1, 1, 1, 1, 5, 5, 5, 5, 9, 9, 9, 9, 13, 13, 13, 13] ∧
      (List.range 16).map (stagePattern gob 2) = [2, 6, 10, 14, 2, 6, 10, 14, 2, 6, 10, 14, 2, 6, 10, 14] := by decide

/-- V-SH-3: `PERM8T[0xA0]`. -/
theorem test_perm8T : (List.range 8).map (perm8T 0xA0) = [5, 7, 0, 1, 2, 3, 4, 6] := by decide

/-- V-SH-1 and V-SH-2. -/
theorem test_rotMatch4 :
    rotMatch4 ⟨1, 2, 3, 4⟩ ⟨2, 4, 6, 8⟩ = 0b1010 ∧ rotMatch4 ⟨1, 2, 3, 4⟩ ⟨4, 3, 2, 1⟩ = 0b1111 := by decide

/-- V-SH-3: `Align8` at t = 2 and t = 5. -/
theorem test_align8 :
    lanes8 (align8 ⟨⟨3, 4, 5, 6⟩, ⟨7, 8, 9, 10⟩⟩ 2) = [5, 6, 3, 4, 9, 10, 7, 8] ∧
      lanes8 (align8 ⟨⟨3, 4, 5, 6⟩, ⟨7, 8, 9, 10⟩⟩ 5) = [8, 9, 10, 7, 4, 5, 6, 3] := by decide

/-- V-SH-4: the mask of SHUF256. -/
theorem test_alignMatch8 :
    alignMatch8 ⟨⟨2, 4, 6, 8⟩, ⟨10, 12, 14, 16⟩⟩ ⟨⟨1, 2, 3, 5⟩, ⟨7, 9, 10, 16⟩⟩ = 0x91 := by decide

/-- V-QF-4, first masks. -/
theorem test_stageMask :
    stageMask true ⟨0x101, 0x201, 0x302, 0x403⟩ ⟨0x201, 0x311, 0x304, 0x403⟩ 0 = 0x8033 ∧
      stageMask true ⟨0x101, 0x201, 0x302, 0x403⟩ ⟨0x201, 0x311, 0x304, 0x403⟩ 1 = 0x8610 := by decide +kernel

/-- V-QF-4, V-QF-7 and V-QF-8: SINGLE after a second stage, AMBIG to the end, a false candidate rejected. -/
theorem test_qfMatch :
    qfMatch true ⟨0x101, 0x201, 0x302, 0x403⟩ ⟨0x201, 0x311, 0x304, 0x403⟩ = 0b1010 ∧
      qfMatch true ⟨0x00, 0x10, 0x30, 0x50⟩ ⟨0x10, 0x20, 0x40, 0x50⟩ = 0b1010 ∧
      qfMatch true ⟨1, 0x7FFFFFFF, 0x80000000, 0xFFFFFFFF⟩ ⟨0x80000000, 0x80000001, 0xFFFFFFFE, 0xFFFFFFFF⟩ = 0b1100 := by
  decide +kernel

/-! ### Commands (at most two each) -/

/-- STATUS 0x0A after the first build (R173). -/
theorem test_tbld : seen .tbld State.reset = (0x0A, 0, []) := by decide +kernel

/-- V-MG-1 and V-RS-5. -/
theorem test_merge : seen .merge two = (0x02, 0, [2, 4]) := by decide +kernel

/-- V-MG-6: the comparison is unsigned. -/
theorem test_merge_unsigned :
    seen .merge (start [0x7FFFFFFF, 0x80000000] [0x80000000]) = (0x02, 0, [0x80000000]) := by decide +kernel

/-- V-GA-4: break with a match left for the tail. -/
theorem test_gallop :
    seen (.gallop false) (start [5, 100, 101] [1, 2, 3, 4, 5, 6, 7, 8, 9, 100]) = (0x02, 0, [5, 100]) := by decide +kernel

/-- V-LN-12: count only, with a misaligned OUT_BASE. -/
theorem test_gallop_co :
    let t := after (exec (.gallop true) (twoBuilt.setRegs { twoBuilt.regs with outBase := 0x3002 }))
    hostRead 2 t = 0x0A ∧ hostRead 9 t = 2 ∧ t.mem = two.mem := by decide +kernel

/-- V-QF-2 as a command, after reset. -/
theorem test_qfB4 : seen (.qfB4 false) two = (0x0A, 0, [2, 4]) := by decide +kernel

/-- Program P6: a bus write fault in the middle. -/
theorem test_qfB4_bus_write :
    seen (.qfB4 false) (holes ⟨0, 0⟩ ⟨0x3008, 0x1000⟩
      (start [1, 3, 5, 7, 9, 11, 13, 15, 17] [2, 3, 4, 7, 8, 9, 10, 15, 16, 17])) = (0x060C, 0x3008, [3, 7]) := by
  decide +kernel

/-- Program P4. -/
theorem test_qfV2 : seen (.qfV2 false) (start [1, 3, 5, 7, 9] [2, 3, 5, 8, 9, 10]) = (0x0A, 0, [3, 5, 9]) := by decide +kernel

/-- Program P4b: the padding is not readable. -/
theorem test_qfV2_padding_unreadable :
    seen (.qfV2 false) (holes ⟨0x1014, 12⟩ ⟨0, 0⟩ (start [1, 3, 5, 7, 9] [2, 3, 5, 8, 9, 10])) =
      (0x050C, 0x1010, [3, 5]) := by decide +kernel

/-- Program P1. -/
theorem test_shuf4 : seen .shuf4 two = (0x0A, 0, [2, 4]) := by decide +kernel

/-- V-LN-23: the window is padded, so the output overlaps A. -/
theorem test_shuf4_overlap :
    seen .shuf4 (twoBuilt.setRegs { twoBuilt.regs with aLen := 5, outBase := 0x1014 }) = (0x040C, 0x1000, []) := by
  decide +kernel

/-- V-SH-4. -/
theorem test_shuf8 :
    seen .shuf8 (start [2, 4, 6, 8, 10, 12, 14, 16] [1, 2, 3, 5, 7, 9, 10, 16]) = (0x0A, 0, [2, 10, 16]) := by
  decide +kernel

/-- V-SH-4. -/
theorem test_shuf256 :
    seen .shuf256 (start [2, 4, 6, 8, 10, 12, 14, 16] [1, 2, 3, 5, 7, 9, 10, 16]) = (0x0A, 0, [2, 10, 16]) := by
  decide +kernel

/-- V-LN-9. -/
theorem test_shuf256_misaligned :
    seen .shuf256 (twoBuilt.setRegs { twoBuilt.regs with bBase := 0x2010 }) = (0x020C, 0x2010, []) := by decide +kernel

/-! ### The host's lines -/

/-- V-LN-28 to V-LN-31. -/
theorem test_host_registers :
    hostRead 3 (hostWrite 3 0xFFFFFFFFFFFFFFFF two) = 1 ∧ hostRead 5 (hostWrite 5 0x1FFFFFFFF two) = 0xFFFFFFFF ∧
      hostRead 0 (hostWrite 0 5 two) = 0x49584531 ∧ hostWrite 9 5 two = two ∧ hostWrite 10 5 two = two ∧
      hostRead 11 two = 0 ∧ hostWrite 11 5 two = two := by decide

/-- V-LN-33. -/
theorem test_host_busy :
    let s := inPhase .vec 0x4 twoBuilt
    hostWrite 4 7 s = s ∧ hostWrite 1 2 s = s ∧ hostWrite 2 6 s = s ∧ (hostWrite 3 1 s).regs.ie = true ∧
      hostRead 2 s = 0x09 ∧ hostRead 9 s = 0 := by decide +kernel

/-- V-RS-3: reset while busy keeps memory and leaves nothing else. -/
theorem test_reset_while_busy :
    let t := after (step (playing [.reset] (inPhase .vec 0x4 twoBuilt)))
    hostRead 2 t = 0 ∧ hostRead 9 t = 0 ∧ t.irq = false ∧ t.mem = two.mem := by decide +kernel

/-! ### Witnesses: each statement's hypotheses are met -/

/-- Every byte answers where the platform lists no hole. -/
theorem test_open_platform (A B : List Elem) (q : Profile) (i : Instr) :
    WindowsAnswer q (launch (encode i) (start A B)) := ⟨fun _ _ => rfl, fun _ _ => rfl, fun _ _ => rfl⟩

/-- The seven kernel commands and their count-only forms can be launched on scenario 3. -/
theorem test_launchable :
    Launchable .merge ⟨4, 1, false⟩ three ∧ (∀ co, Launchable (.gallop co) ⟨4, 1, false⟩ three) ∧
      (∀ co, Launchable (.qfB4 co) ⟨4, 4, true⟩ three) ∧ (∀ co, Launchable (.qfV2 co) ⟨16, 4, true⟩ three) ∧
      Launchable .shuf4 ⟨4, 4, true⟩ three ∧ Launchable .shuf8 ⟨16, 8, true⟩ three ∧
      Launchable .shuf256 ⟨32, 8, true⟩ three := by
  refine ⟨⟨rfl, rfl, by decide +kernel, test_open_platform ..⟩, fun co => ⟨rfl, rfl, ?_, test_open_platform ..⟩,
    fun co => ⟨rfl, rfl, ?_, test_open_platform ..⟩, fun co => ⟨rfl, rfl, ?_, test_open_platform ..⟩,
    ⟨rfl, rfl, by decide +kernel, test_open_platform ..⟩, ⟨rfl, rfl, by decide +kernel, test_open_platform ..⟩,
    ⟨rfl, rfl, by decide +kernel, test_open_platform ..⟩⟩ <;> cases co <;> decide +kernel

/-- Scenarios 2 and 3 meet the contract. -/
theorem test_contract : Contract two ∧ Contract three := by decide +kernel

/-- Witness of IllegalWordsRaiseIllegalCmd: each way of being illegal, at the edges of the opcode range. -/
theorem test_witness_illegal : two.phase = .idle ∧
    (0x200 : BitVec 64).extractLsb' 9 55 ≠ 0 ∧ (∃ e, decode 0x201 = .error e) ∧ (∃ e, decode 0 = .error e) ∧
    (∃ e, decode 9 = .error e) ∧ (∃ e, decode 0x101 = .error e) := by
  refine ⟨rfl, by decide, ⟨.reservedBits, by decide⟩, ⟨.reservedOpcode, by decide⟩, ⟨.reservedOpcode, by decide⟩,
    ⟨.countOnlyNotAllowed, by decide⟩⟩

/-- Witness of StepRunsTheDecodedCommand and PlacedWordRunsNext. -/
theorem test_witness_step : (playing [.run 0x103] two).host.script = .run 0x103 :: [] ∧
    decode 0x103 = .ok (.gallop true) ∧ decodeTableWord 64 0x103 = some (.gallop true) := by decide

/-- A RUN line does what the engine's rule applications do one by one (RunIsCmdThenWait on scenario 2). -/
theorem test_witness_run : two.phase = .idle ∧
    after (step (playing [.run 0x2] two)) = after (Host.Core.run core 8 (playing [.write 1 0x2, .wait] two)) := by
  decide +kernel

/-- Witness of IdleEngineWaits. -/
theorem test_witness_idle : State.reset.phase = .idle ∧ State.reset.host.script = [] ∧ step State.reset = .next State.reset :=
  ⟨rfl, rfl, rfl⟩

/-- Witness of the statements about idle engines and host writes: a value with bits in every part. -/
theorem test_witness_host_write : two.phase = .idle ∧
    hostRead 4 (hostWrite 4 0xF00000000000000F two) = 0xF00000000000000F ∧
    hostRead 7 (hostWrite 7 0xF00000000000000F two) = 0xF ∧ hostRead 3 (hostWrite 3 0xF two) = 1 ∧
    hostRead 4 (hostWrite 5 9 two) = 0x1000 := by decide

/-- Witness of BusyReadsShowNoResult, BusyEngineDropsHostWrites and LaunchLatchesTheWord: a launched engine is busy. -/
theorem test_witness_busy : two.phase = .idle ∧ (hostWrite 1 0x104 two).phase ≠ .idle ∧
    (hostWrite 1 0x104 two).work.co = true ∧ hostRead 2 (hostWrite 1 0x104 two) = 0x01 ∧
    hostRead 2 (hostWrite 1 0x104 twoBuilt) = 0x09 := by decide

/-- Witness of StatusWordHoldsItsFields and AcknowledgeClearsWhatItNames: V-LN-26 and V-LN-27. -/
theorem test_witness_acknowledge :
    let s := twoBuilt.setRegs { twoBuilt.regs with fault := true, faultCode := 0x06, faultAddr := 0x3004, count := 1 }
    let d := twoBuilt.setRegs { twoBuilt.regs with done := true }
    s.phase = .idle ∧ hostRead 2 s = 0x060C ∧ hostRead 2 (hostWrite 2 0x4 s) = 0x08 ∧ hostRead 10 (hostWrite 2 0x4 s) = 0 ∧
      hostRead 9 (hostWrite 2 0x4 s) = 1 ∧ hostRead 2 (hostWrite 2 0x2 s) = 0x060C ∧
      hostRead 2 (hostWrite 2 0xFFFFFFFFFFFFFFFF d) = 0x08 := by decide

/-- Witness of InterruptFollowsCompletion: V-LN-32, IE at both values. -/
theorem test_witness_interrupt :
    (after (exec .tbld (two.setRegs { two.regs with ie := true }))).irq = true ∧ (after (exec .tbld two)).irq = false := by
  decide +kernel

/-- Witness of ResetInputKeepsMemory: reset in the middle of a command. -/
theorem test_witness_reset : (playing [.reset] (inPhase .vec 0x4 twoBuilt)).host.script = .reset :: [] ∧
    (inPhase .vec 0x4 twoBuilt).phase = .vec := by decide +kernel

/-- Witness of ChecksPassExactlyOnLegalWindows: V-LN-16 and V-LN-21 pass, V-LN-15 and V-LN-19 do not. -/
theorem test_witness_checks :
    launchChecks ⟨4, 1, false⟩ (two.setRegs { two.regs with aBase := 0xFFFFFFFFFFFFFFF0 }) = none ∧
      launchChecks ⟨4, 1, false⟩ (two.setRegs { two.regs with outBase := 0x1010 }) = none ∧
      launchChecks ⟨4, 1, false⟩ (two.setRegs { two.regs with aBase := 0xFFFFFFFFFFFFFFF0, aLen := 8 }) =
        some (.range, 0xFFFFFFFFFFFFFFF0) ∧
      launchChecks ⟨4, 1, false⟩ (two.setRegs { two.regs with outBase := 0x1008 }) = some (.overlap, 0x1000) ∧
      (windowOut two).has 0x300F = true ∧ (windowOut two).has 0x3010 = false := by decide +kernel

/-- Witness of PassedChecksNeverWrap and PassedChecksKeepAlignment: a window that ends at 2^64, its last element. -/
theorem test_witness_no_wrap :
    let s := two.setRegs { two.regs with aBase := 0xFFFFFFFFFFFFFFF0 }
    profileOf .merge = some ⟨4, 1, false⟩ ∧ launchChecks ⟨4, 1, false⟩ s = none ∧ s.work.co = false ∧
      3 < padTo 1 s.na ∧ 3 < padTo 1 s.nb ∧ 3 < min s.na s.nb ∧
      profileOf .shuf256 = some ⟨32, 8, true⟩ ∧ launchChecks ⟨32, 8, true⟩ three = none ∧ 4 * 8 % 32 = 0 ∧ three.work.co = false := by
  decide +kernel

/-- Witness of LaunchFaultIsPrecise: V-LN-6, V-LN-17 and V-LN-20. -/
theorem test_witness_launch_fault : two.phase = .idle ∧
    launchChecks ⟨16, 4, true⟩ (launch (encode (.qfV2 false)) (two.setRegs { two.regs with aBase := 0x1004 })) =
      some (.align, 0x1004) ∧
    launchChecks ⟨16, 8, true⟩ (launch (encode .shuf8) (two.setRegs { two.regs with aBase := 0xFFFFFFFFFFFFFFF0, aLen := 3 })) =
      some (.range, 0xFFFFFFFFFFFFFFF0) ∧
    launchChecks ⟨4, 1, false⟩ (launch (encode .merge) (two.setRegs { two.regs with outBase := 0x200C })) =
      some (.overlap, 0x2000) := by decide +kernel

/-- Witness of BusFaultsAreAllOrNothing: for each access a region that answers and one that misses its last byte alone. -/
theorem test_witness_bus :
    let s := holes ⟨0x101F, 1⟩ ⟨0x301F, 1⟩ three
    (∀ t, t < 4 → s.port.readable ((0x1018 : Addr) + BitVec.ofNat 64 t) = true) ∧
      s.port.readable ((0x101C : Addr) + BitVec.ofNat 64 3) = false ∧
      (∀ t, t < 16 → s.port.readable (eltAddr 0x1000 3 + BitVec.ofNat 64 t) = true) ∧
      s.port.readable (eltAddr 0x1000 4 + BitVec.ofNat 64 15) = false ∧
      (∀ t, t < 32 → s.port.readable (eltAddr 0x2000 0 + BitVec.ofNat 64 t) = true) ∧
      s.port.readable (eltAddr 0x1000 0 + BitVec.ofNat 64 31) = false ∧
      (∀ t, t < 4 * 7 → s.port.writable ((0x3000 : Addr) + BitVec.ofNat 64 t) = true) ∧
      s.port.writable ((0x3000 : Addr) + BitVec.ofNat 64 31) = false := by decide +kernel

/-- Witness of MemoryIsLittleEndian's last clause, and V-PR-2. -/
theorem test_witness_load :
    (match loadV8 three 0x1000 0 with | .ok Y => some (lanes8 Y) | .error _ => none) = some [1, 2, 3, 4, 5, 6, 7, 8] ∧
      Memory.elem (Memory.writeBytes [] 0x1000 [0x78, 0x56, 0x34, 0x12]) 0x1000 = 0x12345678 := by decide +kernel

/-- Witness of the bounds of AlignmentsMeetEachPairOnce, RotatedCompareFindsEveryMatch and StageMaskComparesNibbles: the last
lane of each, and lane 7 against lane 3 (another half) at t = 4. -/
theorem test_witness_lanes :
    let Y : V256 := ⟨⟨10, 11, 12, 13⟩, ⟨14, 15, 16, 17⟩⟩
    lane8 (align8 Y 4) 7 = lane8 Y 3 ∧ lane8 (align8 Y 0) 7 = lane8 Y 7 ∧ lane4 (rot4 Y.lo 1) 3 = lane4 Y.lo 0 ∧
      (rotMatch4 ⟨9, 9, 9, 5⟩ ⟨5, 6, 7, 8⟩).getLsbD 3 = true ∧
      (stageMask true ⟨0, 0, 0, 0x05000000⟩ ⟨0, 0, 0, 0xF5000000⟩ 3).getLsbD (4 * 3 + 3) = true := by decide +kernel

/-- Witness of TablesHaveTheirProperties' verdict clauses: index 0, and V-TB-7's bit 13 (i = 3, u = 1). -/
theorem test_witness_tables : nct 0 = .noMatch ∧ nct 0x2010 = .single 0x60 ∧ (0x2010 : BitVec 16).getLsbD (4 * 3 + 1) = true ∧
    ((0x60 : BitVec 8).extractLsb' (2 * 3) 2).toNat = 1 := by decide

/-- Witness of CompactStore4FillsItsSlots: built, in both modes, with the last slot writable and not. -/
theorem test_witness_store4 : twoBuilt.regs.tblValid = true ∧ twoBuilt.work.co = false ∧
    (launch 0x104 twoBuilt).regs.tblValid = true ∧ (launch 0x104 twoBuilt).work.co = true ∧
    OnRegion ⟨outSlot twoBuilt, 4 * popcount (0b1010 : BitVec 4)⟩ twoBuilt.port.writable ∧
    ¬ OnRegion ⟨outSlot twoBuilt, 4 * popcount (0b1010 : BitVec 4)⟩ (holes ⟨0, 0⟩ ⟨0x3007, 1⟩ twoBuilt).port.writable :=
  ⟨rfl, rfl, rfl, rfl, fun _ _ => rfl, fun h => absurd (h 0x3007 (by decide)) (by decide)⟩

/-- Witness of CompactStore8FillsItsSlots. -/
theorem test_witness_store8 : twoBuilt.regs.tblValid = true ∧ twoBuilt.work.co = false ∧ (launch 0x104 twoBuilt).work.co = true ∧
    OnRegion ⟨outSlot twoBuilt, 4 * popcount (0xFF : BitVec 8)⟩ twoBuilt.port.writable ∧
    ¬ OnRegion ⟨outSlot twoBuilt, 4 * popcount (0xFF : BitVec 8)⟩ (holes ⟨0, 0⟩ ⟨0x301F, 1⟩ twoBuilt).port.writable :=
  ⟨rfl, rfl, rfl, fun _ _ => rfl, fun h => absurd (h 0x301F (by decide)) (by decide)⟩

/-- Scenario 2's lists in phase TAIL at two cursors. -/
def tailAt (i j : Nat) (v : Reg64) : State :=
  let s := inPhase .tail v twoBuilt
  s.setWork { s.work with i := i, j := j }

/-- MergeIterationFollowsTheSmaller where the elements differ: `OUT[c]` need not be writable. -/
theorem test_witness_merge_unequal :
    let s := holes ⟨0, 0⟩ ⟨0x3000, 4⟩ (tailAt 0 0 2)
    s.port.writable (outSlot s) = false ∧
      (match step s with | .next t => some (t.phase, t.work.i, t.work.j, t.work.c) | _ => none) = some (.tail, 1, 0, 0) := by
  decide +kernel

/-- Witness of MergeIterationFollowsTheSmaller: smaller, equal (both modes) and larger. -/
theorem test_witness_merge_iteration : (tailAt 0 0 2).phase = .tail ∧ (tailAt 0 0 2).host.script = [] ∧
    (tailAt 0 0 2).work.i < (tailAt 0 0 2).na ∧ (tailAt 0 0 2).work.j < (tailAt 0 0 2).nb ∧
    (Memory.elem two.mem (eltAddr 0x1000 0)).toNat < (Memory.elem two.mem (eltAddr 0x2000 0)).toNat ∧
    Memory.elem two.mem (eltAddr 0x1000 1) = Memory.elem two.mem (eltAddr 0x2000 0) ∧
    (Memory.elem two.mem (eltAddr 0x2000 0)).toNat < (Memory.elem two.mem (eltAddr 0x1000 2)).toNat ∧
    (tailAt 1 0 2).work.co = false ∧ (tailAt 1 0 0x103).work.co = true ∧
    OnRegion ⟨eltAddr 0x1000 1, 4⟩ (tailAt 1 0 2).port.readable ∧
    OnRegion ⟨outSlot (tailAt 1 0 2), 4⟩ (tailAt 1 0 2).port.writable :=
  ⟨rfl, rfl, by decide +kernel, by decide +kernel, by decide +kernel, by decide +kernel, by decide +kernel, rfl, rfl,
    fun _ _ => rfl, fun _ _ => rfl⟩

/-- V-GA-3's lists in phase VEC of GALLOP, at the fourth element. -/
def galloping (i k : Nat) : State :=
  let s := inPhase .vec 3 (start [3, 16, 17, 50, 78, 80, 81] ((List.range 40).map fun x => BitVec.ofNat 32 (2 * x + 2)))
  s.setWork { s.work with i := i, k := k, j := 4 * k }

/-- Witness of GallopSearchEndsByItsTests: V-GA-3's fourth element. -/
theorem test_witness_gallop_search :
    (match doubling (galloping 3 2) 2 50 searchFuel 1 with | .ok r => some r | .error _ => none) = some 4 ∧
      (match bisect (galloping 3 2) 2 50 searchFuel 2 4 0 with | .ok p => some p | .error _ => none) = some (4, 4, 3) := by
  decide +kernel

/-- Witness of GallopFindsTheLeftmostBlock: V-GA-3, the fourth element lands on block 6, the last one breaks. -/
theorem test_witness_gallop_block : (galloping 3 2).phase = .vec ∧ Ascending (setB (galloping 3 2)) ∧
    (galloping 3 2).work.k < nblk (galloping 3 2) ∧
    (match gallopBody (galloping 3 2) with | .ok t => some (t.work.k, t.phase) | .error _ => none) = some (6, .vec) ∧
    (match gallopBody (galloping 6 9) with | .ok t => some (t.work.k, t.phase) | .error _ => none) = some (9, .tail) := by
  decide +kernel

/-- V-QF-10 after the initial loads. -/
def resident : State :=
  after (.next (dispatch (.qfV2 false)
    (inPhase .launch 5 (start [1, 2, 3, 4, 9, 10, 11, 12] [3, 4, 5, 6, 7, 8, 9, 10, 11, 12, 13, 14]))))

/-- Witness of QfV2ReloadsOnlyTheMovedSide: V-QF-10's first visit moves A alone and keeps B's block, the second B alone. -/
theorem test_witness_reload :
    let s := resident.setRegs { resident.regs with tblValid := true }
    (match bodyQfV2 s with | .ok t => some (t.work.i, t.work.j, t.work.va, t.work.vb) | .error _ => none) =
      some (4, 0, ⟨9, 10, 11, 12⟩, ⟨3, 4, 5, 6⟩) ∧
    (match (bodyQfV2 s).bind bodyQfV2 with | .ok t => some (t.work.i, t.work.j, t.work.va, t.work.vb) | .error _ => none) =
      some (4, 4, ⟨9, 10, 11, 12⟩, ⟨7, 8, 9, 10⟩) := by decide +kernel

/-- Witness of the frames and outcomes of whole commands: one that ends in DONE and one that ends in a fault. -/
theorem test_witness_outcomes : two.phase = .idle ∧ (after (exec .merge two)).regs.done = true ∧
    (after (exec .merge (two.setRegs { two.regs with aBase := 0x1002 }))).regs.fault = true ∧
    (after (exec .shuf4 two)).regs.tblValid = true ∧
    (after (exec .shuf4 (two.setRegs { two.regs with aBase := 0x1002 }))).regs.tblValid = false := by decide +kernel

/-- Witness of EmptySetsGiveCountZero: scenario 1. -/
theorem test_witness_empty : Launchable (.qfV2 false) ⟨16, 4, true⟩ (start [] [1, 2, 3]) ∧ (start [] [1, 2, 3]).na = 0 ∧
    (start [1, 2, 3] []).nb = 0 ∧ Launchable .shuf8 ⟨16, 8, true⟩ (start [1, 2, 3] []) :=
  ⟨⟨rfl, rfl, by decide +kernel, test_open_platform ..⟩, rfl, rfl, ⟨rfl, rfl, by decide +kernel, test_open_platform ..⟩⟩

/-- Witness of the seven statements of the contract, and of KernelsAgree: every kernel command on scenario 3. -/
theorem test_witness_contract : Launchable .merge ⟨4, 1, false⟩ three ∧ Launchable .shuf256 ⟨32, 8, true⟩ three ∧
    Contract three ∧ interOf (setA three) (setB three) = [1, 2, 3, 4, 5, 6, 7, 8] :=
  ⟨test_launchable.1, test_launchable.2.2.2.2.2.2, test_contract.2, by decide +kernel⟩

/-- Witness of PaddingNeverMatters: scenario 5 with padding 0xFFFFFFFF and 0. -/
theorem test_witness_padding :
    let s := start [1, 3, 5, 7, 9] [2, 3, 5, 8, 9, 10]
    let M := laid 0x1014 [0xFFFFFFFF, 0xFFFFFFFF, 0xFFFFFFFF] s.mem
    Launchable (.qfV2 false) ⟨16, 4, true⟩ s ∧ Contract s ∧ setOf M s.regs.aBase s.na = setA s ∧
      setOf M s.regs.bBase s.nb = setB s ∧ M ≠ s.mem :=
  ⟨⟨rfl, rfl, by decide +kernel, test_open_platform ..⟩, by decide +kernel, by decide +kernel, by decide +kernel,
    by decide +kernel⟩

/-- BusFaultLeavesAPrefix for a block read and a block store: FAULT_ADDR is the lowest address of the access, not of the byte
that does not answer (R271). -/
theorem test_witness_bus_fault_address :
    seen .shuf256 (holes ⟨0x201C, 4⟩ ⟨0, 0⟩ three) = (0x050C, 0x2000, []) ∧
      seen .shuf8 (holes ⟨0, 0⟩ ⟨0x301C, 4⟩ three) = (0x060C, 0x3010, [1, 2, 3, 4]) := by decide +kernel

/-- Witness of BusFaultLeavesAPrefix: V-MG-9 and V-MG-10. -/
theorem test_witness_bus_fault :
    let w := holes ⟨0, 0⟩ ⟨0x3004, 4⟩ two
    let r := holes ⟨0x2004, 4⟩ ⟨0, 0⟩ two
    w.phase = .idle ∧ profileOf .merge = some ⟨4, 1, false⟩ ∧ launchChecks ⟨4, 1, false⟩ (launch (encode .merge) w) = none ∧
      Contract w ∧ seen .merge w = (0x0604, 0x3004, [2]) ∧
      launchChecks ⟨4, 1, false⟩ (launch (encode .merge) r) = none ∧ Contract r ∧
      seen .merge r = (0x0504, 0x2004, [2]) := by decide +kernel

/-- Witness of the invariants: a busy state in phase VEC with its cursors past a block meets all four, and steps. -/
theorem test_witness_invariants :
    let s := inPhase .vec 4 twoBuilt
    Memory.wf s.mem ∧ StatusCoherent s ∧ LatchCoherent s ∧ CursorsBounded s ∧ ∃ t, step s = .next t :=
  ⟨by decide +kernel, ⟨by decide, by decide, by decide, by decide⟩, ⟨by decide, fun _ _ => ⟨.qfB4 false, by decide⟩⟩,
    ⟨by decide, by decide +kernel, fun _ => ⟨rfl, rfl⟩⟩, ⟨_, rfl⟩⟩

/-- Witness of OnlyBusyWindowsStopTheHost, the stops: the last byte of each window of a busy engine. -/
theorem test_witness_touch :
    let s := inPhase .vec 4 twoBuilt
    s.phase ≠ .idle ∧ currentProfile s = some ⟨4, 4, true⟩ ∧ (windowA ⟨4, 4, true⟩ s).has 0x100F = true ∧
      (windowB ⟨4, 4, true⟩ s).has 0x200F = true ∧ (windowOut s).has 0x300F = true ∧
      (playing [.memWrite 0x100F 1] s).host.script = .memWrite 0x100F 1 :: [] ∧
      stopOf (step (playing [.memRead 0x300F] s)) = some .hostTouchesWindow ∧
      stopOf (step (playing [.memRead 0x3010] s)) = none := by decide +kernel

/-- Witness of OnlyBusyWindowsStopTheHost, the accesses that complete: beside a window of a busy engine, and on an idle one in
the first and the last byte of a store left to observe. -/
theorem test_witness_no_touch :
    let s := playing [.memWrite 0x1010 1] (inPhase .vec 4 twoBuilt)
    (∀ q, s.phase ≠ .idle → currentProfile s = some q →
      (windowA q s).has 0x1010 = false ∧ (windowB q s).has 0x1010 = false ∧ (windowOut s).has 0x1010 = false) ∧
      two.phase = .idle ∧ notYetSeen 0x3000 (stored two) = true ∧ notYetSeen 0x3003 (stored two) = true ∧
      notYetSeen 0x2FFF (stored two) = false ∧ notYetSeen 0x3004 (stored two) = false := by
  refine ⟨fun q _ h => ?_, by decide +kernel⟩
  cases h.symm.trans (show _ = some ⟨4, 4, true⟩ by decide +kernel)
  decide +kernel

/-- R310, R312: with completion not observed a host write lands, and the host reads back what it wrote. -/
theorem test_unseen_write :
    let t := after (hostMemWrite 0x3001 0xAB (stored two))
    (after (hostMemRead 0x3001 t)).host.got = [0xAB] ∧ notYetSeen 0x3000 t = true ∧ notYetSeen 0x3002 t = true := by
  decide +kernel

/-- R74, R312: a read of a byte left to observe goes on; no value is claimed. -/
theorem test_unseen_read : stopOf (hostMemRead 0x3001 (stored two)) = none ∧
    (after (hostMemRead 0x3001 (stored two))).host.draws = 1 := by decide +kernel

/-- Witness of CompletedOutputIsVisible. -/
theorem test_witness_visible : two.phase = .idle ∧ stopOf (hostMemRead 0x3000 (after (exec .merge two))) = none := by
  decide +kernel

end Sys2Proof.Tests
end

section
/-! The lines of a command (spec/30_encoding.md R96, R97): RUN against CMD and WAIT. The engine never looks at the host's
pending lines, so every rule application commutes with replacing them (`State.withScript`, `retag`); the run that CMD and
WAIT make is therefore the run that RUN makes. -/

-- Elaborated one at a time: the package as one text would otherwise hold a thread and its stack for many theorems at once.
set_option Elab.async false

namespace Sys2Proof.Machine

/-! ### Command words -/

/-- The word of a command decodes to it (R95). -/
theorem decode_encode (i : Instr) : decode (encode i) = .ok i := by
  cases i with
  | tbld | merge | shuf4 | shuf8 | shuf256 => decide
  | gallop co | qfB4 co | qfV2 co => cases co <;> decide

/-- The fields of a word say all of it (R90). -/
theorem word_wordFields (w : BitVec 64) : (wordFields w).word = w := by
  apply BitVec.eq_of_getLsbD_eq
  intro n hn
  simp only [Fields.word, wordFields, BitVec.getLsbD_append, BitVec.getLsbD_extractLsb']
  by_cases h8 : n < 8
  · simp [h8]
  · by_cases h9 : n < 9
    · have : n = 8 := by omega
      simp [this]
    · simp [h8, show 9 + (n - 8 - 1) = n by omega, show ¬ n - 8 < 1 by omega]
      omega

/-- The opcode map is the inverse of `Instr.opcode` (R91). -/
theorem opcode_of_commandOf {op : BitVec 8} {co : Bool} {i : Instr} (h : commandOf op co = some i) : i.opcode = op := by
  unfold commandOf at h
  split at h <;> cases h <;> exact BitVec.eq_of_toNat_eq (Eq.symm ‹op.toNat = _›)

/-- It keeps the count-only bit, where the opcode allows it (R92). -/
theorem countOnly_of_commandOf {i : Instr} {co : Bool} (hco : Fields.coAllowed ⟨i.opcode, co, 0⟩ = true)
    (h : commandOf i.opcode co = some i) : i.countOnly = co := by
  revert hco h
  cases i with
  | tbld | merge | shuf4 | shuf8 | shuf256 => revert co; decide
  | gallop c | qfB4 c | qfV2 c => revert c co; decide

theorem opKnown_opcode (i : Instr) (co : Bool) (rsv : BitVec 55) : Fields.opKnown ⟨i.opcode, co, rsv⟩ = true := by
  cases i <;> rfl

/-- A legal word is the word of the command it decodes to (R95). -/
theorem encode_of_decode {w : BitVec 64} {i : Instr} (h : decode w = .ok i) : w = encode i := by
  simp only [decode] at h
  rw [← word_wordFields w, encode]
  congr 1
  generalize wordFields w = f at h
  obtain ⟨op, co, rsv⟩ := f
  split at h
  · cases h
  · rename_i hrsv
    obtain rfl : rsv = 0 := by simpa [Fields.rsvZero] using hrsv
    split at h
    · cases h
    · rename_i hallowed
      split at h <;> cases h
      rename_i hcmd
      obtain rfl := opcode_of_commandOf hcmd
      obtain rfl := countOnly_of_commandOf (by simpa [opKnown_opcode] using hallowed) hcmd
      rfl

/-! ### The host's pending lines -/

/-- The state with other lines pending. -/
def State.withScript (ls : List HostLine) (s : State) : State := s.setHost { s.host with script := ls }

@[simp] theorem State.withScript_regs (ls : List HostLine) (s : State) : (s.withScript ls).regs = s.regs := rfl
@[simp] theorem State.withScript_phase (ls : List HostLine) (s : State) : (s.withScript ls).phase = s.phase := rfl
@[simp] theorem State.withScript_work (ls : List HostLine) (s : State) : (s.withScript ls).work = s.work := rfl
@[simp] theorem State.withScript_mem (ls : List HostLine) (s : State) : (s.withScript ls).mem = s.mem := rfl
@[simp] theorem State.withScript_port (ls : List HostLine) (s : State) : (s.withScript ls).port = s.port := rfl
@[simp] theorem State.withScript_script (ls : List HostLine) (s : State) : (s.withScript ls).host.script = ls := rfl
@[simp] theorem State.withScript_busy (ls : List HostLine) (s : State) : (s.withScript ls).busy = s.busy := rfl

/-- The outcome of a rule application, `g` applied to its answer and the pending lines replaced in the state a fault is
raised in. -/
def retag {α : Type} (ls : List HostLine) (g : α → α) : Except Raised α → Except Raised α
  | .ok a => .ok (g a)
  | .error e => .error { e with state := e.state.withScript ls }

section

variable {ls : List HostLine}

theorem retag_bind {α β : Type} {g : α → α} {h : β → β} {x y : Except Raised α} {f f' : α → Except Raised β}
    (hx : y = retag ls g x) (hf : ∀ a, f' (g a) = retag ls h (f a)) : (y >>= f') = retag ls h (x >>= f) := by
  subst hx
  cases x with
  | error e => rfl
  | ok a => exact hf a

theorem retag_after_read {α β : Type} {h : β → β} {x y : Except Raised α} {f f' : α → Except Raised β}
    (hx : y = retag ls id x) (hf : ∀ a, f' a = retag ls h (f a)) : (y >>= f') = retag ls h (x >>= f) :=
  retag_bind hx hf

theorem retag_ite {α : Type} {g : α → α} {P : Prop} [Decidable P] {x x' y y' : Except Raised α}
    (hx : x' = retag ls g x) (hy : y' = retag ls g y) :
    (if P then x' else y') = retag ls g (if P then x else y) := by
  split
  · exact hx
  · exact hy

theorem settle_retag (x : Except Raised State) : settle (retag ls (State.withScript ls) x) = (settle x).withScript ls := by
  cases x <;> rfl

/-! #### Accesses -/

theorem checkRead_withScript (s : State) (p : Addr) (n : Nat) :
    checkRead (s.withScript ls) p n = retag ls id (checkRead s p n) := retag_ite rfl rfl

theorem readElem_withScript (s : State) (p : Addr) :
    readElem (s.withScript ls) p = retag ls id (readElem s p) :=
  retag_after_read (checkRead_withScript s p 4) fun _ => rfl

theorem readA_withScript (s : State) (x : Nat) : readA (s.withScript ls) x = retag ls id (readA s x) :=
  readElem_withScript s _

theorem readB_withScript (s : State) (x : Nat) : readB (s.withScript ls) x = retag ls id (readB s x) :=
  readElem_withScript s _

theorem bmax_withScript (s : State) (t : Nat) : bmax (s.withScript ls) t = retag ls id (bmax s t) :=
  readB_withScript s _

theorem loadV4_withScript (s : State) (base : Addr) (x : Nat) :
    loadV4 (s.withScript ls) base x = retag ls id (loadV4 s base x) :=
  retag_after_read (checkRead_withScript s _ 16) fun _ => rfl

theorem loadV8_withScript (s : State) (base : Addr) (x : Nat) :
    loadV8 (s.withScript ls) base x = retag ls id (loadV8 s base x) :=
  retag_after_read (checkRead_withScript s _ 32) fun _ => rfl

theorem storeOut_withScript (es : List Elem) {s t : State} (h : t = s.withScript ls) :
    storeOut es t = retag ls (State.withScript ls) (storeOut es s) := by
  subst h; exact retag_ite rfl (retag_ite rfl rfl)

theorem emitElems_withScript (es : List Elem) {s t : State} (h : t = s.withScript ls) :
    emitElems es t = retag ls (State.withScript ls) (emitElems es s) :=
  retag_bind (storeOut_withScript es h) fun _ => rfl

theorem compactStore4_withScript (X : V128) (m : BitVec 4) {s t : State} (h : t = s.withScript ls) :
    compactStore4 X m t = retag ls (State.withScript ls) (compactStore4 X m s) := by
  subst h; exact retag_ite rfl (emitElems_withScript _ rfl)

theorem compactStore8_withScript (Y : V256) (m : BitVec 8) {s t : State} (h : t = s.withScript ls) :
    compactStore8 Y m t = retag ls (State.withScript ls) (compactStore8 Y m s) := by
  subst h; exact retag_ite rfl (emitElems_withScript _ rfl)

theorem advance_withScript (W : Nat) (u v : Elem) (s : State) :
    advance W u v (s.withScript ls) = (advance W u v s).withScript ls := by
  unfold advance
  split
  · rfl
  · split <;> rfl

/-! #### Loops -/

theorem mergeBody_withScript (s : State) :
    mergeBody (s.withScript ls) = retag ls (State.withScript ls) (mergeBody s) :=
  retag_after_read (readA_withScript s _) fun ea => retag_after_read (readB_withScript s _) fun _ =>
    retag_ite (retag_bind (emitElems_withScript [ea] rfl) fun _ => rfl) (retag_ite rfl rfl)

theorem doubling_withScript (s : State) (k : Nat) (a : Elem) (fuel r : Nat) :
    doubling (s.withScript ls) k a fuel r = retag ls id (doubling s k a fuel r) := by
  induction fuel generalizing r with
  | zero => rfl
  | succ n ih => exact retag_ite (retag_after_read (bmax_withScript s _) fun _ => retag_ite (ih _) rfl) rfl

theorem bisect_withScript (s : State) (k : Nat) (a : Elem) (fuel lower upper mid : Nat) :
    bisect (s.withScript ls) k a fuel lower upper mid = retag ls id (bisect s k a fuel lower upper mid) := by
  induction fuel generalizing lower upper mid with
  | zero => rfl
  | succ n ih => exact retag_ite (retag_after_read (bmax_withScript s _) fun _ => retag_ite (ih _ _ _) (ih _ _ _)) rfl

theorem emitOnMatch_withScript (a : Elem) (m : BitVec 4) {s t : State} (h : t = s.withScript ls) :
    emitOnMatch a m t = retag ls (State.withScript ls) (emitOnMatch a m s) := by
  subst h; exact retag_ite (emitElems_withScript [a] rfl) rfl

theorem probe_withScript (a : Elem) {s t : State} (h : t = s.withScript ls) :
    probe a t = retag ls (State.withScript ls) (probe a s) := by
  subst h
  exact retag_after_read (loadV4_withScript s _ _) fun _ => retag_bind (emitOnMatch_withScript a _ rfl) fun _ => rfl

theorem gallopBody_withScript (s : State) :
    gallopBody (s.withScript ls) = retag ls (State.withScript ls) (gallopBody s) :=
  retag_after_read (readA_withScript s _) fun a => retag_after_read (doubling_withScript s _ a _ _) fun _ =>
    retag_after_read (bmax_withScript s _) fun _ =>
      retag_ite rfl (retag_after_read (bisect_withScript s _ a _ _ _ _) fun _ => probe_withScript a rfl)

theorem filterBlocks_withScript {s t : State} (h : t = s.withScript ls) :
    filterBlocks t = retag ls (State.withScript ls) (filterBlocks s) := by
  subst h
  exact retag_bind (compactStore4_withScript _ _ rfl) fun _ => congrArg Except.ok (advance_withScript 4 _ _ _)

theorem bodyQfB4_withScript (s : State) :
    bodyQfB4 (s.withScript ls) = retag ls (State.withScript ls) (bodyQfB4 s) :=
  retag_after_read (loadV4_withScript s _ _) fun _ => retag_after_read (loadV4_withScript s _ _) fun _ => filterBlocks_withScript rfl

theorem reloadA_withScript (s : State) : reloadA (s.withScript ls) = retag ls (State.withScript ls) (reloadA s) :=
  retag_ite (retag_after_read (loadV4_withScript s _ _) fun _ => rfl) rfl

theorem reloadB_withScript (s : State) : reloadB (s.withScript ls) = retag ls (State.withScript ls) (reloadB s) :=
  retag_ite (retag_after_read (loadV4_withScript s _ _) fun _ => rfl) rfl

theorem reloadMovedA_withScript (s t : State) :
    reloadMovedA (s.withScript ls) (t.withScript ls) = retag ls (State.withScript ls) (reloadMovedA s t) :=
  retag_ite (reloadA_withScript t) rfl

theorem reloadMovedB_withScript (s t : State) :
    reloadMovedB (s.withScript ls) (t.withScript ls) = retag ls (State.withScript ls) (reloadMovedB s t) :=
  retag_ite (reloadB_withScript t) rfl

theorem bodyQfV2_withScript (s : State) :
    bodyQfV2 (s.withScript ls) = retag ls (State.withScript ls) (bodyQfV2 s) :=
  retag_bind (filterBlocks_withScript rfl) fun t => retag_bind (reloadMovedA_withScript s t) fun u =>
    reloadMovedB_withScript s u

theorem bodyShuf4_withScript (s : State) :
    bodyShuf4 (s.withScript ls) = retag ls (State.withScript ls) (bodyShuf4 s) :=
  retag_after_read (loadV4_withScript s _ _) fun _ => retag_after_read (loadV4_withScript s _ _) fun _ =>
    retag_bind (compactStore4_withScript _ _ rfl) fun _ => congrArg Except.ok (advance_withScript 4 _ _ _)

theorem bodyShuf8_withScript (s : State) :
    bodyShuf8 (s.withScript ls) = retag ls (State.withScript ls) (bodyShuf8 s) :=
  retag_after_read (loadV4_withScript s _ _) fun _ => retag_after_read (loadV4_withScript s _ _) fun _ =>
    retag_after_read (loadV4_withScript s _ _) fun _ => retag_after_read (loadV4_withScript s _ _) fun _ =>
      retag_bind (compactStore4_withScript _ _ rfl) fun _ => retag_bind (compactStore4_withScript _ _ rfl) fun _ =>
        congrArg Except.ok (advance_withScript 8 _ _ _)

theorem bodyShuf256_withScript (s : State) :
    bodyShuf256 (s.withScript ls) = retag ls (State.withScript ls) (bodyShuf256 s) :=
  retag_after_read (loadV8_withScript s _ _) fun _ => retag_after_read (loadV8_withScript s _ _) fun _ =>
    retag_bind (compactStore8_withScript _ _ rfl) fun _ => congrArg Except.ok (advance_withScript 8 _ _ _)

/-! #### Steps of the engine -/

/-- A rule application that commutes with replacing the lines commutes with it once it is settled. -/
theorem settle_withScript {x y : Except Raised State} (h : y = retag ls (State.withScript ls) x) :
    settle y = (settle x).withScript ls := by rw [h, settle_retag]

theorem dispatch_withScript (i : Instr) (s : State) : dispatch i (s.withScript ls) = (dispatch i s).withScript ls := by
  cases i with
  | qfV2 co => exact settle_withScript (retag_bind (reloadA_withScript (s.setPhase .vec)) reloadB_withScript)
  | _ => rfl

theorem gate_withScript (n : Bool) (i : Instr) (s : State) :
    gate n i (s.withScript ls) = (gate n i s).withScript ls := by
  unfold gate
  simp only [State.withScript_regs, dispatch_withScript, apply_ite (State.withScript ls)]
  rfl

theorem launchChecks_withScript (q : Profile) (s : State) : launchChecks q (s.withScript ls) = launchChecks q s := rfl

theorem launchStep_withScript (s : State) : launchStep (s.withScript ls) = (launchStep s).withScript ls := by
  unfold launchStep
  simp only [State.withScript_regs, launchChecks_withScript, gate_withScript]
  split
  · rfl
  · split
    · rfl
    · split <;> rfl

theorem buildStep_withScript (s : State) : buildStep (s.withScript ls) = (buildStep s).withScript ls := by
  unfold buildStep
  simp only [State.withScript_regs]
  split
  · rfl
  · exact dispatch_withScript _ (buildTables s)

theorem vecStep_withScript (s : State) : vecStep (s.withScript ls) = (vecStep s).withScript ls := by
  unfold vecStep
  simp only [State.withScript_regs]
  split
  · rfl
  · rfl
  · rfl
  · exact settle_withScript (retag_ite (gallopBody_withScript s) rfl)
  · exact settle_withScript (retag_ite (bodyQfB4_withScript s) rfl)
  · exact settle_withScript (retag_ite (bodyQfV2_withScript s) rfl)
  · exact settle_withScript (retag_ite (bodyShuf4_withScript s) rfl)
  · exact settle_withScript (retag_ite (bodyShuf8_withScript s) rfl)
  · exact settle_withScript (retag_ite (bodyShuf256_withScript s) rfl)

theorem tailIter_withScript (s : State) : tailIter (s.withScript ls) = retag ls (State.withScript ls) (tailIter s) :=
  retag_ite (mergeBody_withScript s) rfl

theorem noteIrq_withScript (s : State) : noteIrq (s.withScript ls) = (noteIrq s).withScript ls := by
  unfold noteIrq
  rw [apply_ite (State.withScript ls)]
  rfl

/-- No rule of the engine looks at the host's pending lines. -/
theorem engineStep_withScript (s : State) : engineStep (s.withScript ls) = (engineStep s).withScript ls := by
  unfold engineStep
  simp only [State.withScript_phase]
  cases s.phase with
  | idle => rfl
  | launch => simp only [launchStep_withScript, noteIrq_withScript]
  | tbuild => simp only [buildStep_withScript, noteIrq_withScript]
  | vec => simp only [vecStep_withScript, noteIrq_withScript]
  | tail => simp only [settle_withScript (tailIter_withScript s), noteIrq_withScript]

theorem runToIdle_withScript (n : Nat) (s : State) : runToIdle n (s.withScript ls) = (runToIdle n s).withScript ls := by
  induction n generalizing s with
  | zero => rfl
  | succ n ih =>
    by_cases h : s.phase = .idle
    · rw [runToIdle_idle _ h, runToIdle_idle _ (s := s.withScript ls) h]
    · have hb := busy_iff.2 h
      rw [runToIdle_succ n hb, runToIdle_succ n (s := s.withScript ls) hb, engineStep_withScript, ih]

end

/-! ### The lines played -/

/-- A step at a RUN line runs its word, legal or not (R97). -/
theorem step_run {s : State} {v : Reg64} {rest : List HostLine} (h : s.host.script = .run v :: rest) :
    step s = .next (runWord v (popLine s)) := by
  unfold step
  rw [h]
  simp only
  split
  · rename_i hd
    rw [exec_eq, ← encode_of_decode hd]
  · rfl

theorem step_wait_busy {s : State} (rest : List HostLine) (hb : s.busy = true) :
    step (s.withScript (.wait :: rest)) = .next ((engineStep s).withScript (.wait :: rest)) := by
  rw [← engineStep_withScript]
  show playLine .wait (s.withScript (.wait :: rest)) = _
  exact if_pos hb

theorem step_wait_idle {s : State} (rest : List HostLine) (hp : s.phase = .idle) :
    step (s.withScript (.wait :: rest)) = .next (observe (s.withScript rest)) := by
  show playLine .wait (s.withScript (.wait :: rest)) = _
  exact if_neg (by simp [busy_false hp])

/-- A machine that goes on from its first step runs on from there. -/
theorem run_of_next (M : Host.Core) (n : Nat) {s t : M.State} (h : M.step s = .next t) :
    Host.Core.run M (n + 1) s = Host.Core.run M n t := by
  rw [Host.Core.run.eq_def]
  simp only [h]

theorem core_run_of_next (n : Nat) {s t : State} (h : step s = .next t) :
    Host.Core.run core (n + 1) s = Host.Core.run core n t := run_of_next core n h

/-- WAIT plays the engine's rules one by one up to the end of the command, and then observes it (R96). -/
theorem core_run_wait (rest : List HostLine) {n : Nat} {s : State} (h : budget s ≤ n) :
    ∃ k, Host.Core.run core k (s.withScript (.wait :: rest)) = .next (observe ((runToIdle n s).withScript rest)) := by
  induction n generalizing s with
  | zero =>
    have hp : s.phase = .idle := runToIdle_ends h
    exact ⟨1, core_run_of_next 0 (step_wait_idle rest hp)⟩
  | succ n ih =>
    by_cases hp : s.phase = .idle
    · rw [runToIdle_idle _ hp]
      exact ⟨1, core_run_of_next 0 (step_wait_idle rest hp)⟩
    · have hb := busy_iff.2 hp
      have hlt := engineStep_budget hb
      obtain ⟨k, hk⟩ := ih (s := engineStep s) (by omega)
      exact ⟨k + 1, by rw [core_run_of_next k (step_wait_busy rest hb), hk, runToIdle_succ n hb]⟩

/-- CMD on an idle engine launches, the other lines still pending (R110). -/
theorem step_cmd {s : State} (v : Reg64) (rest : List HostLine) (h : s.phase = .idle) :
    step (s.withScript (.write 1 v :: rest)) = .next ((launch v s).withScript rest) := by
  show Host.Outcome.next (noteIrq (hostWrite 1 v (s.withScript rest))) = _
  rw [hostWrite_launch v (s := s.withScript rest) h]
  exact congrArg _ (noteIrq_of_busy rfl)

/-- Settles O7: the engine's steps do not depend on the pending lines, so WAIT makes the run that RUN makes at once. -/
theorem runIsCmdThenWait : Obligations.RunIsCmdThenWait := by
  intro s v rest hidle
  obtain ⟨k, hk⟩ := core_run_wait rest (budget_le_fuel (launch v s))
  refine ⟨runWord v (s.withScript rest), k + 1, step_run rfl, ?_⟩
  show Host.Core.run core (k + 1) (s.withScript (.write 1 v :: .wait :: rest)) = _
  rw [core_run_of_next k (step_cmd v _ hidle), hk, ← runToIdle_withScript]
  show _ = Host.Outcome.next (observe (runToIdle _ (hostWrite 1 v (s.withScript rest))))
  rw [hostWrite_launch v (s := s.withScript rest) hidle]
  rfl

/-- Settles O5: a line that is RUN of a legal word is handed to exec. -/
theorem stepRunsTheDecodedCommand : Obligations.StepRunsTheDecodedCommand := by
  intro s v rest i hscript hdecode
  rw [step_run hscript, exec_eq, ← encode_of_decode hdecode]
  simp only [popLine, hscript, List.tail_cons]
  rfl

end Sys2Proof.Machine
end

section
/-! The datapath of the kernels: the all-pairs comparisons mark exactly the lanes that have a partner (spec/46_shuffling.md
R241, R257), the compaction tables bring the marked lanes to the front (spec/42_lookup_tables.md R181), and the pre-filter's
classification never loses a match (spec/45_qfilter.md R222). -/

-- Elaborated one at a time: the package as one text would otherwise hold a thread and its stack for many theorems at once.
set_option Elab.async false

namespace Sys2Proof.Machine

/-! ### Comparisons -/

theorem lane4_rot4 (Y : V128) (r l : Nat) (hl : l < 4) : lane4 (rot4 Y r) l = lane4 Y ((l + r) % 4) :=
  lane4_ofLanes4 _ _ hl

/-- A lane is marked exactly when some lane of the other block holds its element (R241). -/
theorem rotMatch4_getLsbD (X Y : V128) (l : Nat) (hl : l < 4) :
    (rotMatch4 X Y).getLsbD l = true ↔ ∃ u, u < 4 ∧ lane4 X l = lane4 Y u := by
  simp only [rotMatch4, BitVec.getLsbD_or, eqMask4_getLsbD _ _ _ hl, lane4_rot4 _ _ _ hl, Bool.or_eq_true, beq_iff_eq]
  constructor
  · rintro (((h | h) | h) | h) <;> exact ⟨_, Nat.mod_lt _ (by omega), h⟩
  · rintro ⟨u, hu, h⟩
    have rotation : u = (l + 0) % 4 ∨ u = (l + 1) % 4 ∨ u = (l + 2) % 4 ∨ u = (l + 3) % 4 := by omega
    rcases rotation with rfl | rfl | rfl | rfl <;> simp [h]

/-- The lane that alignment `t` sets against lane `l` (R147). -/
def alignedLane (l t : Nat) : Nat := (4 * (l / 4) + (l + t) % 4 + if t < 4 then 0 else 4) % 8

theorem alignedLane_lt (l t : Nat) : alignedLane l t < 8 := Nat.mod_lt _ (by omega)

/-- Every lane of the other block is set against `l` by one of the eight alignments. -/
theorem alignedLane_surjective : ∀ l < 8, ∀ u < 8, ∃ t < 8, alignedLane l t = u := by decide

theorem lane8_align8 (Y : V256) (t l : Nat) (hl : l < 8) : lane8 (align8 Y t) l = lane8 Y (alignedLane l t) := by
  unfold align8 alignedLane
  split
  · rw [rotIn8, lane8_ofLanes8 _ _ hl]
    congr 1
    omega
  · rw [rotIn8, lane8_ofLanes8 _ _ hl, swapHalves, lane8_ofLanes8 _ _ (by omega)]
    congr 1
    omega

theorem getLsbD_foldl_or {n : Nat} (f : Nat → BitVec n) (ts : List Nat) (m : BitVec n) (l : Nat) :
    (ts.foldl (fun m t => m ||| f t) m).getLsbD l = true ↔ m.getLsbD l = true ∨ ∃ t ∈ ts, (f t).getLsbD l = true := by
  induction ts generalizing m with
  | nil => simp
  | cons t ts ih => simp [ih, or_assoc]

/-- The same of the eight alignments (R257). -/
theorem alignMatch8_getLsbD (X Y : V256) (l : Nat) (hl : l < 8) :
    (alignMatch8 X Y).getLsbD l = true ↔ ∃ u, u < 8 ∧ lane8 X l = lane8 Y u := by
  simp only [alignMatch8, getLsbD_foldl_or, eqMask8_getLsbD _ _ _ hl, lane8_align8 _ _ _ hl, beq_iff_eq, List.mem_range]
  constructor
  · rintro (h | ⟨t, -, h⟩)
    · simp at h
    · exact ⟨_, alignedLane_lt l t, h⟩
  · rintro ⟨u, hu, h⟩
    obtain ⟨t, ht, rfl⟩ := alignedLane_surjective l hl u hu
    exact .inr ⟨t, ht, h⟩

/-! ### Compaction -/

theorem popcount_eq_zero {n : Nat} {m : BitVec n} : popcount m = 0 ↔ setBits m = [] := List.length_eq_zero_iff

theorem perm8T_toNat (m : BitVec 8) (t : Nat) (ht : t < popcount m) :
    (perm8T m t).toNat % 8 = (setBits m).getD t 0 := by
  have hlt := setBits_getD_lt m t ht
  rw [perm8T, List.getD_append _ _ _ _ ht, BitVec.toNat_ofNat]
  omega

/-- SHUF4T brings the lanes at the set bits to the front, in order (R181). -/
theorem take_pshufb_shuf4T (m : BitVec 4) (X : V128) :
    (lanes4 (pshufb X (shuf4T m))).take (popcount m) = (setBits m).map (lane4 X) := by
  have hp := popcount_le m
  refine List.ext_getElem (by simpa [popcount, lanes4] using hp) fun l h1 h2 => ?_
  have hl : l < (setBits m).length := by simpa using h2
  have hl' : l < popcount m := hl
  rw [List.getElem_take, lanes4_getElem, List.getElem_map]
  rw [pshufb_lane X _ l ((setBits m).getD l 0) (by omega) (setBits_getD_lt m l hl), List.getD_eq_getElem _ _ hl]
  intro t ht
  rw [shuf4T, if_pos (by omega), show (4 * l + t) / 4 = l by omega, show (4 * l + t) % 4 = t by omega]

/-- PERM8T does so for eight lanes (R181). -/
theorem take_permute8_perm8T (m : BitVec 8) (Y : V256) :
    (lanes8 (permute8 Y (perm8T m))).take (popcount m) = (setBits m).map (lane8 Y) := by
  have hp := popcount_le m
  refine List.ext_getElem (by simpa [popcount, lanes8, lanes4] using hp) fun l h1 h2 => ?_
  have hl : l < (setBits m).length := by simpa using h2
  have hl' : l < popcount m := hl
  rw [List.getElem_take, lanes8_getElem, List.getElem_map, permute8, lane8_ofLanes8 _ _ (by omega), perm8T_toNat m l hl,
    List.getD_eq_getElem _ _ hl]

/-- The compaction store with the tables built emits the lanes at the set bits (R152). -/
theorem compactStore4_eq (X : V128) (m : BitVec 4) {s : State} (hv : s.regs.tblValid = true) :
    compactStore4 X m s =
      if (setBits m).map (lane4 X) = [] then .ok s else emitElems ((setBits m).map (lane4 X)) s := by
  simp only [compactStore4, readShuf4T, hv, if_true, take_pshufb_shuf4T, List.map_eq_nil_iff, popcount_eq_zero]

/-- The same of eight lanes (R153). -/
theorem compactStore8_eq (Y : V256) (m : BitVec 8) {s : State} (hv : s.regs.tblValid = true) :
    compactStore8 Y m s =
      if (setBits m).map (lane8 Y) = [] then .ok s else emitElems ((setBits m).map (lane8 Y)) s := by
  simp only [compactStore8, readPerm8T, hv, if_true, take_permute8_perm8T, List.map_eq_nil_iff, popcount_eq_zero]

/-! ### The pre-filter -/

/-- Bit `4i + u` of a stage's mask compares byte `s` of A's lane `i` and of B's lane `u` in the low nibble (R216). -/
theorem stageMask_getLsbD (VA VB : V128) (s i u : Nat) (hs : s < 4) (hi : i < 4) (hu : u < 4) :
    (stageMask true VA VB s).getLsbD (4 * i + u) =
      (byteOf (lane4 VA i) s &&& 0x0F == byteOf (lane4 VB u) s &&& 0x0F) := by
  have group : ∀ (X : V128) (P : Pattern) (l : Nat), l < 4 → P (4 * i + u) = BitVec.ofNat 8 (4 * l) →
      byte16 (andNib (pshufb X (stagePattern P s))) (4 * i + u) = byteOf (lane4 X l) s &&& 0x0F := by
    intro X P l hl hP
    have hpat : stagePattern P s (4 * i + u) = BitVec.ofNat 8 (4 * l + s) := by
      rw [stagePattern, hP, ← BitVec.ofNat_add]
    rw [andNib, byte16_ofBytes16 _ _ (by omega), pshufb_byte _ _ _ (by omega), hpat, getLsbD7_ofNat (by omega),
      byteOf_lane4 _ _ _ hs, BitVec.toNat_ofNat, show (4 * l + s) % 2 ^ 8 % 16 = 4 * l + s by omega]
    rfl
  rw [stageMask, cmpEq8Mask, maskOf_getLsbD _ _ _ (by omega)]
  rw [group VA _ i hi (by rw [readGoa, if_pos rfl, goa, show (4 * i + u) / 4 = i by omega]),
    group VB _ u hu (by rw [readGob, if_pos rfl, gob, show (4 * i + u) % 4 = u by omega])]

/-- A classification mask keeps every pair of equal lanes. -/
def Covers (VA VB : V128) (x : BitVec 16) : Prop :=
  ∀ i u, i < 4 → u < 4 → lane4 VA i = lane4 VB u → x.getLsbD (4 * i + u) = true

theorem stageMask_covers (VA VB : V128) (s : Nat) (hs : s < 4) : Covers VA VB (stageMask true VA VB s) := by
  intro i u hi hu h
  rw [stageMask_getLsbD VA VB s i u hs hi hu, h]
  exact beq_self_eq_true _

/-- Every stage keeps them, so the last mask does, and the verdict is read from it or is AMBIG (R217). -/
theorem stageLoop_covers {VA VB : V128} {left s : Nat} {x : BitVec 16} (hs : s + left < 4) (hx : Covers VA VB x) :
    Covers VA VB (stageLoop true VA VB left s x).2.1 ∧
      (stageLoop true VA VB left s x).2.2 = nct (stageLoop true VA VB left s x).2.1 := by
  induction left generalizing s x with
  | zero => exact ⟨hx, rfl⟩
  | succ left ih =>
    unfold stageLoop
    cases h : readNct true x with
    | ambig =>
      refine ih (by omega) fun i u hi hu e => ?_
      rw [BitVec.getLsbD_and, hx i u hi hu e, stageMask_covers VA VB (s + 1) (by omega) i u hi hu e]
      rfl
    | noMatch => exact ⟨hx, h.symm⟩
    | single P => exact ⟨hx, h.symm⟩

theorem nct_noMatch {x : BitVec 16} (h : nct x = .noMatch) : x = 0 := by
  unfold nct at h
  split at h
  · cases h
  · split at h
    · assumption
    · cases h

/-- Field `i` of a permutation assembled from four fields (R178). -/
theorem extract_field (f : Nat → Nat) (hf : ∀ i, i < 4 → f i < 4) (i : Nat) (hi : i < 4) :
    ((BitVec.ofNat 8 (f 0 + 4 * f 1 + 16 * f 2 + 64 * f 3)).extractLsb' (2 * i) 2).toNat = f i := by
  have h0 := hf 0 (by omega)
  have h1 := hf 1 (by omega)
  have h2 := hf 2 (by omega)
  have h3 := hf 3 (by omega)
  rw [BitVec.extractLsb'_toNat, BitVec.toNat_ofNat, Nat.shiftRight_eq_div_pow]
  interval_cases i <;> norm_num <;> omega

/-- A set bit of an unambiguous mask is the one its permutation names (R181). -/
theorem nct_single_sound {x : BitVec 16} {P : BitVec 8} (h : nct x = .single P) {i u : Nat} (hi : i < 4) (hu : u < 4)
    (hbit : x.getLsbD (4 * i + u) = true) : (P.extractLsb' (2 * i) 2).toNat = u := by
  obtain ⟨hpop, -, rfl⟩ := nct_single h
  rw [extract_field (nctLane x) (nctLane_lt x) i hi]
  have hmem : u ∈ setBits (nctCode x i) := (setBits_getLsbD _ _).2 ⟨hu, by rw [nctCode_getLsbD x i u hu, hbit]⟩
  have hlen := hpop i hi
  unfold popcount at hlen
  unfold nctLane
  generalize setBits (nctCode x i) = bits at hmem hlen
  match bits, hmem, hlen with
  | [v], hmem, _ => simpa using (List.mem_singleton.1 hmem).symm

/-- MSD brings the lane the permutation names against each lane of A (R179). -/
theorem lane4_pshufb_msd (VB : V128) (P : BitVec 8) (l : Nat) (hl : l < 4) :
    lane4 (pshufb VB (msd P)) l = lane4 VB (P.extractLsb' (2 * l) 2).toNat := by
  refine pshufb_lane VB _ l _ hl (P.extractLsb' (2 * l) 2).isLt fun t ht => ?_
  rw [msd, show (4 * l + t) / 4 = l by omega, show (4 * l + t) % 4 = t by omega]

/-- The verdict read from a mask that keeps every pair of equal lanes leads to the exhaustive comparison. -/
theorem verdictMask_eq {VA VB : V128} {x : BitVec 16} (hx : Covers VA VB x) :
    verdictMask true VA VB (nct x) = rotMatch4 VA VB := by
  refine mask4_ext fun l hl => ?_
  rw [rotMatch4_getLsbD VA VB l hl]
  cases h : nct x with
  | noMatch =>
    have hz := nct_noMatch h
    refine ⟨fun hb => by simp [verdictMask] at hb, fun ⟨u, hu, e⟩ => ?_⟩
    have := hx l u hl hu e
    simp [hz] at this
  | single P =>
    rw [verdictMask, readMsd, if_pos rfl, eqMask4_getLsbD _ _ _ hl, lane4_pshufb_msd VB P l hl, beq_iff_eq]
    refine ⟨fun e => ⟨_, (P.extractLsb' (2 * l) 2).isLt, e⟩, fun ⟨u, hu, e⟩ => ?_⟩
    rw [nct_single_sound h hl hu (hx l u hl hu e), e]
  | ambig => exact rotMatch4_getLsbD VA VB l hl

/-- The pre-filter's match mask is that of the exhaustive comparison (R222). -/
theorem qfMatch_eq_rotMatch4 (VA VB : V128) : qfMatch true VA VB = rotMatch4 VA VB := by
  obtain ⟨hcovers, hverdict⟩ := stageLoop_covers (left := 3) (s := 0) (by omega) (stageMask_covers VA VB 0 (by omega))
  rw [qfMatch, classify, hverdict, verdictMask_eq hcovers]

end Sys2Proof.Machine
end

section
/-! The state of a launched kernel command between two rule applications (spec/00_scope.md R14, R15): the inputs as they
were at the launch, what of the result is already stored, and the only faults that can end the command. Loads and stores
have one rule each, in the form `Yields`: what they answer, and the bus fault they raise otherwise. -/

-- Elaborated one at a time: the package as one text would otherwise hold a thread and its stack for many theorems at once.
set_option Elab.async false

namespace Sys2Proof.Machine

/-! ### Elements in memory -/

theorem elem_congr {M M' : Memory} {p : Addr}
    (h : ∀ k, k < 4 → Memory.read M (p + BitVec.ofNat 64 k).toNat = Memory.read M' (p + BitVec.ofNat 64 k).toNat) :
    Memory.elem M p = Memory.elem M' p := by
  rw [elem_eq, elem_eq, h 0 (by omega), h 1 (by omega), h 2 (by omega), h 3 (by omega)]

theorem setOf_congr {M M' : Memory} {base : Addr} {n : Nat}
    (h : ∀ x, x < n → Memory.elem M (eltAddr base x) = Memory.elem M' (eltAddr base x)) :
    setOf M base n = setOf M' base n :=
  List.map_congr_left fun x hx => h x (List.mem_range.1 hx)

theorem setOf_add (M : Memory) (base : Addr) (m n : Nat) :
    setOf M base (m + n) = setOf M base m ++ setOf M (eltAddr base m) n := by
  simp [setOf, List.range_add, List.map_map, Function.comp_def, eltAddr_add]

/-- The offset of byte `k` of element `x` of a buffer. -/
theorem elt_byte_offset (base : Addr) {x k : Nat} (h : 4 * x + k < 2 ^ 64) :
    (eltAddr base x + BitVec.ofNat 64 k - base).toNat = 4 * x + k := by
  rw [eltAddr, show base + BitVec.ofNat 64 (4 * x) + BitVec.ofNat 64 k - base = BitVec.ofNat 64 (4 * x + k) by
    rw [BitVec.ofNat_add]; ring, BitVec.toNat_ofNat, Nat.mod_eq_of_lt h]

/-! ### The launched command -/

/-- Element `x` of A, as memory holds it in a state. -/
def elemA (l : State) (x : Nat) : Elem := Memory.elem l.mem (eltAddr l.regs.aBase x)

/-- Element `x` of B. -/
def elemB (l : State) (x : Nat) : Elem := Memory.elem l.mem (eltAddr l.regs.bBase x)

/-- What the command is to compute (R14). -/
def result (l : State) : List Elem := interOf (setA l) (setB l)

/-- The state in which the command `i`, of profile `q`, has just been launched under the contract, its checks passing. -/
structure Launched (i : Instr) (q : Profile) (l : State) : Prop where
  command : decode l.regs.cmd = .ok i
  profile : profileOf i = some q
  phase : l.phase = .launch
  start : l.work.i = 0 ∧ l.work.j = 0 ∧ l.work.c = 0
  latch : l.work.co = i.countOnly
  clear : l.regs.fault = false
  checks : launchChecks q l = none
  contract : Contract l

theorem encode_bit8 (i : Instr) : (encode i).getLsbD 8 = i.countOnly := by
  cases i with
  | tbld | merge | shuf4 | shuf8 | shuf256 => decide
  | gallop co | qfB4 co | qfV2 co => cases co <;> decide

theorem launched_launch {i : Instr} {q : Profile} {s : State} (hp : profileOf i = some q)
    (hc : launchChecks q (launch (encode i) s) = none) (h : Contract s) : Launched i q (launch (encode i) s) :=
  ⟨decode_encode i, hp, rfl, ⟨rfl, rfl, rfl⟩, encode_bit8 i, rfl, hc, h⟩

theorem rising_of_ascending {f : Nat → Elem} {n : Nat} (h : Ascending ((List.range n).map f)) : Rising f n := by
  intro x y hxy hy
  have := List.pairwise_iff_getElem.1 h x y (by simp; omega) (by simpa using hy) hxy
  simpa using this

section

variable {i : Instr} {q : Profile} {l : State}

theorem Launched.risingA (h : Launched i q l) : Rising (elemA l) l.na := rising_of_ascending h.contract.1

theorem Launched.risingB (h : Launched i q l) : Rising (elemB l) l.nb := rising_of_ascending h.contract.2

theorem mem_setOf {M : Memory} {base : Addr} {n : Nat} {e : Elem} :
    e ∈ setOf M base n ↔ ∃ x, x < n ∧ Memory.elem M (eltAddr base x) = e := by
  simp [setOf]

/-- The result holds the values the two inputs share. -/
theorem mem_result {e : Elem} : e ∈ result l ↔ Common (elemA l) (elemB l) l.na l.nb e := by
  simp only [result, interOf, List.mem_filter, List.contains_iff_mem]
  exact and_congr mem_setOf mem_setOf

theorem Launched.ascending_result (h : Launched i q l) : Ascending (result l) :=
  h.contract.1.sublist List.filter_sublist

theorem Ascending.nodup {S : List Elem} (h : Ascending S) : S.Nodup :=
  h.imp fun hlt he => by rw [he] at hlt; exact lt_irrefl _ hlt

theorem length_setOf (M : Memory) (base : Addr) (n : Nat) : (setOf M base n).length = n := by simp [setOf]

theorem Launched.length_result_le (h : Launched i q l) : (result l).length ≤ min l.na l.nb := by
  have ha : (result l).length ≤ (setA l).length := List.length_filter_le _ _
  have hsub : result l ⊆ setB l := fun e he => mem_setOf.2 (mem_result.1 he).2
  have hb := (h.ascending_result.nodup.subperm hsub).length_le
  rw [setA, length_setOf] at ha
  rw [setB, length_setOf] at hb
  omega

/-! ### Windows -/

theorem ite_some_eq_none {α : Type} {P : Prop} [Decidable P] {a : α} {r : Option α} :
    (if P then some a else r) = none ↔ ¬ P ∧ r = none := by
  split <;> simp [*]

/-- The storage window of one of the inputs: its base and its padded length in elements (R68). -/
def IsInput (q : Profile) (l : State) (base : Addr) (n : Nat) : Prop :=
  (base = l.regs.aBase ∧ n = padTo q.width l.na) ∨ (base = l.regs.bBase ∧ n = padTo q.width l.nb)

theorem IsInput.a (q : Profile) (l : State) : IsInput q l l.regs.aBase (padTo q.width l.na) := .inl ⟨rfl, rfl⟩

theorem IsInput.b (q : Profile) (l : State) : IsInput q l l.regs.bBase (padTo q.width l.nb) := .inr ⟨rfl, rfl⟩

/-- What the launch checks say of an input's window (R117): no address in it wraps, and the output lies outside it. -/
theorem Launched.window (h : Launched i q l) {base : Addr} {n : Nat} (hin : IsInput q l base n) :
    base.toNat + 4 * n ≤ 2 ^ 64 ∧ (l.work.co = false → l.regs.outBase.toNat + lenOut l ≤ 2 ^ 64 ∧
      overlap l.regs.outBase.toNat (lenOut l) base.toNat (4 * n) = false) := by
  have hc := h.checks
  simp only [launchChecks, ite_some_eq_none, not_lt, gt_iff_lt, not_and, Bool.not_eq_true] at hc
  obtain ⟨-, -, -, ha, hb, ho, hoa, hob, -⟩ := hc
  rcases hin with ⟨rfl, rfl⟩ | ⟨rfl, rfl⟩
  · exact ⟨ha, fun hco => ⟨ho hco, hoa hco⟩⟩
  · exact ⟨hb, fun hco => ⟨ho hco, hob hco⟩⟩

theorem Launched.na_le (h : Launched i q l) : l.na ≤ padTo q.width l.na :=
  (padTo_bounds (profile_facts h.profile).2 l.regs.aLen.isLt).1

theorem Launched.nb_le (h : Launched i q l) : l.nb ≤ padTo q.width l.nb :=
  (padTo_bounds (profile_facts h.profile).2 l.regs.bLen.isLt).1

/-! ### What has been stored -/

/-- `t` is a later state of the command launched in `l`, with the elements `E` counted and, unless count-only, stored. -/
structure Filled (l t : State) (E : List Elem) : Prop where
  adv : Advances l t
  count : t.work.c = E.length
  front : E <+: result l
  out : l.work.co = false → setOf t.mem l.regs.outBase E.length = E

variable {t u : State} {E Ms : List Elem}

theorem Filled.aBase (h : Filled l t E) : t.regs.aBase = l.regs.aBase := by rw [h.adv.regs]
theorem Filled.bBase (h : Filled l t E) : t.regs.bBase = l.regs.bBase := by rw [h.adv.regs]
theorem Filled.outBase (h : Filled l t E) : t.regs.outBase = l.regs.outBase := by rw [h.adv.regs]
theorem Filled.cmd (h : Filled l t E) : t.regs.cmd = l.regs.cmd := by rw [h.adv.regs]
theorem Filled.na (h : Filled l t E) : t.na = l.na := by unfold State.na; rw [h.adv.regs]
theorem Filled.nb (h : Filled l t E) : t.nb = l.nb := by unfold State.nb; rw [h.adv.regs]

theorem Filled.length_le (h : Filled l t E) (hl : Launched i q l) : E.length ≤ min l.na l.nb :=
  h.front.length_le.trans hl.length_result_le

theorem Launched.filled (h : Launched i q l) : Filled l l [] :=
  ⟨Advances.refl l, h.start.2.2, List.nil_prefix, fun _ => rfl⟩

/-- A change that counts and stores nothing. -/
theorem Filled.of_work (h : Filled l t E) (ha : Advances t u) (hm : u.mem = t.mem) (hc : u.work.c = t.work.c) :
    Filled l u E :=
  ⟨h.adv.trans ha, hc.trans h.count, h.front, by rw [hm]; exact h.out⟩

theorem Filled.setPhase (h : Filled l t E) (p : Phase) : Filled l (t.setPhase p) E :=
  h.of_work (.of_work rfl rfl rfl rfl rfl rfl) rfl rfl

/-- A change of working registers other than the count and the latched flag. -/
theorem Filled.setWork (h : Filled l t E) {w : Work} (hco : w.co = t.work.co) (hc : w.c = t.work.c) :
    Filled l (t.setWork w) E :=
  h.of_work (.of_work rfl rfl rfl rfl hco hc.symm) rfl hc

/-- The inputs stay as they were launched, the output lying outside their windows (R70). -/
theorem Filled.input_elem (h : Filled l t E) (hl : Launched i q l) {base : Addr} {n x : Nat} (hin : IsInput q l base n)
    (hx : x < n) : Memory.elem t.mem (eltAddr base x) = Memory.elem l.mem (eltAddr base x) := by
  cases hco : l.work.co with
  | true => rw [(h.adv.countOnly hco).1]
  | false =>
    obtain ⟨hwrap, hdis⟩ := hl.window hin
    obtain ⟨hout, hov⟩ := hdis hco
    have hlen := h.length_le hl
    have hcount := h.count
    refine elem_congr fun k hk => h.adv.mem ?_ _ (.inr ?_)
    · have := l.regs.aLen.isLt
      have : l.na < 2 ^ 32 := this
      omega
    · have hp : (eltAddr base x + BitVec.ofNat 64 k).toNat = base.toNat + 4 * x + k := by
        rw [BitVec.toNat_add, eltAddr_toNat (by omega), BitVec.toNat_ofNat]
        omega
      have ho := l.regs.outBase.isLt
      rw [BitVec.toNat_sub, hp, hcount]
      unfold lenOut at hout hov
      rcases overlap_false hov with h0 | h0 | h0 | h0 <;> omega

/-! ### Faults and answers -/

/-- The bus faults that can end the command: a read inside a storage window or a store of the next elements of the result,
one byte of it refused by the platform (R66). -/
inductive BusFault (q : Profile) (l : State) (e : Raised) : Prop where
  | read (E : List Elem) (base : Addr) (n x m : Nat) (filled : Filled l e.state E) (input : IsInput q l base n)
      (size : m = 4 ∨ m = 16 ∨ m = 32) (inside : 4 * x + m ≤ 4 * n) (fault : e.fault = .busRead)
      (addr : e.addr = eltAddr base x) (refused : allBytes l.port.readable e.addr m = false)
  | write (E Ms : List Elem) (filled : Filled l e.state E) (next : E ++ Ms <+: result l) (width : Ms.length ≤ q.width)
      (stores : l.work.co = false) (fault : e.fault = .busWrite) (addr : e.addr = eltAddr l.regs.outBase E.length)
      (refused : allBytes l.port.writable e.addr (4 * Ms.length) = false)

/-- What a rule application, or a part of one, comes to: an answer of which `P` holds, or a fault of which `R` does. -/
def Yields {α : Type} (R : Raised → Prop) (P : α → Prop) : Except Raised α → Prop
  | .ok a => P a
  | .error e => R e

theorem Yields.bind {α β : Type} {R : Raised → Prop} {P : α → Prop} {Q : β → Prop} {x : Except Raised α}
    {f : α → Except Raised β} (hx : Yields R P x) (hf : ∀ a, P a → Yields R Q (f a)) : Yields R Q (x >>= f) := by
  cases x with
  | error e => exact hx
  | ok a => exact hf a hx

theorem Yields.mono {α : Type} {R : Raised → Prop} {P Q : α → Prop} {x : Except Raised α} (hx : Yields R P x)
    (h : ∀ a, P a → Q a) : Yields R Q x := by
  cases x with
  | error e => exact hx
  | ok a => exact h a hx

/-! ### Loads -/

theorem checkRead_yields (h : Filled l t E) {base : Addr} {n x m : Nat} (hin : IsInput q l base n)
    (hm : m = 4 ∨ m = 16 ∨ m = 32) (hx : 4 * x + m ≤ 4 * n) :
    Yields (BusFault q l) (fun _ => True) (checkRead t (eltAddr base x) m) := by
  unfold checkRead
  split
  · trivial
  · rename_i hr
    exact .read E base n x m h hin hm hx rfl rfl (by rw [← h.adv.port]; simpa using hr)

theorem readElem_yields (h : Filled l t E) (hl : Launched i q l) {base : Addr} {n x : Nat} (hin : IsInput q l base n)
    (hx : x < n) :
    Yields (BusFault q l) (fun e => e = Memory.elem l.mem (eltAddr base x)) (readElem t (eltAddr base x)) :=
  (checkRead_yields h hin (.inl rfl) (by omega)).bind fun _ _ => h.input_elem hl hin hx

theorem readA_yields (h : Filled l t E) (hl : Launched i q l) {x : Nat} (hx : x < l.na) :
    Yields (BusFault q l) (fun e => e = elemA l x) (readA t x) := by
  unfold readA
  rw [h.aBase]
  exact readElem_yields h hl (.a q l) (hx.trans_le (hl.na_le))

theorem readB_yields (h : Filled l t E) (hl : Launched i q l) {x : Nat} (hx : x < l.nb) :
    Yields (BusFault q l) (fun e => e = elemB l x) (readB t x) := by
  unfold readB
  rw [h.bBase]
  exact readElem_yields h hl (.b q l) (hx.trans_le (hl.nb_le))

/-- A 4-lane load answers the block as it was launched. -/
theorem loadV4_yields (h : Filled l t E) (hl : Launched i q l) {base : Addr} {n x : Nat} (hin : IsInput q l base n)
    (hx : x + 4 ≤ n) : Yields (BusFault q l) (fun X => X = memLanes4 l.mem base x) (loadV4 t base x) := by
  refine (checkRead_yields h hin (.inr (.inl rfl)) (by omega)).bind fun _ _ => ?_
  refine V128.ext_lanes fun k hk => ?_
  rw [memLanes4, memLanes4, lane4_ofLanes4 _ _ hk, lane4_ofLanes4 _ _ hk, h.input_elem hl hin (by omega)]

/-- The eight elements at `base + 4*x`. -/
def memLanes8 (M : Memory) (base : Addr) (x : Nat) : V256 := ofLanes8 fun k => Memory.elem M (eltAddr base (x + k))

theorem memLanes8_halves (M : Memory) (base : Addr) (x : Nat) :
    memLanes8 M base x = ⟨memLanes4 M base x, memLanes4 M base (x + 4)⟩ := rfl

theorem loadV8_yields (h : Filled l t E) (hl : Launched i q l) {base : Addr} {n x : Nat} (hin : IsInput q l base n)
    (hx : x + 8 ≤ n) : Yields (BusFault q l) (fun Y => Y = memLanes8 l.mem base x) (loadV8 t base x) := by
  refine (checkRead_yields h hin (.inr (.inr rfl)) (by omega)).bind fun _ _ => ?_
  have half : ∀ y, y + 4 ≤ n → memLanes4 t.mem base y = memLanes4 l.mem base y := fun y hy =>
    V128.ext_lanes fun k hk => by
      rw [memLanes4, memLanes4, lane4_ofLanes4 _ _ hk, lane4_ofLanes4 _ _ hk, h.input_elem hl hin (by omega)]
  show memLanes8 t.mem base x = _
  rw [memLanes8_halves, memLanes8_halves, half x (by omega), half (x + 4) (by omega)]

/-! ### Stores -/

/-- `u` is `t` with the elements `E` stored and counted, and nothing else changed but memory. -/
structure Emits (l t : State) (E : List Elem) (u : State) : Prop where
  filled : Filled l u E
  work : u.work = { t.work with c := E.length }
  phase : u.phase = t.phase
  regs : u.regs = t.regs

theorem Emits.cursorA (h : Emits l t E u) : u.work.i = t.work.i := by rw [h.work]
theorem Emits.cursorB (h : Emits l t E u) : u.work.j = t.work.j := by rw [h.work]

theorem Emits.trans {E' : List Elem} {v : State} (h : Emits l t E u) (g : Emits l u E' v) : Emits l t E' v :=
  ⟨g.filled, by rw [g.work, h.work], g.phase.trans h.phase, g.regs.trans h.regs⟩

/-- The output after a store: what was there, and then the elements stored. -/
theorem setOf_append {M M' : Memory} {base : Addr} (hm : setOf M base E.length = E)
    (hlen : 4 * (E ++ Ms).length ≤ 2 ^ 64)
    (hkeep : ∀ p : Addr, (p - base).toNat < 4 * E.length → Memory.read M' p.toNat = Memory.read M p.toNat)
    (hnew : setOf M' (eltAddr base E.length) Ms.length = Ms) : setOf M' base (E ++ Ms).length = E ++ Ms := by
  rw [List.length_append] at hlen ⊢
  rw [setOf_add, hnew]
  congr 1
  refine (setOf_congr fun x hx => elem_congr fun k hk => hkeep _ ?_).trans hm
  rw [elt_byte_offset _ (by omega)]
  omega

/-- Emitting the next elements of the result (R122). -/
theorem emitElems_yields (h : Filled l t E) (hl : Launched i q l) (hfront : E ++ Ms <+: result l)
    (hw : Ms.length ≤ q.width) : Yields (BusFault q l) (Emits l t (E ++ Ms)) (emitElems Ms t) := by
  have hlen : 4 * (E ++ Ms).length ≤ 2 ^ 64 := by
    have := hfront.length_le.trans hl.length_result_le
    have : l.na < 2 ^ 32 := l.regs.aLen.isLt
    omega
  have hlen' : 4 * Ms.length ≤ 2 ^ 64 := by rw [List.length_append] at hlen; omega
  have hslot : outSlot t = eltAddr l.regs.outBase E.length := by rw [outSlot, h.outBase, h.count]
  obtain ⟨hcountOnly, hstore, hrefuse⟩ := emitElems_spec t Ms hlen'
  cases hco : t.work.co with
  | true =>
    rw [hcountOnly hco]
    have hcol : ¬ l.work.co = false := by rw [← h.adv.co, hco]; decide
    have hgrow := ((emitElems_applies t Ms).1 _ (hcountOnly hco)).advances
    have hc : t.work.c + Ms.length = (E ++ Ms).length := by rw [h.count, List.length_append]
    exact ⟨⟨h.adv.trans hgrow, hc, hfront, fun hc => absurd hc hcol⟩, by rw [← hc]; rfl, rfl, rfl⟩
  | false =>
    cases hok : allBytes t.port.writable (outSlot t) (4 * Ms.length) with
    | false =>
      rw [hrefuse hco hok]
      exact .write E Ms h hfront hw (by rw [← h.adv.co]; exact hco) rfl hslot (by rw [← h.adv.port]; exact hok)
    | true =>
      obtain ⟨u, hu, hset, hwork, hregs, hphase, -, -⟩ := hstore hco hok
      rw [hu]
      have hgrow := (emitElems_applies t Ms).1 u hu
      have hc : u.work.c = (E ++ Ms).length := by rw [hwork, List.length_append, ← h.count]
      refine ⟨⟨h.adv.trans hgrow.advances, hc, hfront, fun hcol => ?_⟩, by rw [hwork, h.count, List.length_append],
        hphase, hregs⟩
      refine setOf_append (h.out hcol) hlen (fun p hp => ?_) (by rw [← hslot]; exact hset)
      exact hgrow.mem (by rw [hc]; exact hlen) p (.inl (by rw [h.outBase, h.count]; exact hp))

theorem emits_self (h : Filled l t E) : Emits l t E t := ⟨h, by rw [← h.count], rfl, rfl⟩

/-- The compaction store of the next elements of the result, with the tables built (R152). -/
theorem compactStore4_yields (h : Filled l t E) (hl : Launched i q l) {X : V128} {m : BitVec 4}
    (hv : t.regs.tblValid = true) (hfront : E ++ (setBits m).map (lane4 X) <+: result l) (hw : 4 ≤ q.width) :
    Yields (BusFault q l) (Emits l t (E ++ (setBits m).map (lane4 X))) (compactStore4 X m t) := by
  rw [compactStore4_eq X m hv]
  split
  · rename_i hnil
    rw [hnil, List.append_nil]
    exact emits_self h
  · exact emitElems_yields h hl hfront (by rw [List.length_map]; exact (popcount_le m).trans hw)

/-- The same of eight lanes (R153). -/
theorem compactStore8_yields (h : Filled l t E) (hl : Launched i q l) {Y : V256} {m : BitVec 8}
    (hv : t.regs.tblValid = true) (hfront : E ++ (setBits m).map (lane8 Y) <+: result l) (hw : 8 ≤ q.width) :
    Yields (BusFault q l) (Emits l t (E ++ (setBits m).map (lane8 Y))) (compactStore8 Y m t) := by
  rw [compactStore8_eq Y m hv]
  split
  · rename_i hnil
    rw [hnil, List.append_nil]
    exact emits_self h
  · exact emitElems_yields h hl hfront (by rw [List.length_map]; exact (popcount_le m).trans hw)

end

end Sys2Proof.Machine
end

section
/-! One iteration of each loop (spec/43_scalar_merge.md R192, spec/44_galloping.md R202, R203, spec/45_qfilter.md R221, R228,
spec/46_shuffling.md R243, R250, R257) on a launched command: what has been stored stays the common values that one of the
cursors has passed (`Progress`), or the iteration ends in a bus fault. -/

-- Elaborated one at a time: the package as one text would otherwise hold a thread and its stack for many theorems at once.
set_option Elab.async false

namespace Sys2Proof.Machine

/-- What is stored and counted in `t` are the common values that one of the cursors has passed (R223). -/
def Progress (l t : State) : Prop :=
  ∃ E, Filled l t E ∧ Emitted (elemA l) (elemB l) l.na l.nb t.work.i t.work.j E

section

variable {i : Instr} {q : Profile} {l t u : State} {E Ms : List Elem}

/-- What has been emitted at any place of the cursors is a front of the result. -/
theorem Launched.front (hl : Launched i q l) {x y : Nat} (h : Emitted (elemA l) (elemB l) l.na l.nb x y E) :
    E <+: result l := by
  refine List.prefix_iff_eq_take.2 (Ascending.front h.sorted hl.ascending_result (fun e he => ?_) ?_).2.symm
  · exact mem_result.2 ((h.mem e).1 he).1
  · exact fun e he f hf hlt => h.closed hl.risingA hl.risingB he (mem_result.1 hf) hlt

/-- With one input exhausted the whole result has been emitted (R121). -/
theorem Progress.finished (h : Progress l t) (hl : Launched i q l) (hend : t.work.i = l.na ∨ t.work.j = l.nb) :
    Filled l t (result l) := by
  obtain ⟨E, hf, he⟩ := h
  have : E = result l :=
    Ascending.ext he.sorted hl.ascending_result fun e => (he.all hend e).trans mem_result.symm
  exact this ▸ hf

theorem Launched.progress (hl : Launched i q l) : Progress l l :=
  ⟨[], hl.filled, by rw [hl.start.1, hl.start.2.1]; exact Emitted.start _ _ _ _⟩

/-- A change of phase and of working registers other than cursors, count and latched flag. -/
theorem Progress.of_work (h : Progress l t) (ha : Advances t u) (hm : u.mem = t.mem) (hc : u.work.c = t.work.c)
    (hi : u.work.i = t.work.i) (hj : u.work.j = t.work.j) : Progress l u := by
  obtain ⟨E, hf, he⟩ := h
  exact ⟨E, hf.of_work ha hm hc, by rw [hi, hj]; exact he⟩

theorem Launched.width_pos (hl : Launched i q l) : 1 ≤ q.width := by
  rcases (profile_facts hl.profile).2 with h | h | h <;> omega

/-! ### Scalar merge -/

theorem mergeBody_yields (h : Progress l t) (hl : Launched i q l) (hi : t.work.i < l.na) (hj : t.work.j < l.nb) :
    Yields (BusFault q l) (Progress l) (mergeBody t) := by
  obtain ⟨E, hf, he⟩ := h
  refine (readA_yields hf hl hi).bind fun ea hea => (readB_yields hf hl hj).bind fun eb heb => ?_
  subst hea heb
  split
  · rename_i heq
    have he' := he.both hl.risingA hl.risingB hi hj heq
    refine (emitElems_yields hf hl (hl.front he') hl.width_pos).bind fun u hu => ?_
    exact ⟨_, hu.filled.setWork rfl rfl, by simpa [hu.work] using he'⟩
  · rename_i hne
    split
    · rename_i hlt
      exact ⟨E, hf.setWork rfl rfl, he.left hl.risingA hl.risingB hi hj hlt⟩
    · rename_i hge
      have hgt : (elemB l t.work.j).toNat < (elemA l t.work.i).toNat :=
        lt_of_le_of_ne (not_lt.1 hge) fun e => hne (BitVec.eq_of_toNat_eq e.symm)
      exact ⟨E, hf.setWork rfl rfl, he.right hl.risingA hl.risingB hi hj hgt⟩

/-! ### Matches of a pair of blocks -/

/-- The lanes a mask marks, taken from a stretch of an ascending sequence, ascend. -/
theorem ascending_marked {n na x : Nat} {a f : Nat → Elem} (m : BitVec n) (ha : Rising a na) (hx : x + n ≤ na)
    (hf : ∀ k, k < n → f k = a (x + k)) : Ascending ((setBits m).map f) := by
  refine List.pairwise_map.2 ((setBits_sorted m).imp_of_mem fun {k k'} hk hk' hlt => ?_)
  have hk := ((setBits_getLsbD m k).1 hk).1
  have hk' := ((setBits_getLsbD m k').1 hk').1
  rw [hf k hk, hf k' hk']
  exact ha _ _ (by omega) (by omega)

/-- They are the elements of the stretch that occur in the other block, where the mask marks those. -/
theorem mem_marked {n W x y : Nat} {a b f : Nat → Elem} {m : BitVec n} (hf : ∀ k, k < n → f k = a (x + k))
    (hm : ∀ k, k < n → (m.getLsbD k = true ↔ ∃ v, v < W ∧ f k = b (y + v))) (e : Elem) :
    e ∈ (setBits m).map f ↔ ∃ x' y', x ≤ x' ∧ x' < x + n ∧ y ≤ y' ∧ y' < y + W ∧ a x' = e ∧ b y' = e := by
  rw [List.mem_map]
  constructor
  · rintro ⟨k, hk, rfl⟩
    obtain ⟨hkn, hbit⟩ := (setBits_getLsbD m k).1 hk
    obtain ⟨v, hv, hfv⟩ := (hm k hkn).1 hbit
    exact ⟨x + k, y + v, by omega, by omega, by omega, by omega, (hf k hkn).symm, hfv.symm⟩
  · rintro ⟨x', y', h1, h2, h3, h4, h5, h6⟩
    have hk : x' - x < n := by omega
    have hfk : f (x' - x) = e := by rw [hf _ hk, show x + (x' - x) = x' by omega, h5]
    refine ⟨x' - x, (setBits_getLsbD m _).2 ⟨hk, (hm _ hk).2 ⟨y' - y, by omega, ?_⟩⟩, hfk⟩
    rw [hfk, show y + (y' - y) = y' by omega, h6]

theorem Filled.advance (h : Filled l t E) (W : Nat) (u v : Elem) : Filled l (advance W u v t) E := by
  rcases advance_cases W u v t with ⟨-, e⟩ | ⟨-, e⟩ | ⟨-, e⟩ <;> rw [e] <;> exact h.setWork rfl rfl

/-- `Ms` are the common values of the blocks of width `W` at `x` of A and `y` of B, ascending. -/
structure BlockMatches (l : State) (W x y : Nat) (Ms : List Elem) : Prop where
  sorted : Ascending Ms
  mem : ∀ e, e ∈ Ms ↔
    ∃ x' y', x ≤ x' ∧ x' < x + W ∧ y ≤ y' ∧ y' < y + W ∧ elemA l x' = e ∧ elemB l y' = e

/-- `t` has the cursors at `x` and `y`, whole blocks of width `W` ahead of both. -/
structure AtBlocks (l t : State) (W x y : Nat) : Prop where
  i : t.work.i = x
  j : t.work.j = y
  pos : 0 < W
  inA : x + W ≤ l.na
  inB : y + W ≤ l.nb

/-- Advance on the maxima of two blocks (R155). -/
abbrev advanceAt (l : State) (W x y : Nat) (t : State) : State :=
  advance W (elemA l (x + W - 1)) (elemB l (y + W - 1)) t

section

variable {W x y : Nat}

/-- The cursors after Advance on a visited pair of blocks, its matches emitted (R223). -/
theorem BlockMatches.emitted (hm : BlockMatches l W x y Ms) (hl : Launched i q l)
    (he : Emitted (elemA l) (elemB l) l.na l.nb x y E) (ht : AtBlocks l t W x y) :
    Emitted (elemA l) (elemB l) l.na l.nb (advanceAt l W x y t).work.i (advanceAt l W x y t).work.j (E ++ Ms) := by
  obtain ⟨rfl, rfl, hW, hx, hy⟩ := ht
  refine he.block hl.risingA hl.risingB hW hx hy hm.sorted hm.mem ?_
  rcases advance_cases W (elemA l (t.work.i + W - 1)) (elemB l (t.work.j + W - 1)) t with
    ⟨hmax, e⟩ | ⟨hmax, e⟩ | ⟨hmax, e⟩ <;> rw [advanceAt, e]
  · exact .inl ⟨hmax, rfl, rfl⟩
  · exact .inr (.inl ⟨hmax, rfl, rfl⟩)
  · exact .inr (.inr ⟨hmax, rfl, rfl⟩)

/-- The matches of a pair of blocks are the next elements of the result. -/
theorem BlockMatches.front (hm : BlockMatches l W x y Ms) (hl : Launched i q l)
    (he : Emitted (elemA l) (elemB l) l.na l.nb x y E) (ht : AtBlocks l t W x y) : E ++ Ms <+: result l :=
  hl.front (hm.emitted hl he ht)

/-- With them stored, Advance keeps the progress. -/
theorem BlockMatches.progress (hm : BlockMatches l W x y Ms) (hl : Launched i q l)
    (he : Emitted (elemA l) (elemB l) l.na l.nb x y E) (ht : AtBlocks l t W x y) (hf : Filled l t (E ++ Ms)) :
    Progress l (advanceAt l W x y t) :=
  ⟨_, hf.advance _ _ _, hm.emitted hl he ht⟩

theorem AtBlocks.of_cursors (h : AtBlocks l t W x y) (hi : u.work.i = t.work.i) (hj : u.work.j = t.work.j) :
    AtBlocks l u W x y :=
  ⟨hi.trans h.i, hj.trans h.j, h.pos, h.inA, h.inB⟩

end

/-! ### Blocks of four -/

theorem lane4_blockA (x k : Nat) (hk : k < 4) : lane4 (memLanes4 l.mem l.regs.aBase x) k = elemA l (x + k) :=
  lane4_ofLanes4 _ _ hk

theorem lane4_blockB (x k : Nat) (hk : k < 4) : lane4 (memLanes4 l.mem l.regs.bBase x) k = elemB l (x + k) :=
  lane4_ofLanes4 _ _ hk

/-- The matches of the 4-blocks at the cursors, in A's order. -/
def matches4 (l : State) (x y : Nat) : List Elem :=
  (setBits (rotMatch4 (memLanes4 l.mem l.regs.aBase x) (memLanes4 l.mem l.regs.bBase y))).map
    (lane4 (memLanes4 l.mem l.regs.aBase x))

theorem blockMatches_matches4 (hl : Launched i q l) {x y : Nat} (hx : x + 4 ≤ l.na) :
    BlockMatches l 4 x y (matches4 l x y) := by
  refine ⟨ascending_marked _ hl.risingA hx (lane4_blockA x), mem_marked (lane4_blockA x) fun k hk => ?_⟩
  rw [rotMatch4_getLsbD _ _ _ hk]
  exact exists_congr fun v => and_congr_right fun hv => by rw [lane4_blockB y v hv]

/-- Storing the matches of a pair of 4-blocks and advancing. -/
theorem visit4_yields {x y : Nat} (hf : Filled l t E) (ht : AtBlocks l t 4 x y)
    (he : Emitted (elemA l) (elemB l) l.na l.nb x y E) (hl : Launched i q l) (hw : 4 ≤ q.width)
    (hv : t.regs.tblValid = true) {VA VB : V128} (hA : VA = memLanes4 l.mem l.regs.aBase x)
    (hB : VB = memLanes4 l.mem l.regs.bBase y) :
    Yields (BusFault q l) (Progress l) (do
      let u ← compactStore4 VA (rotMatch4 VA VB) t
      .ok (advance 4 (lane4 VA 3) (lane4 VB 3) u)) := by
  subst hA hB
  have hm := blockMatches_matches4 hl (y := y) ht.inA
  refine (compactStore4_yields hf hl hv (hm.front hl he ht) hw).bind fun u hu => ?_
  rw [lane4_blockA _ _ (by omega), lane4_blockB _ _ (by omega)]
  exact hm.progress hl he (ht.of_cursors hu.cursorA hu.cursorB) hu.filled

/-- A load of a 4-block of A at the cursor. -/
theorem loadA4_yields (hf : Filled l t E) (hl : Launched i q l) {x : Nat} (hx : x + 4 ≤ padTo q.width l.na) :
    Yields (BusFault q l) (fun X => X = memLanes4 l.mem l.regs.aBase x) (loadV4 t t.regs.aBase x) := by
  rw [hf.aBase]
  exact loadV4_yields hf hl (.a q l) hx

theorem loadB4_yields (hf : Filled l t E) (hl : Launched i q l) {x : Nat} (hx : x + 4 ≤ padTo q.width l.nb) :
    Yields (BusFault q l) (fun X => X = memLanes4 l.mem l.regs.bBase x) (loadV4 t t.regs.bBase x) := by
  rw [hf.bBase]
  exact loadV4_yields hf hl (.b q l) hx

theorem bodyShuf4_yields (h : Progress l t) (hl : Launched i q l) (hw : 4 ≤ q.width) (hv : t.regs.tblValid = true)
    (hi : t.work.i + 4 ≤ l.na) (hj : t.work.j + 4 ≤ l.nb) :
    Yields (BusFault q l) (Progress l) (bodyShuf4 t) := by
  obtain ⟨E, hf, he⟩ := h
  refine (loadA4_yields hf hl (hi.trans hl.na_le)).bind fun va hA => ?_
  refine (loadB4_yields hf hl (hj.trans hl.nb_le)).bind fun vb hB => ?_
  refine visit4_yields (t := t.setWork _) ?_ ⟨?_, ?_, by omega, hi, hj⟩ he hl hw ?_ hA hB
  · exact hf.setWork rfl rfl
  · rfl
  · rfl
  · exact hv

theorem filterBlocks_yields (h : Progress l t) (hl : Launched i q l) (hw : 4 ≤ q.width) (hv : t.regs.tblValid = true)
    (hi : t.work.i + 4 ≤ l.na) (hj : t.work.j + 4 ≤ l.nb) (hA : t.work.va = memLanes4 l.mem l.regs.aBase t.work.i)
    (hB : t.work.vb = memLanes4 l.mem l.regs.bBase t.work.j) :
    Yields (BusFault q l) (Progress l) (filterBlocks t) := by
  obtain ⟨E, hf, he⟩ := h
  unfold filterBlocks
  simp only [hv, qfMatch_eq_rotMatch4]
  refine visit4_yields (t := t.setWork _) ?_ ⟨?_, ?_, by omega, hi, hj⟩ he hl hw ?_ hA hB
  · exact hf.setWork rfl rfl
  · rfl
  · rfl
  · exact hv

theorem bodyQfB4_yields (h : Progress l t) (hl : Launched i q l) (hw : 4 ≤ q.width) (hv : t.regs.tblValid = true)
    (hi : t.work.i + 4 ≤ l.na) (hj : t.work.j + 4 ≤ l.nb) :
    Yields (BusFault q l) (Progress l) (bodyQfB4 t) := by
  obtain ⟨E, hf, he⟩ := h
  refine (loadA4_yields hf hl (hi.trans hl.na_le)).bind fun va hA => ?_
  refine (loadB4_yields hf hl (hj.trans hl.nb_le)).bind fun vb hB => ?_
  exact filterBlocks_yields ⟨E, hf.setWork rfl rfl, he⟩ hl hw hv hi hj hA hB

/-! ### The blocks QF_V2 keeps -/

/-- The vector registers hold the blocks at the cursors, where the cursors are below the padded lengths (R227, R229). -/
structure BlocksLoaded (l t : State) : Prop where
  a : t.work.i < padTo 4 l.na → t.work.va = memLanes4 l.mem l.regs.aBase t.work.i
  b : t.work.j < padTo 4 l.nb → t.work.vb = memLanes4 l.mem l.regs.bBase t.work.j

theorem padTo_add_le {x n : Nat} (hx : x % 4 = 0) (h : x < padTo 4 n) : x + 4 ≤ padTo 4 n := by
  unfold padTo at *
  omega

/-- A load into a vector register where the cursor allows it: `f v` is the state with `v` in the register. -/
theorem Yields.load_if {R : Raised → Prop} {P : Prop} [Decidable P] {load : Except Raised V128} {X v₀ : V128}
    {f : V128 → State} (hload : P → Yields R (fun v => v = X) load) (hkeep : f v₀ = t) :
    Yields R (fun u => ∃ v, u = f v ∧ (P → v = X)) (if P then load >>= fun v => .ok (f v) else .ok t) := by
  split
  · rename_i hP
    exact (hload hP).bind fun v hv => ⟨v, rfl, fun _ => hv⟩
  · rename_i hP
    exact ⟨v₀, hkeep.symm, fun h => absurd h hP⟩

/-- A reload of A's block: the register then holds the block at the cursor, and nothing else has changed. -/
theorem reloadA_yields (h : Progress l t) (hl : Launched i q l) (hw : q.width = 4) (hi : t.work.i % 4 = 0) :
    Yields (BusFault q l) (fun u => ∃ va, u = t.setWork { t.work with va := va } ∧
      (t.work.i < padTo 4 l.na → va = memLanes4 l.mem l.regs.aBase t.work.i)) (reloadA t) := by
  obtain ⟨E, hf, -⟩ := h
  unfold reloadA
  rw [hf.na]
  exact Yields.load_if (v₀ := t.work.va) (fun hlt => loadA4_yields hf hl (by rw [hw]; exact padTo_add_le hi hlt)) rfl

theorem reloadB_yields (h : Progress l t) (hl : Launched i q l) (hw : q.width = 4) (hj : t.work.j % 4 = 0) :
    Yields (BusFault q l) (fun u => ∃ vb, u = t.setWork { t.work with vb := vb } ∧
      (t.work.j < padTo 4 l.nb → vb = memLanes4 l.mem l.regs.bBase t.work.j)) (reloadB t) := by
  obtain ⟨E, hf, -⟩ := h
  unfold reloadB
  rw [hf.nb]
  exact Yields.load_if (v₀ := t.work.vb) (fun hlt => loadB4_yields hf hl (by rw [hw]; exact padTo_add_le hj hlt)) rfl

theorem Progress.setVectors (h : Progress l t) (va vb : V128) :
    Progress l (t.setWork { t.work with va := va, vb := vb }) :=
  h.of_work (.of_work rfl rfl rfl rfl rfl rfl) rfl rfl rfl rfl

theorem enterQfV2_yields (h : Progress l t) (hl : Launched i q l) (hw : q.width = 4) (hi : t.work.i = 0)
    (hj : t.work.j = 0) :
    Yields (BusFault q l) (fun u => Progress l u ∧ BlocksLoaded l u) (enterQfV2 t) := by
  have h' : Progress l (t.setPhase .vec) := h.of_work (.of_work rfl rfl rfl rfl rfl rfl) rfl rfl rfl rfl
  refine (reloadA_yields h' hl hw (by simp [hi])).bind fun u hu => ?_
  obtain ⟨va, rfl, hA⟩ := hu
  refine (reloadB_yields (h'.setVectors va _) hl hw (by simp [hj])).mono fun u hu => ?_
  obtain ⟨vb, rfl, hB⟩ := hu
  exact ⟨h'.setVectors va vb, hA, hB⟩

/-- Advancing and compacting leave the vector registers. -/
theorem filterBlocks_keeps {s t : State} (h : filterBlocks s = .ok t) :
    t.work.va = s.work.va ∧ t.work.vb = s.work.vb := by
  unfold filterBlocks at h
  simp only [bind, Except.bind] at h
  split at h
  · cases h
  · rename_i u hu
    cases h
    obtain ⟨hw, -⟩ := compactStore4_work hu
    rcases advance_cases 4 (lane4 s.work.va 3) (lane4 s.work.vb 3) u with ⟨-, e⟩ | ⟨-, e⟩ | ⟨-, e⟩ <;>
      rw [e] <;> simp [hw]

theorem Yields.and_ok {α : Type} {R : Raised → Prop} {P : α → Prop} {x : Except Raised α} (hx : Yields R P x) :
    Yields R (fun a => P a ∧ x = .ok a) x := by
  cases x with
  | error e => exact hx
  | ok a => exact ⟨hx, rfl⟩

/-- A reload made only where the cursor has moved from `y` to `x`. -/
theorem Yields.if_moved {R : Raised → Prop} {P : State → Prop} {x y : Nat} {reload : Except Raised State}
    (hmoved : Yields R P reload) (hstay : x = y → P t) : Yields R P (if x ≠ y then reload else .ok t) := by
  split
  · exact hmoved
  · rename_i h
    exact hstay (not_not.1 h)

theorem bodyQfV2_yields (h : Progress l t) (hl : Launched i q l) (hw : q.width = 4) (hv : t.regs.tblValid = true)
    (hi : t.work.i + 4 ≤ l.na) (hj : t.work.j + 4 ≤ l.nb) (hi4 : t.work.i % 4 = 0) (hj4 : t.work.j % 4 = 0)
    (hb : BlocksLoaded l t) :
    Yields (BusFault q l) (fun u => Progress l u ∧ BlocksLoaded l u) (bodyQfV2 t) := by
  have hpa : l.na ≤ padTo 4 l.na := hw ▸ hl.na_le
  have hpb : l.nb ≤ padTo 4 l.nb := hw ▸ hl.nb_le
  refine (filterBlocks_yields h hl hw.ge hv hi hj (hb.a (by omega)) (hb.b (by omega))).and_ok.bind fun u hu => ?_
  obtain ⟨hu, hok⟩ := hu
  obtain ⟨hva, hvb⟩ := filterBlocks_keeps hok
  have hcur := (filterBlocks_ok hok).cursors
  refine Yields.bind (Yields.if_moved (reloadA_yields hu hl hw (by omega)) fun e =>
    ⟨u.work.va, rfl, by rw [e, hva]; exact hb.a⟩) fun v hv => ?_
  obtain ⟨va, rfl, hA⟩ := hv
  refine (Yields.if_moved (reloadB_yields (hu.setVectors va _) hl hw ?_) fun e =>
    ⟨u.work.vb, rfl, by rw [e, hvb]; exact hb.b⟩).mono fun v hv => ?_
  · simp only [State.setWork_work]
    omega
  · obtain ⟨vb, rfl, hB⟩ := hv
    exact ⟨hu.setVectors va vb, hA, hB⟩

/-! ### Blocks of eight -/

theorem lane8_blockA (x k : Nat) (hk : k < 8) : lane8 (memLanes8 l.mem l.regs.aBase x) k = elemA l (x + k) :=
  lane8_ofLanes8 _ _ hk

theorem lane8_blockB (x k : Nat) (hk : k < 8) : lane8 (memLanes8 l.mem l.regs.bBase x) k = elemB l (x + k) :=
  lane8_ofLanes8 _ _ hk

/-- The matches of the 8-blocks at the cursors, in A's order (R257). -/
theorem blockMatches_alignMatch8 (hl : Launched i q l) {x y : Nat} (hx : x + 8 ≤ l.na) :
    BlockMatches l 8 x y ((setBits (alignMatch8 (memLanes8 l.mem l.regs.aBase x) (memLanes8 l.mem l.regs.bBase y))).map
      (lane8 (memLanes8 l.mem l.regs.aBase x))) := by
  refine ⟨ascending_marked _ hl.risingA hx (lane8_blockA x), mem_marked (lane8_blockA x) fun k hk => ?_⟩
  rw [alignMatch8_getLsbD _ _ _ hk]
  exact exists_congr fun v => and_congr_right fun hv => by rw [lane8_blockB y v hv]

theorem bodyShuf256_yields (h : Progress l t) (hl : Launched i q l) (hw : q.width = 8) (hv : t.regs.tblValid = true)
    (hi : t.work.i + 8 ≤ l.na) (hj : t.work.j + 8 ≤ l.nb) :
    Yields (BusFault q l) (Progress l) (bodyShuf256 t) := by
  obtain ⟨E, hf, he⟩ := h
  unfold bodyShuf256
  rw [hf.aBase, hf.bBase]
  refine (loadV8_yields hf hl (.a q l) (hi.trans hl.na_le)).bind fun ya hA => ?_
  refine (loadV8_yields hf hl (.b q l) (hj.trans hl.nb_le)).bind fun yb hB => ?_
  subst hA hB
  have hm := blockMatches_alignMatch8 hl (y := t.work.j) hi
  have ht : AtBlocks l t 8 t.work.i t.work.j := ⟨rfl, rfl, by omega, hi, hj⟩
  refine Yields.bind (compactStore8_yields (t := t.setWork _) ?_ hl hv (hm.front hl he ht) hw.ge) fun u hu => ?_
  · exact hf.setWork rfl rfl
  · rw [lane8_blockA _ _ (by omega), lane8_blockB _ _ (by omega)]
    exact hm.progress hl he (ht.of_cursors hu.cursorA hu.cursorB) hu.filled

/-- The mask of a 4-block of A against the two 4-blocks of B at the cursor (R250). -/
def mask4x8 (l : State) (x y : Nat) : BitVec 4 :=
  rotMatch4 (memLanes4 l.mem l.regs.aBase x) (memLanes4 l.mem l.regs.bBase y) |||
    rotMatch4 (memLanes4 l.mem l.regs.aBase x) (memLanes4 l.mem l.regs.bBase (y + 4))

/-- The matches of a 4-block of A against the eight elements of B at the cursor. -/
def matches4x8 (l : State) (x y : Nat) : List Elem :=
  (setBits (mask4x8 l x y)).map (lane4 (memLanes4 l.mem l.regs.aBase x))

theorem mem_matches4x8 (x y : Nat) (e : Elem) : e ∈ matches4x8 l x y ↔
    ∃ x' y', x ≤ x' ∧ x' < x + 4 ∧ y ≤ y' ∧ y' < y + 8 ∧ elemA l x' = e ∧ elemB l y' = e := by
  refine mem_marked (lane4_blockA x) (fun k hk => ?_) e
  rw [mask4x8, BitVec.getLsbD_or, Bool.or_eq_true, rotMatch4_getLsbD _ _ _ hk, rotMatch4_getLsbD _ _ _ hk]
  constructor
  · rintro (⟨v, hv, h⟩ | ⟨v, hv, h⟩)
    · exact ⟨v, by omega, by rw [h, lane4_blockB y v hv]⟩
    · exact ⟨4 + v, by omega, by rw [h, lane4_blockB (y + 4) v hv, add_assoc]⟩
  · rintro ⟨v, hv, h⟩
    by_cases hv4 : v < 4
    · exact .inl ⟨v, hv4, by rw [h, lane4_blockB y v hv4]⟩
    · refine .inr ⟨v - 4, by omega, ?_⟩
      rw [h, lane4_blockB (y + 4) _ (by omega), show y + 4 + (v - 4) = y + v by omega]

/-- Together the matches of A's two 4-blocks are those of the 8-blocks at the cursors. -/
theorem blockMatches_matches4x8 (hl : Launched i q l) {x y : Nat} (hx : x + 8 ≤ l.na) :
    BlockMatches l 8 x y (matches4x8 l x y ++ matches4x8 l (x + 4) y) := by
  refine ⟨List.pairwise_append.2 ⟨ascending_marked _ hl.risingA (by omega) (lane4_blockA x),
    ascending_marked _ hl.risingA (by omega) (lane4_blockA (x + 4)), fun e he e' he' => ?_⟩, fun e => ?_⟩
  · obtain ⟨v, -, -, hv, -, -, rfl, -⟩ := (mem_matches4x8 x y e).1 he
    obtain ⟨v', -, hv', hvn, -, -, rfl, -⟩ := (mem_matches4x8 (x + 4) y e').1 he'
    exact hl.risingA v v' (by omega) (by omega)
  · rw [List.mem_append, mem_matches4x8, mem_matches4x8]
    constructor
    · rintro (⟨x', y', h1, h2, h⟩ | ⟨x', y', h1, h2, h⟩)
      · exact ⟨x', y', h1, by omega, h⟩
      · exact ⟨x', y', by omega, by omega, h⟩
    · rintro ⟨x', y', h1, h2, h⟩
      by_cases hx : x' < x + 4
      · exact .inl ⟨x', y', h1, hx, h⟩
      · exact .inr ⟨x', y', by omega, by omega, h⟩

theorem bodyShuf8_yields (h : Progress l t) (hl : Launched i q l) (hw : q.width = 8) (hv : t.regs.tblValid = true)
    (hi : t.work.i + 8 ≤ l.na) (hj : t.work.j + 8 ≤ l.nb) :
    Yields (BusFault q l) (Progress l) (bodyShuf8 t) := by
  obtain ⟨E, hf, he⟩ := h
  have hpa := hi.trans hl.na_le
  have hpb := hj.trans hl.nb_le
  refine (loadA4_yields hf hl (x := t.work.i) (by omega)).bind fun va0 hA0 => ?_
  refine (loadA4_yields hf hl (x := t.work.i + 4) (by omega)).bind fun va1 hA1 => ?_
  refine (loadB4_yields hf hl (x := t.work.j) (by omega)).bind fun vb0 hB0 => ?_
  refine (loadB4_yields hf hl (x := t.work.j + 4) (by omega)).bind fun vb1 hB1 => ?_
  subst hA0 hA1 hB0 hB1
  have hm := blockMatches_matches4x8 hl (y := t.work.j) hi
  have ht : AtBlocks l t 8 t.work.i t.work.j := ⟨rfl, rfl, by omega, hi, hj⟩
  have hfront := hm.front hl he ht
  rw [← List.append_assoc] at hfront
  refine Yields.bind (compactStore4_yields (t := t.setWork _) ?_ hl hv ((List.prefix_append _ _).trans hfront)
    (by omega)) fun u hu => ?_
  · exact hf.setWork rfl rfl
  · refine (compactStore4_yields hu.filled hl (by rw [hu.regs]; exact hv) hfront (by omega)).bind fun v hv => ?_
    rw [lane4_blockA _ _ (by omega), lane4_blockB _ _ (by omega)]
    refine hm.progress hl he (ht.of_cursors (hu.trans hv).cursorA (hu.trans hv).cursorB) ?_
    rw [← List.append_assoc]
    exact hv.filled

/-! ### Galloping -/

section

variable {R : Raised → Prop} {s : State} {k : Nat} {a : Elem} {B : Nat → Elem}

/-- The doubling loop (R202, line 1), B's block maxima being `B`: it stops at 1 or twice past a maximum below `a`, and not
before a maximum that is not below `a` or the end of the full blocks. The fuel suffices (R207). -/
theorem doubling_yields (hread : ∀ n, n < nblk s → Yields R (fun e => e = B n) (bmax s n)) {fuel r : Nat}
    (hhalf : r = 1 ∨ (k + r / 2 < nblk s ∧ (B (k + r / 2)).toNat < a.toNat)) (hfuel : nblk s ≤ r * 2 ^ fuel) :
    Yields R (fun r' => (r' = 1 ∨ (k + r' / 2 < nblk s ∧ (B (k + r' / 2)).toNat < a.toNat)) ∧
      (k + r' < nblk s → a.toNat ≤ (B (k + r')).toNat)) (doubling s k a fuel r) := by
  induction fuel generalizing r with
  | zero => exact ⟨hhalf, fun h => by rw [pow_zero] at hfuel; omega⟩
  | succ n ih =>
    unfold doubling
    split
    · rename_i hk
      refine (hread _ hk).bind fun e he => ?_
      subst he
      split
      · rename_i hlt
        refine ih (.inr ?_) (by rw [pow_succ] at hfuel; calc
          nblk s ≤ r * (2 ^ n * 2) := hfuel
          _ = 2 * r * 2 ^ n := by ring)
        rw [Nat.mul_div_cancel_left _ (by omega)]
        exact ⟨hk, hlt⟩
      · rename_i hge
        exact ⟨hhalf, fun _ => not_lt.1 hge⟩
    · rename_i hk
      exact ⟨hhalf, fun h => absurd h hk⟩

/-- Block `n` is the leftmost from `k` on whose maximum is not below `a` (R202). -/
structure Leftmost (B : Nat → Elem) (N k : Nat) (a : Elem) (n : Nat) : Prop where
  block : n < N
  reaches : a.toNat ≤ (B n).toNat
  before : ∀ m, k ≤ m → m < n → (B m).toNat < a.toNat

/-- The binary search (R202, line 4) lands there, from bounds that hold it. -/
theorem bisect_yields (hread : ∀ n, n < nblk s → Yields R (fun e => e = B n) (bmax s n))
    (hmono : ∀ m n, m ≤ n → n < nblk s → (B m).toNat ≤ (B n).toNat) {fuel lower upper mid : Nat}
    (hle : lower ≤ upper) (hup : k + upper < nblk s) (hhigh : a.toNat ≤ (B (k + upper)).toNat)
    (hlow : ∀ n, k ≤ n → n < k + lower → (B n).toNat < a.toNat) (hfuel : upper - lower < 2 ^ fuel) :
    Yields R (fun p => Leftmost B (nblk s) k a (k + p.1)) (bisect s k a fuel lower upper mid) := by
  induction fuel generalizing lower upper mid with
  | zero =>
    obtain rfl : lower = upper := by rw [pow_zero] at hfuel; omega
    exact ⟨hup, hhigh, hlow⟩
  | succ n ih =>
    unfold bisect
    rw [pow_succ] at hfuel
    split
    · refine (hread _ (by omega)).bind fun e he => ?_
      subst he
      split
      · rename_i hge
        exact ih (by omega) (by omega) hge hlow (by omega)
      · rename_i hlt
        refine ih (by omega) hup hhigh (fun m hm hm' => ?_) (by omega)
        exact (hmono m _ (by omega) (by omega)).trans_lt (not_le.1 hlt)
    · obtain rfl : lower = upper := by omega
      exact ⟨hup, hhigh, hlow⟩

end

theorem lane4_bcast4 (e : Elem) (k : Nat) : lane4 (bcast4 e) k = e := by
  unfold lane4 bcast4
  split <;> rfl

/-- The probe's mask is not 0 exactly when the element stands in the block (R203). -/
theorem eqMask4_bcast4 (e : Elem) (X : V128) : eqMask4 (bcast4 e) X ≠ 0 ↔ ∃ k, k < 4 ∧ lane4 X k = e := by
  constructor
  · intro h
    by_contra hc
    refine h (mask4_ext fun k hk => ?_)
    rw [eqMask4_getLsbD _ _ _ hk, lane4_bcast4, beq_iff_eq]
    exact ⟨fun he => absurd ⟨k, hk, he.symm⟩ hc, fun hz => by simp at hz⟩
  · rintro ⟨k, hk, h⟩ hz
    have := eqMask4_getLsbD (bcast4 e) X k hk
    rw [hz, lane4_bcast4, h] at this
    simp at this

/-- What the probe emits: the element, where the mask is not 0. -/
def probed (a : Elem) (m : BitVec 4) : List Elem := if m ≠ 0 then [a] else []

theorem mem_probed {a e : Elem} {m : BitVec 4} : e ∈ probed a m ↔ e = a ∧ m ≠ 0 := by
  unfold probed
  split
  · rename_i hm
    rw [List.mem_singleton, and_iff_left hm]
  · rename_i hm
    exact ⟨fun h => (by cases h), fun h => absurd h.2 hm⟩

theorem ascending_probed (a : Elem) (m : BitVec 4) : Ascending (probed a m) := by
  unfold probed
  split <;> simp

/-- The probe of the 4-block at `y` of B emits the element where it stands in that block. -/
theorem mem_probed_block {a e : Elem} {y : Nat} :
    e ∈ probed a (eqMask4 (bcast4 a) (memLanes4 l.mem l.regs.bBase y)) ↔
      e = a ∧ ∃ y', y ≤ y' ∧ y' < y + 4 ∧ elemB l y' = a := by
  rw [mem_probed, eqMask4_bcast4]
  refine and_congr_right fun _ => ⟨fun ⟨k, hk, h⟩ => ?_, fun ⟨y', h1, h2, h⟩ => ?_⟩
  · exact ⟨y + k, by omega, by omega, by rw [← h, lane4_blockB y k hk]⟩
  · exact ⟨y' - y, by omega, by rw [lane4_blockB y _ (by omega), ← h, show y + (y' - y) = y' by omega]⟩

theorem emitOnMatch_yields (h : Filled l t E) (hl : Launched i q l) {a : Elem} {m : BitVec 4}
    (hfront : E ++ probed a m <+: result l) :
    Yields (BusFault q l) (Emits l t (E ++ probed a m)) (emitOnMatch a m t) := by
  unfold emitOnMatch probed at *
  split
  · rename_i hm
    rw [if_pos hm] at hfront
    exact emitElems_yields h hl hfront hl.width_pos
  · rw [List.append_nil]
    exact emits_self h

/-- The probe and emit step at the block the search has found (R203). -/
theorem probe_yields {n k x : Nat} (hf : Filled l t E) (hi : t.work.i = x) (hj : t.work.j = 4 * n)
    (he : Emitted (elemA l) (elemB l) l.na l.nb x (4 * k) E) (hl : Launched i q l) (hx : x < l.na)
    (hk : k ≤ n) (hn : Leftmost (fun b => elemB l (4 * b + 3)) (l.nb / 4) k (elemA l x) n) :
    Yields (BusFault q l) (Progress l) (probe (elemA l x) t) := by
  have hblock : 4 * n + 4 ≤ l.nb := by have := hn.block; omega
  unfold probe
  rw [hj]
  refine (loadB4_yields hf hl (hblock.trans hl.nb_le)).bind fun vb hB => ?_
  subst hB
  have hnext := he.gallop hl.risingA hl.risingB hx hk hblock hn.reaches hn.before (ascending_probed _ _)
    fun _ => mem_probed_block
  refine Yields.bind (emitOnMatch_yields (t := t.setWork _) ?_ hl (hl.front hnext)) fun u hu => ?_
  · exact hf.setWork rfl rfl
  · exact ⟨_, hu.filled.setWork rfl rfl, by simpa only [hu.work, State.setWork_work, hi, hj] using hnext⟩

/-- An iteration of GALLOP (R202, R203): the search, and then the break or the probe. -/
theorem gallopBody_yields (h : Progress l t) (hl : Launched i q l) (hi : t.work.i < l.na)
    (hj : t.work.j = 4 * t.work.k) (hk : t.work.k < nblk t) :
    Yields (BusFault q l) (Progress l) (gallopBody t) := by
  obtain ⟨E, hf, he⟩ := h
  have hblk : nblk t = l.nb / 4 := by rw [nblk, hf.nb]
  have hread : ∀ n, n < nblk t → Yields (BusFault q l) (fun e => e = elemB l (4 * n + 3)) (bmax t n) :=
    fun n hn => readB_yields hf hl (by omega)
  have hmono : ∀ m n, m ≤ n → n < nblk t → (elemB l (4 * m + 3)).toNat ≤ (elemB l (4 * n + 3)).toNat :=
    fun m n hmn hn => hl.risingB.le (by omega) (by omega)
  have hnb : l.nb < 2 ^ 32 := l.regs.bLen.isLt
  refine (readA_yields hf hl hi).bind fun a ha => ?_
  subst ha
  refine (doubling_yields (B := fun n => elemB l (4 * n + 3)) hread (.inl rfl)
    (by rw [searchFuel]; omega)).bind fun r hr => ?_
  obtain ⟨hhalf, -⟩ := hr
  generalize hup : (if t.work.k + r < nblk t then r else nblk t - 1 - t.work.k) = upper
  obtain ⟨hupper, hhalf_le⟩ : t.work.k + upper < nblk t ∧ r / 2 ≤ upper := by
    rw [← hup]
    rcases hhalf with rfl | ⟨hhalf, -⟩ <;> split <;> omega
  refine (hread _ hupper).bind fun last hlast => ?_
  subst hlast
  split
  · refine ⟨E, Filled.setPhase (hf.setWork ?_ ?_) _, by simpa [toTail, ← hj] using he⟩
    · rfl
    · rfl
  · rename_i hreach
    refine (bisect_yields hread hmono hhalf_le hupper (not_lt.1 hreach) (fun n hn hlt => ?_)
      (by rw [searchFuel]; omega)).bind fun found hfound => ?_
    · rcases hhalf with rfl | ⟨hhalf, hbelow⟩
      · omega
      · exact (hmono n _ hlt.le hhalf).trans_lt hbelow
    · rw [hblk] at hfound
      refine probe_yields (t := t.setWork _) ?_ ?_ ?_ (hj ▸ he) hl hi (Nat.le_add_right _ _) hfound
      · exact hf.setWork rfl rfl
      · rfl
      · rfl

end

end Sys2Proof.Machine
end

section
/-! Whole kernel commands (spec/00_scope.md R15): every engine step of a launched command goes on with the result stored up to
the cursors, completes with all of it, or takes a bus fault (`Stage`); so does the run. -/

-- Elaborated one at a time: the package as one text would otherwise hold a thread and its stack for many theorems at once.
set_option Elab.async false

namespace Sys2Proof.Machine

/-- What the block loops rest on in phase VEC: the tables built where they are needed (R118), QF_V2's blocks loaded (R227). -/
structure VecReady (i : Instr) (q : Profile) (l t : State) : Prop where
  tables : q.needsTables = true → t.regs.tblValid = true
  loaded : ∀ co, i = .qfV2 co → BlocksLoaded l t

/-- Where a step can leave a launched command: running, completed with the result, or ended by a bus fault. -/
inductive Stage (i : Instr) (q : Profile) (l t : State) : Prop where
  | running (busy : t.busy = true) (past : t.phase ≠ .launch) (progress : Progress l t)
      (ready : t.phase = .vec → VecReady i q l t)
  | completed (u : State) (filled : Filled l u (result l)) (e : t = complete u)
  | faulted (r : Raised) (bus : BusFault q l r) (e : t = takeFault r.fault r.addr r.state)

section

variable {i : Instr} {q : Profile} {l t : State}

theorem settle_stage {x : Except Raised State} (h : Yields (BusFault q l) (Stage i q l) x) : Stage i q l (settle x) := by
  cases x with
  | ok t => exact h
  | error e => exact .faulted e h rfl

theorem Progress.cmd (h : Progress l t) : t.regs.cmd = l.regs.cmd := by
  obtain ⟨E, hf, -⟩ := h
  exact hf.cmd

theorem Progress.na (h : Progress l t) : t.na = l.na := by
  obtain ⟨E, hf, -⟩ := h
  exact hf.na

theorem Progress.nb (h : Progress l t) : t.nb = l.nb := by
  obtain ⟨E, hf, -⟩ := h
  exact hf.nb

theorem Progress.setPhase (h : Progress l t) (p : Phase) : Progress l (t.setPhase p) :=
  h.of_work (.of_work rfl rfl rfl rfl rfl rfl) rfl rfl rfl rfl

/-- A state in phase VEC that is ready for the loop. -/
theorem vec_stage (hp : t.phase = .vec) (h : Progress l t) (hr : VecReady i q l t) : Stage i q l t :=
  .running (busy_iff.2 (by rw [hp]; decide)) (by rw [hp]; decide) h fun _ => hr

theorem tail_stage (hp : t.phase = .tail) (h : Progress l t) : Stage i q l t :=
  .running (busy_iff.2 (by rw [hp]; decide)) (by rw [hp]; decide) h fun hv => by rw [hp] at hv; cases hv

theorem toTail_stage (h : Progress l t) : Stage i q l (toTail t) := tail_stage rfl (h.setPhase .tail)

/-! ### Up to the loops -/

/-- Dispatch of a command other than QF_V2 into its block loop. -/
theorem enterVec_stage (h : Progress l t) (ht : q.needsTables = true → t.regs.tblValid = true)
    (hi : ∀ co, i ≠ .qfV2 co) : Stage i q l (t.setPhase .vec) :=
  vec_stage rfl (h.setPhase .vec) ⟨ht, fun co e => absurd e (hi co)⟩

theorem Launched.qfV2_width {co : Bool} (hl : Launched (.qfV2 co) q l) : q.width = 4 := by
  cases hl.profile
  rfl

theorem dispatch_stage (h : Progress l t) (hl : Launched i q l) (hi : t.work.i = 0) (hj : t.work.j = 0)
    (ht : q.needsTables = true → t.regs.tblValid = true) : Stage i q l (dispatch i t) := by
  cases i with
  | tbld => cases hl.profile
  | merge => exact toTail_stage h
  | gallop co =>
    have h' : Progress l (t.setWork { t.work with k := 0 }) :=
      h.of_work (.of_work rfl rfl rfl rfl rfl rfl) rfl rfl rfl rfl
    exact enterVec_stage h' ht (by simp)
  | qfV2 co =>
    refine settle_stage ((enterQfV2_yields h hl hl.qfV2_width hi hj).and_ok.mono fun u hu => ?_)
    obtain ⟨⟨hprog, hloaded⟩, hok⟩ := hu
    have hregs := ((enterQfV2_applies t).1 u hok).regs
    exact vec_stage (enterQfV2_phase hok) hprog ⟨fun hn => by rw [hregs]; exact ht hn, fun _ _ => hloaded⟩
  | qfB4 co => exact enterVec_stage h ht (by simp)
  | shuf4 => exact enterVec_stage h ht (by simp)
  | shuf8 => exact enterVec_stage h ht (by simp)
  | shuf256 => exact enterVec_stage h ht (by simp)

/-- The launch, its checks passing, goes to the builder or to the loops (R118, R119). -/
theorem launchStep_stage (hl : Launched i q l) : Stage i q l (launchStep l) := by
  obtain ⟨hi, hj, -⟩ := hl.start
  unfold launchStep
  simp only [hl.command, hl.profile, hl.checks, gate]
  split
  · exact .running rfl (by simp) (hl.progress.setPhase .tbuild) fun hv => by cases hv
  · rename_i hgate
    exact dispatch_stage hl.progress hl hi hj fun hn => by simpa [hn] using hgate

theorem buildStep_stage (h : Progress l t) (hl : Launched i q l) (hi : t.work.i = 0) (hj : t.work.j = 0) :
    Stage i q l (buildStep t) := by
  unfold buildStep
  simp only [h.cmd, hl.command]
  exact dispatch_stage (t := buildTables t) (h.of_work (buildTables_advances t) rfl rfl rfl rfl) hl hi hj fun _ => rfl

/-! ### The block loop -/

/-- A multiple of the width below the full length has a whole block ahead (R14, R155). -/
theorem add_le_of_lt_fullTo {W x n : Nat} (hW : W = 4 ∨ W = 8) (hx : x % W = 0) (h : x < fullTo W n) : x + W ≤ n := by
  unfold fullTo at h
  rcases hW with rfl | rfl <;> omega

/-- A step of the loop of a kernel that keeps no blocks: an iteration, or the hand-over. -/
theorem guarded_stage {W : Nat} {body : Except Raised State} (hW : W = 4 ∨ W = 8) (hp : t.phase = .vec)
    (h : Progress l t) (hr : VecReady i q l t) (hcur : t.work.i % W = 0 ∧ t.work.j % W = 0)
    (ha : Applies t body) (hm : ∀ u, body = .ok u → BlockMove W t u)
    (hbody : t.work.i + W ≤ l.na → t.work.j + W ≤ l.nb →
      Yields (BusFault q l) (fun u => Progress l u ∧ ∀ co, i = .qfV2 co → BlocksLoaded l u) body) :
    Stage i q l (settle (if t.work.i < fullTo W t.na ∧ t.work.j < fullTo W t.nb then body else .ok (toTail t))) := by
  rw [h.na, h.nb]
  split
  · rename_i hguard
    refine settle_stage ((hbody (add_le_of_lt_fullTo hW hcur.1 hguard.1)
      (add_le_of_lt_fullTo hW hcur.2 hguard.2)).and_ok.mono fun u hu => ?_)
    obtain ⟨⟨hprog, hloaded⟩, hok⟩ := hu
    refine vec_stage ((hm u hok).phase.trans hp) hprog ⟨fun hn => ?_, hloaded⟩
    rw [(ha.1 u hok).regs]
    exact hr.tables hn
  · exact toTail_stage h

theorem gallop_stage {co : Bool} (hi : i = .gallop co) (hp : t.phase = .vec) (h : Progress l t) (hl : Launched i q l)
    (hr : VecReady i q l t) (hcur : t.work.j = 4 * t.work.k ∧ (t.work.k = 0 ∨ t.work.k < nblk t)) :
    Stage i q l (settle (vecGallop t)) := by
  unfold vecGallop
  obtain ⟨hj, hk⟩ := hcur
  split
  · rename_i hguard
    have hbody := gallopBody_yields h hl (h.na ▸ hguard.2) hj (by omega)
    refine settle_stage (hbody.and_ok.mono fun u hu => ?_)
    obtain ⟨hprog, hok⟩ := hu
    rcases gallopBody_ok hok with ⟨htail, -⟩ | ⟨hphase, -⟩
    · exact tail_stage htail hprog
    · refine vec_stage (hphase.trans hp) hprog ⟨fun hn => ?_, fun co' e => ?_⟩
      · rw [((gallopBody_applies t).1 u hok).regs]
        exact hr.tables hn
      · rw [hi] at e
        cases e
  · exact toTail_stage (t := t.setWork _) (h.of_work (.of_work rfl rfl rfl rfl rfl rfl) rfl rfl rfl hj.symm)

theorem vecStep_stage (hp : t.phase = .vec) (h : Progress l t) (hl : Launched i q l) (hr : VecReady i q l t)
    (hc : CursorsBounded t) : Stage i q l (vecStep t) := by
  have hcmd : decode t.regs.cmd = .ok i := by rw [h.cmd, hl.command]
  have hcur := hc.block hp
  have htab := hr.tables
  have hprofile := hl.profile
  unfold vecCursors at hcur
  unfold vecStep
  rw [hcmd] at hcur ⊢
  cases i with
  | tbld => exact toTail_stage h
  | merge => exact toTail_stage h
  | gallop co => exact gallop_stage rfl hp h hl hr hcur
  | qfB4 co =>
    cases hprofile
    exact guarded_stage (.inl rfl) hp h hr hcur (bodyQfB4_applies t) (fun u => bodyQfB4_ok) fun hi hj =>
      (bodyQfB4_yields h hl le_rfl (htab rfl) hi hj).mono fun u hu => ⟨hu, fun _ e => by cases e⟩
  | qfV2 co =>
    cases hprofile
    exact guarded_stage (.inl rfl) hp h hr hcur (bodyQfV2_applies t) (fun u => bodyQfV2_ok) fun hi hj =>
      (bodyQfV2_yields h hl rfl (htab rfl) hi hj hcur.1 hcur.2 (hr.loaded co rfl)).mono fun u hu =>
        ⟨hu.1, fun _ _ => hu.2⟩
  | shuf4 =>
    cases hprofile
    exact guarded_stage (.inl rfl) hp h hr hcur (bodyShuf4_applies t) (fun u => bodyShuf4_ok) fun hi hj =>
      (bodyShuf4_yields h hl le_rfl (htab rfl) hi hj).mono fun u hu => ⟨hu, fun _ e => by cases e⟩
  | shuf8 =>
    cases hprofile
    exact guarded_stage (.inr rfl) hp h hr hcur (bodyShuf8_applies t) (fun u => bodyShuf8_ok) fun hi hj =>
      (bodyShuf8_yields h hl rfl (htab rfl) hi hj).mono fun u hu => ⟨hu, fun _ e => by cases e⟩
  | shuf256 =>
    cases hprofile
    exact guarded_stage (.inr rfl) hp h hr hcur (bodyShuf256_applies t) (fun u => bodyShuf256_ok) fun hi hj =>
      (bodyShuf256_yields h hl rfl (htab rfl) hi hj).mono fun u hu => ⟨hu, fun _ e => by cases e⟩

/-! ### The tail and the run -/

theorem tailStep_stage (hp : t.phase = .tail) (h : Progress l t) (hl : Launched i q l) (hc : CursorsBounded t) :
    Stage i q l (settle (tailIter t)) := by
  obtain ⟨hi, hj, -⟩ := hc.bound (.inr hp)
  unfold tailIter
  rw [h.na, h.nb] at *
  split
  · rename_i hguard
    refine settle_stage ((mergeBody_yields h hl hguard.1 hguard.2).and_ok.mono fun u hu => ?_)
    exact tail_stage ((mergeBody_ok hu.2).1.trans hp) hu.1
  · exact .completed t (h.finished hl (by omega)) rfl

/-- One step of the engine on a launched command. -/
theorem engineStep_stage (hl : Launched i q l) (hc : CursorsBounded t) (hb : t.busy = true)
    (h : t = l ∨ Stage i q l t) : ∃ r, engineStep t = noteIrq r ∧ Stage i q l r := by
  rcases h with rfl | h
  · exact ⟨_, by unfold engineStep; rw [hl.phase], launchStep_stage hl⟩
  · cases h with
    | completed u _ e => subst e; cases hb
    | faulted r _ e => subst e; cases hb
    | running _ hpast hprog hready =>
      unfold engineStep
      cases hp : t.phase with
      | idle => exact absurd hp (busy_iff.1 hb)
      | launch => exact absurd hp hpast
      | tbuild =>
        obtain ⟨hi, hj, -⟩ := hc.start (.inr hp)
        exact ⟨_, rfl, buildStep_stage hprog hl hi hj⟩
      | vec => exact ⟨_, rfl, vecStep_stage hp hprog hl (hready hp) hc⟩
      | tail => exact ⟨_, rfl, tailStep_stage hp hprog hl hc⟩

theorem noteIrq_busy (s : State) : (noteIrq s).busy = s.busy := by
  unfold State.busy
  rw [noteIrq_phase]

theorem Launched.bounded (hl : Launched i q l) : CursorsBounded l :=
  ⟨fun _ => hl.start, fun h => (by rw [hl.phase] at h; rcases h with h | h <;> cases h),
    fun h => (by rw [hl.phase] at h; cases h)⟩

/-- A launched command runs to its end: completion with the result, or a bus fault. -/
theorem run_ends (hl : Launched i q l) : ∃ r, runToIdle (engineFuel l) l = noteIrq r ∧
    ((∃ u, Filled l u (result l) ∧ r = complete u) ∨
      ∃ e, BusFault q l e ∧ r = takeFault e.fault e.addr e.state) := by
  have hend := runToIdle_ends (budget_le_fuel l)
  have hbusy : l.busy = true := busy_iff.2 (by rw [hl.phase]; decide)
  have hrun : CursorsBounded (runToIdle (engineFuel l) l) ∧
      (runToIdle (engineFuel l) l = l ∨ ∃ r, runToIdle (engineFuel l) l = noteIrq r ∧ Stage i q l r) := by
    refine runToIdle_induct (P := fun t => CursorsBounded t ∧ (t = l ∨ ∃ r, t = noteIrq r ∧ Stage i q l r))
      ⟨hl.bounded, .inl rfl⟩ fun t hb ⟨hc, hstage⟩ => ⟨engineStep_bounded hc, .inr (engineStep_stage hl hc hb ?_)⟩
    rcases hstage with h | ⟨r, rfl, h⟩
    · exact .inl h
    · rw [noteIrq_busy] at hb
      rw [noteIrq_of_busy hb]
      exact .inr h
  rcases hrun.2 with h | ⟨r, h, hstage⟩
  · rw [h, hl.phase] at hend
    cases hend
  · refine ⟨r, h, ?_⟩
    cases hstage with
    | running hb _ _ _ => rw [h, noteIrq_phase] at hend; exact absurd hend (busy_iff.1 hb)
    | completed u hf e => exact .inl ⟨u, hf, e⟩
    | faulted e hbus he => exact .inr ⟨e, hbus, he⟩

/-- How a kernel command ends under the contract, run on an idle engine with its checks passing (R15, R276). -/
theorem exec_ends {s : State} (hs : s.phase = .idle) (hp : profileOf i = some q)
    (hc : launchChecks q (launch (encode i) s) = none) (h : Contract s) :
    ∃ r, exec i s = .next (r.setHost { r.host with unseen := [] }) ∧
      ((∃ u, Filled (launch (encode i) s) u (result s) ∧ r = complete u) ∨
        ∃ e, BusFault q (launch (encode i) s) e ∧ r = takeFault e.fault e.addr e.state) := by
  obtain ⟨r, hrun, hr⟩ := run_ends (launched_launch hp hc h)
  refine ⟨r, ?_, hr⟩
  rw [exec_eq, runWord]
  simp only [hostWrite_launch _ hs, hrun]
  rcases hr with ⟨u, -, hr⟩ | ⟨e, -, hr⟩
  · rw [observe_noteIrq_end (.inl hr)]
  · rw [observe_noteIrq_end (.inr ⟨_, _, hr⟩)]

end

end Sys2Proof.Machine
end

section
/-! The contract (spec/00_scope.md R15) for every kernel command: what a completed command leaves, that the platform answering
in every window shuts out the bus faults, and that any two kernels therefore agree. -/

-- Elaborated one at a time: the package as one text would otherwise hold a thread and its stack for many theorems at once.
set_option Elab.async false

namespace Sys2Proof.Machine

/-- A command that completes with the result stored has done what the contract asks. -/
theorem intersects_of_filled {i : Instr} {q : Profile} {s u : State} (v : HostSide)
    (hl : Launched i q (launch (encode i) s)) (hf : Filled (launch (encode i) s) u (result s)) :
    Intersects i s ((complete u).setHost v) := by
  have hlen : (result s).length < 2 ^ 32 :=
    (hl.length_result_le.trans (min_le_left _ _)).trans_lt s.regs.aLen.isLt
  have hcount : (complete u).regs.count.toNat = (result s).length := by
    show (BitVec.ofNat 64 u.work.c).toNat = _
    rw [hf.count, BitVec.toNat_ofNat]
    omega
  refine ⟨rfl, rfl, ?_, hcount, fun hco => hf.out (hl.latch.trans hco), fun p hp => ?_, fun hco => ?_⟩
  · show u.regs.fault = false
    rw [hf.adv.regs]
    exact hl.clear
  · simp only [Region.has, State.setHost_regs, hcount, decide_eq_false_iff_not, not_lt] at hp
    exact hf.adv.mem (by rw [hf.count]; omega) p (.inr (by rw [hf.count]; exact hp))
  · exact (hf.adv.countOnly (hl.latch.trans hco)).1

/-- Byte `k` of element `x` lies in a buffer of more than `4 * x + k` bytes. -/
theorem has_elt_byte (base : Addr) {x k n : Nat} (hk : 4 * x + k < n) (hn : n ≤ 2 ^ 64) :
    Region.has ⟨base, n⟩ (eltAddr base x + BitVec.ofNat 64 k) = true := by
  simp only [Region.has, decide_eq_true_iff]
  rw [elt_byte_offset base (by omega)]
  exact hk

/-- Where the platform answers in every window no bus fault can end the command (R66, R302). -/
theorem BusFault.window_refused {i : Instr} {q : Profile} {l : State} {e : Raised} (h : BusFault q l e)
    (hl : Launched i q l) : ¬ WindowsAnswer q l := by
  rintro ⟨hA, hB, hO⟩
  cases h with
  | read E base n x m _ hin _ hinside _ haddr hrefused =>
    obtain ⟨k, hk, hbyte⟩ := (allBytes_false _ _ _).1 hrefused
    rw [haddr] at hbyte
    have hwin := (hl.window hin).1
    have hhas := has_elt_byte base (show 4 * x + k < 4 * n by omega) (by omega)
    rcases hin with ⟨rfl, rfl⟩ | ⟨rfl, rfl⟩
    · rw [hA _ hhas] at hbyte
      cases hbyte
    · rw [hB _ hhas] at hbyte
      cases hbyte
  | write E Ms _ hnext _ hco _ haddr hrefused =>
    obtain ⟨k, hk, hbyte⟩ := (allBytes_false _ _ _).1 hrefused
    rw [haddr] at hbyte
    have hlen := hnext.length_le.trans hl.length_result_le
    rw [List.length_append] at hlen
    have hna : l.na < 2 ^ 32 := l.regs.aLen.isLt
    have hhas := has_elt_byte l.regs.outBase (show 4 * E.length + k < lenOut l by unfold lenOut; omega)
      (by unfold lenOut; omega)
    have hwin : windowOut l = ⟨l.regs.outBase, lenOut l⟩ := by rw [windowOut, hco]; rfl
    rw [hO _ (by rw [hwin]; exact hhas)] at hbyte
    cases hbyte

/-- Every kernel command computes the intersection (R15). -/
theorem computesIntersection (i : Instr) : ComputesIntersection i := by
  intro q s hlaunch hcontract
  have hl := launched_launch hlaunch.profile hlaunch.checks hcontract
  obtain ⟨r, hexec, hr⟩ := exec_ends hlaunch.idle hlaunch.profile hlaunch.checks hcontract
  rcases hr with ⟨u, hf, rfl⟩ | ⟨e, hbus, -⟩
  · exact ⟨_, hexec, intersects_of_filled _ hl hf⟩
  · exact absurd hlaunch.answers (hbus.window_refused hl)

/-- Settles O43: a command that does not complete with the result has taken a bus fault. -/
theorem everyKernelKeepsTheContract : Obligations.EveryKernelKeepsTheContract := by
  intro i q s hidle hprofile hchecks hcontract
  obtain ⟨r, hexec, hr⟩ := exec_ends hidle hprofile hchecks hcontract
  refine ⟨_, hexec, fun hfault => ?_⟩
  rcases hr with ⟨u, hf, rfl⟩ | ⟨e, -, rfl⟩
  · exact intersects_of_filled _ (launched_launch hprofile hchecks hcontract) hf
  · cases hfault

/-- Settles O44: the scalar merge alone. -/
theorem mergeComputesIntersection : Obligations.MergeComputesIntersection := computesIntersection .merge

/-- Settles O45: the leftmost block the search finds is the only one that can hold the element. -/
theorem gallopComputesIntersection : Obligations.GallopComputesIntersection := fun co => computesIntersection (.gallop co)

/-- Settles O46: the pre-filter finds the matches of the exhaustive comparison. -/
theorem qfB4ComputesIntersection : Obligations.QfB4ComputesIntersection := fun co => computesIntersection (.qfB4 co)

/-- Settles O47: the blocks kept in registers are the ones at the cursors. -/
theorem qfV2ComputesIntersection : Obligations.QfV2ComputesIntersection := fun co => computesIntersection (.qfV2 co)

/-- Settles O48: the rotations find every match of a pair of 4-blocks. -/
theorem shuf4ComputesIntersection : Obligations.Shuf4ComputesIntersection := computesIntersection .shuf4

/-- Settles O49: the four pairs of 4-blocks find every match of a pair of 8-blocks. -/
theorem shuf8ComputesIntersection : Obligations.Shuf8ComputesIntersection := computesIntersection .shuf8

/-- Settles O50: the eight alignments find every match of a pair of 8-blocks. -/
theorem shuf256ComputesIntersection : Obligations.Shuf256ComputesIntersection := computesIntersection .shuf256

/-! ### Agreement of the kernels -/

/-- The byte at an offset of a buffer is a byte of one of its elements (R61). -/
theorem byteOf_elem (M : Memory) (p : Addr) (k : Nat) (hk : k < 4) :
    byteOf (Memory.elem M p) k = Memory.read M (p + BitVec.ofNat 64 k).toNat := by
  rw [elem_eq]
  exact byteOf_elemOfBytes (fun t => Memory.read M (p + BitVec.ofNat 64 t).toNat) k hk

/-- Memories that hold the same elements in a buffer hold the same bytes there. -/
theorem read_eq_of_setOf_eq {M M' : Memory} {base p : Addr} {n : Nat} (h : setOf M base n = setOf M' base n)
    (hp : (p - base).toNat < 4 * n) : Memory.read M p.toNat = Memory.read M' p.toNat := by
  have hx : (p - base).toNat / 4 < n := by omega
  have helem : ∀ x, x < n → Memory.elem M (eltAddr base x) = Memory.elem M' (eltAddr base x) := fun x hx =>
    List.map_inj_left.1 h x (List.mem_range.2 hx)
  have haddr : eltAddr base ((p - base).toNat / 4) + BitVec.ofNat 64 ((p - base).toNat % 4) = p := by
    rw [eltAddr, add_assoc, ← BitVec.ofNat_add, Nat.div_add_mod, BitVec.ofNat_toNat, BitVec.setWidth_eq]
    ring
  have hbyte := congrArg (fun e => byteOf e ((p - base).toNat % 4)) (helem _ hx)
  simp only [byteOf_elem _ _ _ (Nat.mod_lt _ (show 0 < 4 by omega)), haddr] at hbyte
  exact hbyte

/-- Two states that both hold the intersection of the inputs of `s` agree in COUNT and in memory. -/
theorem Intersects.agree {i i' : Instr} {s t t' : State} (h : Intersects i s t) (h' : Intersects i' s t') :
    t.regs.count = t'.regs.count ∧ (i.countOnly = false → i'.countOnly = false →
      ∀ p : Addr, Memory.read t.mem p.toNat = Memory.read t'.mem p.toNat) := by
  have hcount : t.regs.count = t'.regs.count := BitVec.eq_of_toNat_eq (h.count.trans h'.count.symm)
  refine ⟨hcount, fun hco hco' p => ?_⟩
  cases hp : Region.has ⟨s.regs.outBase, 4 * t.regs.count.toNat⟩ p with
  | false => rw [h.only p hp, h'.only p (by rw [← hcount]; exact hp)]
  | true =>
    refine read_eq_of_setOf_eq ((h.output hco).trans (h'.output hco').symm) ?_
    rw [Region.has, decide_eq_true_iff, h.count] at hp
    exact hp

/-- Settles O51: both commands leave the intersection. -/
theorem kernelsAgree : Obligations.KernelsAgree := by
  intro i i' q q' s t t' hlaunch hlaunch' hcontract hexec hexec'
  obtain ⟨u, hu, h⟩ := computesIntersection i q s hlaunch hcontract
  obtain ⟨u', hu', h'⟩ := computesIntersection i' q' s hlaunch' hcontract
  rw [hexec] at hu
  rw [hexec'] at hu'
  cases hu
  cases hu'
  exact h.agree h'

end Sys2Proof.Machine
end

section
/-! The host's register accesses (spec/10_state.md R20 to R31, R34): what each write does, case by case, and what every
register reads after it. -/

-- Elaborated one at a time: the package as one text would otherwise hold a thread and its stack for many theorems at once.
set_option Elab.async false

namespace Sys2Proof.Machine

/-! ### Writes -/

/-- What a host write can do (R21 to R31, R110): launch, acknowledge or change descriptors on an idle engine, and change
CTRL on any; a dropped write leaves CTRL as it is. -/
inductive HostWrites (s t : State) : Prop where
  | launched (v : Reg64) (idle : s.phase = .idle) (e : t = launch v s)
  | acknowledged (v : Reg64) (idle : s.phase = .idle) (e : t = acknowledge v s)
  | control (b : Bool) (e : t = s.setRegs { s.regs with ie := b })
  | descriptors (idle : s.phase = .idle) (a : Addr) (na : BitVec 32) (b : Addr) (nb : BitVec 32) (out : Addr)
      (e : t = s.setRegs { s.regs with aBase := a, aLen := na, bBase := b, bLen := nb, outBase := out })

theorem hostWrite_cases (n : Nat) (v : Reg64) (s : State) : HostWrites s (hostWrite n v s) := by
  by_cases h : s.phase = .idle
  · rw [hostWrite_idle n v (busy_false h)]
    match n with
    | 1 => exact .launched v h rfl
    | 2 => exact .acknowledged v h rfl
    | 3 => exact .control _ rfl
    | 4 | 5 | 6 | 7 | 8 => exact .descriptors h _ _ _ _ _ rfl
    | 0 | n + 9 => exact .control s.regs.ie rfl
  · rw [hostWrite_busy n v (busy_iff.2 h)]
    split
    · exact .control _ rfl
    · exact .control s.regs.ie rfl

/-- The acknowledge write field by field (R28, R277). -/
theorem acknowledge_eq (v : Reg64) (s : State) : acknowledge v s = s.setRegs { s.regs with
    done := s.regs.done && !v.getLsbD 1
    fault := s.regs.fault && !v.getLsbD 2
    faultCode := if v.getLsbD 2 then 0 else s.regs.faultCode
    faultAddr := if v.getLsbD 2 then 0 else s.regs.faultAddr } := by
  unfold acknowledge
  cases v.getLsbD 1 <;> cases v.getLsbD 2 <;> simp

/-- Settles O10: while busy a write is dropped unless it is that of CTRL. -/
theorem busyEngineDropsHostWrites : Obligations.BusyEngineDropsHostWrites :=
  fun _ n v h => hostWrite_busy n v (busy_iff.2 h)

/-- Settles O13: the write of STATUS is the acknowledge. -/
theorem acknowledgeClearsWhatItNames : Obligations.AcknowledgeClearsWhatItNames := by
  intro s v h
  rw [hostWrite_idle 2 v (busy_false h)]
  exact acknowledge_eq v s

/-! ### Reads -/

theorem statusWord_idle {s : State} (h : s.phase = .idle) :
    s.statusWord = statusOf false s.regs.done s.regs.fault s.regs.tblValid s.regs.faultCode := by
  rw [State.statusWord, busy_false h]
  rfl

theorem statusWord_busy {s : State} (h : s.busy = true) : s.statusWord = statusOf true false false s.regs.tblValid 0 := by
  rw [State.statusWord, if_pos h]

/-- A write of a register other than CMD and STATUS shows in that register alone. -/
theorem hostRead_hostWriteIdle_other {n k : Nat} (v : Reg64) (s : State) (h1 : n ≠ 1) (h2 : n ≠ 2) (hk : k ≠ n) :
    hostRead k (hostWriteIdle n v s) = hostRead k s := by
  suffices h : hostRead k (hostWriteIdle n v s) = if k = n then hostRead n (hostWriteIdle n v s) else hostRead k s by
    rw [h, if_neg hk]
  match n with
  | 1 => exact absurd rfl h1
  | 2 => exact absurd rfl h2
  | 3 | 4 | 5 | 6 | 7 | 8 =>
    match k with
    | 0 | 1 | 2 | 3 | 4 | 5 | 6 | 7 | 8 | 9 | 10 | k + 11 => rfl
  | 0 | n + 9 => exact (if_neg hk).symm

theorem bit0_word (v : Reg64) : (BitVec.ofBool (v.getLsbD 0)).setWidth 64 = v &&& 1 := by
  apply BitVec.eq_of_getLsbD_eq
  intro n hn
  cases n <;> simp

theorem low32_word (v : Reg64) : (v.setWidth 32).setWidth 64 = v &&& 0xFFFFFFFF := by
  apply BitVec.eq_of_toNat_eq
  have h : v.toNat &&& 4294967295 = v.toNat % 2 ^ 32 := Nat.and_two_pow_sub_one_eq_mod _ 32
  simp only [BitVec.toNat_and, BitVec.toNat_setWidth]
  show _ = v.toNat &&& 4294967295
  omega

/-- What a register reads after a write of it on an idle engine: the written value, the hardwired bits 0 (R22 to R25, R29);
ID, COUNT, FAULT_ADDR and the numbers above 10 take no value (R26, R30, R31). -/
theorem hostRead_hostWriteIdle_same {n : Nat} (v : Reg64) (s : State) (h1 : n ≠ 1) (h2 : n ≠ 2) :
    hostRead n (hostWriteIdle n v s) =
      if n = 3 then v &&& 1
      else if n = 4 ∨ n = 6 ∨ n = 8 then v
      else if n = 5 ∨ n = 7 then v &&& 0xFFFFFFFF
      else hostRead n s := by
  match n with
  | 1 => exact absurd rfl h1
  | 2 => exact absurd rfl h2
  | 3 => exact bit0_word v
  | 4 | 6 | 8 => rfl
  | 5 | 7 => exact low32_word v
  | 0 | n + 9 => simp [hostWriteIdle]

/-- Settles O9: a register written reads the value its hardwired bits leave of it, every other one reads as before. -/
theorem hostWriteChangesOneRegister : Obligations.HostWriteChangesOneRegister := by
  intro s n v h h1 h2
  have hframe : (hostWrite n v s).phase = s.phase ∧ (hostWrite n v s).work = s.work ∧ (hostWrite n v s).mem = s.mem ∧
      (hostWrite n v s).port = s.port ∧ (hostWrite n v s).host = s.host := by
    rw [hostWrite_idle n v (busy_false h)]
    match n with
    | 1 => exact absurd rfl h1
    | 2 => exact absurd rfl h2
    | 0 | 3 | 4 | 5 | 6 | 7 | 8 | n + 9 => exact ⟨rfl, rfl, rfl, rfl, rfl⟩
  refine ⟨fun k => ?_, hframe⟩
  rw [hostWrite_idle n v (busy_false h)]
  by_cases hk : k = n
  · subst hk
    simpa using hostRead_hostWriteIdle_same v s h1 h2
  · rw [hostRead_hostWriteIdle_other v s h1 h2 hk]
    simp [hk]

/-- The one-bit fields of STATUS (R28). -/
theorem statusOf_bits (busy done fault tblValid : Bool) (code : BitVec 8) :
    (statusOf busy done fault tblValid code).getLsbD 0 = busy ∧
      (statusOf busy done fault tblValid code).getLsbD 1 = done ∧
      (statusOf busy done fault tblValid code).getLsbD 2 = fault ∧
      (statusOf busy done fault tblValid code).getLsbD 3 = tblValid := by
  simp only [statusOf, BitVec.getLsbD_append]
  simp

/-- The wider fields of STATUS, FAULT_CODE between bits that read 0 (R28). -/
theorem statusOf_fields (busy done fault tblValid : Bool) (code : BitVec 8) :
    (statusOf busy done fault tblValid code).extractLsb' 4 4 = 0 ∧
      (statusOf busy done fault tblValid code).extractLsb' 8 8 = code ∧
      (statusOf busy done fault tblValid code).extractLsb' 16 48 = 0 := by
  refine ⟨?_, ?_, ?_⟩
  all_goals
    apply BitVec.eq_of_getLsbD_eq
    intro n hn
    simp only [statusOf, BitVec.getLsbD_extractLsb', BitVec.getLsbD_append, hn]
    grind

/-- Settles O12: the word is the concatenation of its fields. -/
theorem statusWordHoldsItsFields : Obligations.StatusWordHoldsItsFields := by
  intro s h
  rw [show hostRead 2 s = _ from statusWord_idle h]
  obtain ⟨h0, h1, h2, h3⟩ := statusOf_bits false s.regs.done s.regs.fault s.regs.tblValid s.regs.faultCode
  exact ⟨h0, h1, h2, h3, statusOf_fields _ _ _ _ _⟩

/-- Settles O16: the reset registers are 0. -/
theorem resetReadsZero : Obligations.ResetReadsZero := by
  refine ⟨rfl, fun n hn => ?_, rfl, rfl⟩
  match n with
  | 0 => exact absurd rfl hn
  | 1 | 2 | 3 | 4 | 5 | 6 | 7 | 8 | 9 | 10 | n + 11 => rfl

end Sys2Proof.Machine
end

section
/-! What a command leaves, whatever its outcome (spec/10_state.md R22 to R31, R40, R41): CMD, the descriptors and CTRL stay
from the launch on, the end is exactly one of DONE and FAULT, and the table gate opens exactly when the tables are built. -/

-- Elaborated one at a time: the package as one text would otherwise hold a thread and its stack for many theorems at once.
set_option Elab.async false

namespace Sys2Proof.Machine

/-! ### The frame -/

theorem KeepsHostSide.refl (s : State) : KeepsHostSide s s := ⟨rfl, rfl, rfl, rfl, rfl, rfl, rfl, rfl, rfl, rfl⟩

theorem KeepsHostSide.trans {s t u : State} (h : KeepsHostSide s t) (g : KeepsHostSide t u) : KeepsHostSide s u where
  aBase := g.aBase.trans h.aBase
  aLen := g.aLen.trans h.aLen
  bBase := g.bBase.trans h.bBase
  bLen := g.bLen.trans h.bLen
  outBase := g.outBase.trans h.outBase
  ie := g.ie.trans h.ie
  port := g.port.trans h.port
  script := g.script.trans h.script
  got := g.got.trans h.got
  draws := g.draws.trans h.draws

/-- Forgetting which stores are left to observe touches nothing of it. -/
theorem keepsHostSide_unseen (s : State) (u : List Region) : KeepsHostSide s (s.setHost { s.host with unseen := u }) :=
  ⟨rfl, rfl, rfl, rfl, rfl, rfl, rfl, rfl, rfl, rfl⟩

theorem launch_keepsHostSide (v : Reg64) (s : State) : KeepsHostSide s (launch v s) :=
  ⟨rfl, rfl, rfl, rfl, rfl, rfl, rfl, rfl, rfl, rfl⟩

theorem complete_keepsHostSide (s : State) : KeepsHostSide s (complete s) :=
  ⟨rfl, rfl, rfl, rfl, rfl, rfl, rfl, rfl, rfl, rfl⟩

theorem takeFault_keepsHostSide (f : EngineFault) (p : Addr) (s : State) : KeepsHostSide s (takeFault f p s) :=
  ⟨rfl, rfl, rfl, rfl, rfl, rfl, rfl, rfl, rfl, rfl⟩

theorem Advances.keepsHostSide {s t : State} (h : Advances s t) : KeepsHostSide s t where
  aBase := by rw [h.regs]
  aLen := by rw [h.regs]
  bBase := by rw [h.regs]
  bLen := by rw [h.regs]
  outBase := by rw [h.regs]
  ie := by rw [h.regs]
  port := h.port
  script := h.script
  got := h.got
  draws := h.draws

theorem Advances.cmd {s t : State} (h : Advances s t) : t.regs.cmd = s.regs.cmd := by rw [h.regs]

/-- How a step of the engine ends, it leaves CMD, the descriptors and CTRL (R34). -/
theorem Ends.keeps {s t : State} (h : Ends s t) : KeepsHostSide s t ∧ t.regs.cmd = s.regs.cmd := by
  cases h with
  | running h _ => exact ⟨h.keepsHostSide, h.cmd⟩
  | completed u h e => subst e; exact ⟨h.keepsHostSide.trans (complete_keepsHostSide u), h.cmd⟩
  | faulted u f p h e => subst e; exact ⟨h.keepsHostSide.trans (takeFault_keepsHostSide f p u), h.cmd⟩

theorem engineStep_keeps (s : State) : KeepsHostSide s (engineStep s) ∧ (engineStep s).regs.cmd = s.regs.cmd := by
  rcases engineStep_cases s with ⟨_, e⟩ | ⟨_, t, e, hends⟩
  · rw [e]; exact ⟨.refl s, rfl⟩
  · rw [e]
    exact noteIrq_lift (P := fun t => KeepsHostSide s t ∧ t.regs.cmd = s.regs.cmd)
      (fun t u h => ⟨h.1.trans (keepsHostSide_unseen t u), h.2⟩) hends.keeps

theorem runToIdle_keeps (n : Nat) (s : State) : KeepsHostSide s (runToIdle n s) :=
  runToIdle_induct (.refl s) fun t _ h => h.trans (engineStep_keeps t).1

theorem hostWrite_launch_keeps (v : Reg64) (s : State) : KeepsHostSide s (hostWrite 1 v s) := by
  by_cases h : s.phase = .idle
  · rw [hostWrite_launch v h]; exact launch_keepsHostSide v s
  · rw [hostWrite_busy 1 v (busy_iff.2 h)]; exact .refl s

theorem runWord_keepsHostSide (v : Reg64) (s : State) : KeepsHostSide s (runWord v s) := by
  have hrun := (hostWrite_launch_keeps v s).trans (runToIdle_keeps (engineFuel (hostWrite 1 v s)) _)
  rw [runWord]
  rcases observe_cases (runToIdle (engineFuel (hostWrite 1 v s)) (hostWrite 1 v s)) with e | e <;> rw [e]
  · exact hrun
  · exact hrun.trans (keepsHostSide_unseen _ _)

/-- Settles O38: the launch and every step of the engine keep it. -/
theorem commandKeepsDescriptors : Obligations.CommandKeepsDescriptors := by
  intro i s t h
  rw [exec_next h]
  exact runWord_keepsHostSide _ s

/-- Settles O11: STATUS shows BUSY and the gate, the launched registers are those the engine's steps keep. -/
theorem busyReadsShowNoResult : Obligations.BusyReadsShowNoResult := by
  intro s hs
  have hb := busy_iff.2 hs
  refine ⟨?_, if_pos hb, if_pos hb, rfl, ?_, fun n hn => ?_, fun n k v hk => ?_, fun _ _ => rfl⟩
  · rw [show hostRead 2 s = _ from statusWord_busy hb]
    cases s.regs.tblValid <;> rfl
  · rw [show hostRead 3 s = (BitVec.ofBool s.regs.ie).setWidth 64 from rfl]
    cases s.regs.ie <;> rfl
  · obtain ⟨⟨ha, hna, hbb, hnb, hout, hie, -⟩, hcmd⟩ := engineStep_keeps s
    rcases hn with rfl | rfl | rfl | rfl | rfl | rfl | rfl <;>
      simp only [hostRead, State.ctrlWord, ha, hna, hbb, hnb, hout, hie, hcmd]
  · rw [hostWrite_busy n v hb]
    split
    · exact hostRead_hostWriteIdle_other (n := 3) v s (by decide) (by decide) hk
    · rfl

/-! ### The outcome -/

/-- Settles O37: the launch has cleared the status, so the end alone sets it. -/
theorem commandEndsInDoneOrFault : Obligations.CommandEndsInDoneOrFault := by
  intro i s t hidle h
  obtain ⟨u, r, hadv, hrun, hr, -⟩ := runWord_outcome (encode i) hidle
  obtain rfl := (exec_next h).trans hrun
  have hclear : u.regs.fault = false ∧ u.regs.faultCode = 0 ∧ u.regs.faultAddr = 0 := by
    rw [hadv.regs]
    exact ⟨rfl, rfl, rfl⟩
  obtain ⟨hfault, hcode, haddr⟩ := hclear
  rcases hr with rfl | ⟨f, p, rfl⟩
  · exact ⟨hadv.cmd, (congrArg (!·) hfault).symm, fun _ => ⟨hcode, haddr⟩,
      fun h => absurd (hfault.symm.trans h) (by decide)⟩
  · exact ⟨hadv.cmd, rfl, fun h => (by cases h), fun _ => ⟨f, rfl⟩⟩

/-! ### The table gate -/

/-- The gate once the command `i` has run to its end (R118, R173): before the checks it depends on them, during the build it
is as good as set, and later it is what it is. -/
def finalGate (i : Instr) (s : State) : Bool :=
  match s.phase with
  | .idle => s.regs.tblValid
  | .launch => s.regs.tblValid ||
      match profileOf i with
      | none => true
      | some q => q.needsTables && (launchChecks q s).isNone
  | .tbuild => true
  | .vec => s.regs.tblValid
  | .tail => s.regs.tblValid

section

variable {i : Instr} {s : State}

theorem finalGate_takeFault (f : EngineFault) (p : Addr) : finalGate i (takeFault f p s) = s.regs.tblValid := rfl

theorem finalGate_looping (h : s.phase = .vec ∨ s.phase = .tail) : finalGate i s = s.regs.tblValid := by
  unfold finalGate
  rcases h with h | h <;> rw [h]

theorem finalGate_noteIrq : finalGate i (noteIrq s) = finalGate i s := by
  rcases noteIrq_cases s with e | e <;> rw [e]; rfl

/-- A rule application that goes on in a loop, or raises, leaves the gate. -/
theorem finalGate_settle {x : Except Raised State} (hx : Applies s x)
    (hp : ∀ t, x = .ok t → t.phase = .vec ∨ t.phase = .tail) : finalGate i (settle x) = s.regs.tblValid := by
  cases x with
  | ok t =>
    show finalGate i t = _
    rw [finalGate_looping (hp t rfl), (hx.1 t rfl).regs]
  | error e =>
    show e.state.regs.tblValid = _
    rw [(hx.2 e rfl).1.regs]

theorem finalGate_dispatch (j : Instr) : finalGate i (dispatch j s) = s.regs.tblValid := by
  cases j with
  | qfV2 co => exact finalGate_settle (enterQfV2_applies s) fun t h => .inl (enterQfV2_phase h)
  | _ => rfl

/-- Past the gate the tables are valid where they were or where the command needs them. -/
theorem finalGate_gate (needs : Bool) (j : Instr) : finalGate i (gate needs j s) = (s.regs.tblValid || needs) := by
  unfold gate
  split
  · rename_i h
    obtain ⟨hneeds, -⟩ := Bool.and_eq_true_iff.1 h
    rw [hneeds, Bool.or_true]
    rfl
  · rename_i h
    rw [finalGate_dispatch]
    cases needs <;> simp_all

theorem finalGate_launchStep (hp : s.phase = .launch) (hd : decode s.regs.cmd = .ok i) :
    finalGate i (launchStep s) = finalGate i s := by
  simp only [launchStep, hd, finalGate.eq_def i s, hp]
  cases hprofile : profileOf i with
  | none => exact finalGate_gate true i
  | some q =>
    cases hchecks : launchChecks q s with
    | none => simp [finalGate_gate, hchecks]
    | some r => simp [finalGate_takeFault, hchecks]

theorem finalGate_guarded {P : Prop} [Decidable P] {body : Except Raised State} (hp : s.phase = .vec)
    (hx : Applies s body) (hm : ∀ t, body = .ok t → t.phase = s.phase) :
    finalGate i (settle (if P then body else .ok (toTail s))) = s.regs.tblValid := by
  split
  · exact finalGate_settle hx fun t h => .inl ((hm t h).trans hp)
  · rfl

theorem finalGate_vecStep (hp : s.phase = .vec) : finalGate i (vecStep s) = s.regs.tblValid := by
  unfold vecStep
  split
  · rfl
  · rfl
  · rfl
  · unfold vecGallop
    split
    · refine finalGate_settle (gallopBody_applies s) fun t h => ?_
      rcases gallopBody_ok h with ⟨htail, -⟩ | ⟨hphase, -⟩
      · exact .inr htail
      · exact .inl (hphase.trans hp)
    · rfl
  · exact finalGate_guarded hp (bodyQfB4_applies s) fun t h => (bodyQfB4_ok h).phase
  · exact finalGate_guarded hp (bodyQfV2_applies s) fun t h => (bodyQfV2_ok h).phase
  · exact finalGate_guarded hp (bodyShuf4_applies s) fun t h => (bodyShuf4_ok h).phase
  · exact finalGate_guarded hp (bodyShuf8_applies s) fun t h => (bodyShuf8_ok h).phase
  · exact finalGate_guarded hp (bodyShuf256_applies s) fun t h => (bodyShuf256_ok h).phase

theorem finalGate_tailStep (hp : s.phase = .tail) : finalGate i (settle (tailIter s)) = s.regs.tblValid := by
  unfold tailIter
  split
  · exact finalGate_settle (mergeBody_applies s) fun t h => .inr ((mergeBody_ok h).1.trans hp)
  · rfl

/-- Every step of the engine keeps what the gate will be at the end. -/
theorem finalGate_engineStep (hd : decode s.regs.cmd = .ok i) : finalGate i (engineStep s) = finalGate i s := by
  unfold engineStep
  cases hp : s.phase with
  | idle => rfl
  | launch => rw [finalGate_noteIrq, finalGate_launchStep hp hd]
  | tbuild =>
    rw [finalGate_noteIrq, buildStep, hd, finalGate.eq_def i s, hp]
    exact finalGate_dispatch i
  | vec => rw [finalGate_noteIrq, finalGate_vecStep hp, finalGate_looping (.inl hp)]
  | tail => rw [finalGate_noteIrq, finalGate_tailStep hp, finalGate_looping (.inr hp)]

/-- The gate a run of the engine ends with. -/
theorem finalGate_runToIdle (n : Nat) (hd : decode s.regs.cmd = .ok i) :
    finalGate i (runToIdle n s) = finalGate i s := by
  have hrun : (runToIdle n s).regs.cmd = s.regs.cmd ∧ finalGate i (runToIdle n s) = finalGate i s :=
    runToIdle_induct (P := fun t => t.regs.cmd = s.regs.cmd ∧ finalGate i t = finalGate i s) ⟨rfl, rfl⟩
      fun t _ ⟨hcmd, hgate⟩ => ⟨(engineStep_keeps t).2.trans hcmd, (finalGate_engineStep (hcmd ▸ hd)).trans hgate⟩
  exact hrun.2

end

/-- Settles O40: what the gate is to be at the end is fixed at the launch. -/
theorem tableGateOpensOnce : Obligations.TableGateOpensOnce := by
  intro i s t hidle h
  have hend := runToIdle_ends (budget_le_fuel (launch (encode i) s))
  have hgate := finalGate_runToIdle (i := i) (s := launch (encode i) s) (engineFuel (launch (encode i) s)) (decode_encode i)
  have hobserve : ∀ u : State, (observe u).regs = u.regs := fun u => by
    rcases observe_cases u with e | e <;> rw [e]; rfl
  rw [exec_next h, runWord, hostWrite_launch _ hidle, hobserve]
  rw [finalGate.eq_def, hend] at hgate
  exact hgate

end Sys2Proof.Machine
end

section
/-! The invariants of every step (spec/10_state.md R28, R34, R36, R41; spec/41_vector_primitives.md R157): the engine's step
keeps each by what `Ends` says of it, a host write by the cases of `HostWrites`, and every reset state meets it. -/

-- Elaborated one at a time: the package as one text would otherwise hold a thread and its stack for many theorems at once.
set_option Elab.async false

namespace Sys2Proof.Machine

/-! ### The status registers -/

/-- Coherence speaks of the status registers alone, and of COUNT while busy. -/
theorem StatusCoherent.congr {s t : State} (h : StatusCoherent s) (hdone : t.regs.done = s.regs.done)
    (hfault : t.regs.fault = s.regs.fault) (hcode : t.regs.faultCode = s.regs.faultCode)
    (haddr : t.regs.faultAddr = s.regs.faultAddr) (hcount : t.regs.count = s.regs.count)
    (hbusy : t.busy = true → s.busy = true) : StatusCoherent t where
  notBoth := by rw [hdone, hfault]; exact h.notBoth
  codeZero := by rw [hfault, hcode, haddr]; exact h.codeZero
  codeLegal := by rw [hfault, hcode]; exact h.codeLegal
  busyClear hb := by rw [hdone, hfault, hcount]; exact h.busyClear (hbusy hb)

/-- Registers with no status shown are coherent in any phase. -/
theorem StatusCoherent.of_clear {s : State} (hdone : s.regs.done = false) (hfault : s.regs.fault = false)
    (hcode : s.regs.faultCode = 0) (haddr : s.regs.faultAddr = 0) (hcount : s.regs.count = 0) : StatusCoherent s where
  notBoth _ := hfault
  codeZero _ := ⟨hcode, haddr⟩
  codeLegal h := by rw [hfault] at h; cases h
  busyClear _ := ⟨hdone, hfault, hcount⟩

theorem Advances.statusCoherent {s t : State} (h : Advances s t) (hb : s.busy = true) (hs : StatusCoherent s) :
    StatusCoherent t :=
  hs.congr (by rw [h.regs]) (by rw [h.regs]) (by rw [h.regs]) (by rw [h.regs]) (by rw [h.regs]) fun _ => hb

theorem faultCodeOf_legal (f : EngineFault) : 1 ≤ (faultCodeOf f).toNat ∧ (faultCodeOf f).toNat ≤ 6 := by
  cases f <;> decide

theorem takeFault_statusCoherent (f : EngineFault) (p : Addr) (s : State) : StatusCoherent (takeFault f p s) where
  notBoth h := by cases h
  codeZero h := by cases h
  codeLegal _ := faultCodeOf_legal f
  busyClear h := by cases h

/-- Completion where no fault is shown (R121). -/
theorem complete_statusCoherent {s : State} (hs : StatusCoherent s) (hfault : s.regs.fault = false) :
    StatusCoherent (complete s) where
  notBoth _ := hfault
  codeZero _ := hs.codeZero hfault
  codeLegal h := hs.codeLegal h
  busyClear h := by cases h

theorem Ends.statusCoherent {s t : State} (h : Ends s t) (hb : s.busy = true) (hs : StatusCoherent s) :
    StatusCoherent t := by
  cases h with
  | running h _ => exact h.statusCoherent hb hs
  | completed u h e =>
    subst e
    obtain ⟨-, hfault, -⟩ := hs.busyClear hb
    exact complete_statusCoherent (h.statusCoherent hb hs) (by rw [h.regs]; exact hfault)
  | faulted u f p h e => subst e; exact takeFault_statusCoherent f p u

theorem StatusCoherent.setHost {s : State} (v : HostSide) (h : StatusCoherent s) : StatusCoherent (s.setHost v) :=
  h.congr rfl rfl rfl rfl rfl id

theorem engineStep_statusCoherent {s : State} (hb : s.busy = true) (hs : StatusCoherent s) :
    StatusCoherent (engineStep s) := by
  obtain ⟨t, e, hends⟩ := engineStep_ends hb
  rw [e]
  exact noteIrq_lift (fun _ _ h => h.setHost _) (hends.statusCoherent hb hs)

/-- The acknowledge clears FAULT, its code and its address together (R277). -/
theorem acknowledge_statusCoherent {s : State} (v : Reg64) (hidle : s.phase = .idle) (hs : StatusCoherent s) :
    StatusCoherent (acknowledge v s) := by
  have hfree : (acknowledge v s).busy = false := busy_false (by rw [acknowledge_eq]; exact hidle)
  refine ⟨?_, ?_, ?_, fun h => by rw [hfree] at h; cases h⟩
  all_goals
    rw [acknowledge_eq]
    cases v.getLsbD 2
  · intro h; simpa using hs.notBoth (by simp_all)
  · simp
  · simpa using hs.codeZero
  · simp
  · simpa using hs.codeLegal
  · simp

theorem hostWrite_statusCoherent (n : Nat) (v : Reg64) (s : State) (hs : StatusCoherent s) :
    StatusCoherent (hostWrite n v s) := by
  cases hostWrite_cases n v s with
  | launched w _ e => rw [e]; exact .of_clear rfl rfl rfl rfl rfl
  | acknowledged w hidle e => rw [e]; exact acknowledge_statusCoherent w hidle hs
  | control b e => rw [e]; exact hs.congr rfl rfl rfl rfl rfl id
  | descriptors _ a na b nb out e => rw [e]; exact hs.congr rfl rfl rfl rfl rfl id

/-- Settles O55: status is clear while busy, and each way a step ends the command records it as a whole. -/
theorem statusStaysCoherent : Obligations.StatusStaysCoherent := fun _ _ hs h =>
  step_keeps (P := StatusCoherent) (fun _ v h => h.setHost v) (fun _ hb h => engineStep_statusCoherent hb h)
    hostWrite_statusCoherent (fun _ _ _ h => h.congr rfl rfl rfl rfl rfl id)
    (fun _ _ => .of_clear rfl rfl rfl rfl rfl) hs h

/-! ### The cursors -/

theorem hostWrite_cursorsBounded (n : Nat) (v : Reg64) (s : State) (hs : CursorsBounded s) :
    CursorsBounded (hostWrite n v s) := by
  cases hostWrite_cases n v s with
  | launched w _ e =>
    rw [e]
    exact ⟨fun _ => ⟨rfl, rfl, rfl⟩, fun h => (by rcases h with h | h <;> cases h), fun h => (by cases h)⟩
  | acknowledged w hidle e => rw [e, acknowledge_eq]; exact .of_idle hidle
  | control b e => rw [e]; exact ⟨hs.start, hs.bound, hs.block⟩
  | descriptors hidle a na b nb out e => rw [e]; exact .of_idle hidle

/-- Settles O57: an iteration moves a cursor by a whole block where a whole block is left, and the lengths cannot change while
the engine is busy. -/
theorem cursorsStayBounded : Obligations.CursorsStayBounded := fun _ _ hs h =>
  step_keeps (P := CursorsBounded) (fun _ v h => h.setHost v) (fun _ _ h => engineStep_bounded h)
    hostWrite_cursorsBounded (fun _ _ _ h => ⟨h.start, h.bound, h.block⟩) (fun _ _ => .of_idle rfl) hs h

/-! ### The latched flag -/

theorem LatchCoherent.of_idle {s : State} (h : s.phase = .idle) : LatchCoherent s :=
  ⟨fun hb => absurd h (busy_iff.1 hb), fun hb => absurd h (busy_iff.1 hb)⟩

theorem LatchCoherent.setHost {s : State} (v : HostSide) (h : LatchCoherent s) : LatchCoherent (s.setHost v) :=
  ⟨h.latched, h.decoded⟩

/-- A word that is illegal ends at the launch (R111). -/
theorem decoded_of_launchStep_busy {s : State} (h : (launchStep s).busy = true) : ∃ i, decode s.regs.cmd = .ok i := by
  unfold launchStep at h
  split at h
  · cases h
  · rename_i i hd
    exact ⟨i, hd⟩

theorem engineStep_latchCoherent {s : State} (hb : s.busy = true) (hs : LatchCoherent s) :
    LatchCoherent (engineStep s) := by
  obtain ⟨t, e, hends⟩ := engineStep_ends hb
  have hdecoded : t.busy = true → ∃ i, decode s.regs.cmd = .ok i := fun ht => by
    by_cases hp : s.phase = .launch
    · refine decoded_of_launchStep_busy ?_
      have hlaunch : engineStep s = noteIrq (launchStep s) := by unfold engineStep; rw [hp]
      rw [← noteIrq_busy, ← hlaunch, e, noteIrq_busy]
      exact ht
    · exact hs.decoded hb hp
  rw [e]
  refine noteIrq_lift (fun _ _ h => h.setHost _) ?_
  cases hends with
  | running h ht =>
    exact ⟨fun _ => by rw [h.co, h.cmd]; exact hs.latched hb, fun _ _ => by rw [h.cmd]; exact hdecoded ht⟩
  | completed u _ e => subst e; exact .of_idle rfl
  | faulted u f p _ e => subst e; exact .of_idle rfl

theorem hostWrite_latchCoherent (n : Nat) (v : Reg64) (s : State) (hs : LatchCoherent s) :
    LatchCoherent (hostWrite n v s) := by
  cases hostWrite_cases n v s with
  | launched w _ e => rw [e]; exact ⟨fun _ => rfl, fun _ h => absurd rfl h⟩
  | acknowledged w hidle e => rw [e, acknowledge_eq]; exact .of_idle hidle
  | control b e => rw [e]; exact ⟨hs.latched, hs.decoded⟩
  | descriptors hidle a na b nb out e => rw [e]; exact ⟨hs.latched, hs.decoded⟩

/-- Settles O56: only a launch writes CMD and the latch, and the launch step rejects an illegal word. -/
theorem latchStaysCoherent : Obligations.LatchStaysCoherent := fun _ _ hs h =>
  step_keeps (P := LatchCoherent) (fun _ v h => h.setHost v) (fun _ hb h => engineStep_latchCoherent hb h)
    hostWrite_latchCoherent (fun _ _ _ h => ⟨h.latched, h.decoded⟩) (fun _ _ => .of_idle rfl) hs h

/-! ### Reset -/

/-- Settles O58: nothing is listed in memory, no status is shown and the engine is idle. -/
theorem invariantsHoldAtReset : Obligations.InvariantsHoldAtReset :=
  ⟨⟨.nil, fun _ h => (by cases h)⟩, .of_clear rfl rfl rfl rfl rfl, .of_idle rfl, .of_idle rfl⟩

end Sys2Proof.Machine
end

section
/-! System memory under a command and under every step (spec/20_memory.md R60 to R62, R68, R69): which bytes a command may
have written, that what lies outside the logical elements never shows in its result, and that memory keeps its canonical
form. -/

-- Elaborated one at a time: the package as one text would otherwise hold a thread and its stack for many theorems at once.
set_option Elab.async false

namespace Sys2Proof.Machine

/-! ### The bytes a command writes -/

/-- TBLD between two rule applications, run from `s`: it stays out of the loops and memory is as it was (R173). -/
structure TbldRuns (s t : State) : Prop where
  command : decode t.regs.cmd = .ok .tbld
  phase : t.phase = .idle ∨ t.phase = .launch ∨ t.phase = .tbuild
  mem : t.mem = s.mem

theorem TbldRuns.setHost {s t : State} (v : HostSide) (h : TbldRuns s t) : TbldRuns s (t.setHost v) :=
  ⟨h.command, h.phase, h.mem⟩

/-- The gate is open, or the builder opens it, and TBLD completes (R118, R173). -/
theorem engineStep_tbldRuns {s t : State} (h : TbldRuns s t) : TbldRuns s (engineStep t) := by
  obtain ⟨hcmd, hp, hmem⟩ := h
  unfold engineStep
  rcases hp with hp | hp | hp <;> rw [hp]
  · exact ⟨hcmd, .inl hp, hmem⟩
  · refine noteIrq_lift (fun _ _ h => h.setHost _) ?_
    rw [launchStep, hcmd]
    show TbldRuns s (gate true .tbld t)
    unfold gate
    split
    · exact ⟨hcmd, .inr (.inr rfl), hmem⟩
    · exact ⟨hcmd, .inl rfl, hmem⟩
  · refine noteIrq_lift (fun _ _ h => h.setHost _) ?_
    rw [buildStep, hcmd]
    exact ⟨hcmd, .inl rfl, hmem⟩

theorem runWord_tbld_mem {s : State} (hidle : s.phase = .idle) : (runWord (encode .tbld) s).mem = s.mem := by
  rw [runWord]
  simp only [hostWrite_launch _ hidle]
  have hrun : TbldRuns s (runToIdle (engineFuel (launch (encode .tbld) s)) (launch (encode .tbld) s)) :=
    runToIdle_induct ⟨decode_encode .tbld, .inr (.inl rfl), rfl⟩ fun _ _ h => engineStep_tbldRuns h
  rcases observe_cases (runToIdle (engineFuel (launch (encode .tbld) s)) (launch (encode .tbld) s)) with e | e <;>
    rw [e] <;> exact hrun.mem

/-- What a word run on an idle engine leaves in memory and in COUNT: what its last rule application left (R121, R275). -/
theorem runWord_records (v : Reg64) {s : State} (hidle : s.phase = .idle) :
    ∃ u, Advances (launch v s) u ∧ (runWord v s).mem = u.mem ∧ (runWord v s).regs.count.toNat = u.work.c ∧
      4 * u.work.c ≤ 2 ^ 64 := by
  obtain ⟨u, r, hadv, hrun, hr, hc⟩ := runWord_outcome v hidle
  have hna : s.na < 2 ^ 32 := s.regs.aLen.isLt
  have hnb : s.nb < 2 ^ 32 := s.regs.bLen.isLt
  have hend : r.mem = u.mem ∧ r.regs.count = BitVec.ofNat 64 u.work.c := by
    rcases hr with rfl | ⟨f, p, rfl⟩ <;> exact ⟨rfl, rfl⟩
  refine ⟨u, hadv, ?_, ?_, by omega⟩
  · rw [hrun]; exact hend.1
  · rw [hrun, State.setHost_regs, hend.2, BitVec.toNat_ofNat]
    omega

/-- Settles O39: the run only fills slots below the running count, which COUNT records exactly. -/
theorem commandWritesOnlyCountedSlots : Obligations.CommandWritesOnlyCountedSlots := by
  intro i s t hidle h
  obtain ⟨u, hadv, hmem, hcount, hc⟩ := runWord_records (encode i) hidle
  obtain rfl := exec_next h
  refine ⟨fun p hp => ?_, fun hco => ?_, fun htbld => ?_⟩
  · rw [Region.has, hcount, decide_eq_false_iff_not, not_lt] at hp
    rw [hmem]
    exact hadv.mem hc p (.inr hp)
  · rw [hmem]
    exact (hadv.countOnly ((encode_bit8 i).trans hco)).1
  · subst htbld
    exact runWord_tbld_mem hidle

/-! ### The padding -/

/-- Other contents of memory do not touch what a launch looks at. -/
theorem Launchable.setMem {i : Instr} {q : Profile} {s : State} (M : Memory) (h : Launchable i q s) :
    Launchable i q (s.setMem M) :=
  ⟨h.idle, h.profile, h.checks, ⟨h.answers.a, h.answers.b, h.answers.out⟩⟩

/-- The registers after a command that met no fault (R110, R121): the descriptors and CTRL as before, the status of a
completion. -/
theorem regs_of_noFault {i : Instr} {s t : State} (hidle : s.phase = .idle) (h : exec i s = .next t)
    (hfault : t.regs.fault = false) : t.regs = { s.regs with
      cmd := encode i, done := true, fault := false, faultCode := 0, tblValid := t.regs.tblValid, count := t.regs.count,
      faultAddr := 0 } := by
  obtain ⟨u, r, hadv, hrun, hr, -⟩ := runWord_outcome (encode i) hidle
  obtain rfl := (exec_next h).trans hrun
  rcases hr with rfl | ⟨f, p, rfl⟩
  · have hregs := hadv.regs
    simp only [State.setHost_regs, complete, State.setPhase_regs, State.setRegs_regs]
    rw [hregs]
    rfl
  · cases hfault

/-- Settles O52: both runs end with the intersection of the same two sets. -/
theorem paddingNeverMatters : Obligations.PaddingNeverMatters := by
  intro i q s t t' M hlaunch hcontract hA hB hexec hexec'
  have hinter : interOf (setA (s.setMem M)) (setB (s.setMem M)) = interOf (setA s) (setB s) := congrArg₂ interOf hA hB
  have hcontract' : Contract (s.setMem M) := by
    show Ascending (setOf M s.regs.aBase s.na) ∧ Ascending (setOf M s.regs.bBase s.nb)
    rw [hA, hB]
    exact hcontract
  obtain ⟨u, hu, h⟩ := computesIntersection i q s hlaunch hcontract
  obtain ⟨u', hu', h'⟩ := computesIntersection i q _ (hlaunch.setMem M) hcontract'
  obtain rfl : t = u := by rw [hexec] at hu; cases hu; rfl
  obtain rfl : t' = u' := by rw [hexec'] at hu'; cases hu'; rfl
  have hcount : t.regs.count = t'.regs.count := BitVec.eq_of_toNat_eq (by rw [h.count, h'.count, hinter])
  have hgate : t.regs.tblValid = t'.regs.tblValid :=
    (tableGateOpensOnce i s t hlaunch.idle hexec).trans (tableGateOpensOnce i (s.setMem M) t' hlaunch.idle hexec').symm
  refine ⟨?_, fun hco => ?_⟩
  · rw [regs_of_noFault hlaunch.idle hexec h.noFault, regs_of_noFault (s := s.setMem M) hlaunch.idle hexec' h'.noFault,
      hcount, hgate]
    rfl
  · have hout' := h'.output hco
    rw [hinter] at hout'
    rw [h.count]
    exact (h.output hco).trans hout'.symm

/-! ### The canonical form -/

theorem Ends.wf {s t : State} (h : Ends s t) (hs : Memory.wf s.mem) : Memory.wf t.mem := by
  cases h with
  | running h _ => exact h.wf hs
  | completed u h e => subst e; exact h.wf hs
  | faulted u f p h e => subst e; exact h.wf hs

theorem engineStep_wf {s : State} (hb : s.busy = true) (hs : Memory.wf s.mem) : Memory.wf (engineStep s).mem := by
  obtain ⟨t, e, hends⟩ := engineStep_ends hb
  rw [e]
  exact noteIrq_lift (P := fun t => Memory.wf t.mem) (fun _ _ h => h) (hends.wf hs)

/-- No register access touches memory (R21). -/
theorem hostWrite_mem (n : Nat) (v : Reg64) (s : State) : (hostWrite n v s).mem = s.mem := by
  cases hostWrite_cases n v s with
  | launched w _ e => rw [e]; rfl
  | acknowledged w _ e => rw [e]; rfl
  | control b e => rw [e]; rfl
  | descriptors _ a na b nb out e => rw [e]; rfl

/-- Settles O54: only the engine's stores and the host's writes touch memory, and each keeps the form. -/
theorem memoryStaysCanonical : Obligations.MemoryStaysCanonical := fun _ _ hs h =>
  step_keeps (P := fun s => Memory.wf s.mem) (fun _ _ h => h) (fun _ hb h => engineStep_wf hb h)
    (fun n v s h => by rw [hostWrite_mem]; exact h) (fun _ p b h => Memory.wf_write b h p.isLt) (fun _ h => h) hs h

end Sys2Proof.Machine
end

section
/-! The launch checks and the engine's accesses (spec/20_memory.md R61, R63 to R66, R68 to R70; spec/40_command_dispatch.md
R115): what passing the checks says of the windows and of every element address, the byte order of memory, and what an access
does where a byte of it is refused. -/

-- Elaborated one at a time: the package as one text would otherwise hold a thread and its stack for many theorems at once.
set_option Elab.async false

namespace Sys2Proof.Machine

/-! ### The launch checks -/

/-- The launch checks as one condition (R115, R116). -/
theorem launchChecks_eq_none {q : Profile} {s : State} : launchChecks q s = none ↔
    s.regs.aBase.toNat % q.align = 0 ∧ s.regs.bBase.toNat % q.align = 0 ∧
    (s.work.co = false → s.regs.outBase.toNat % 4 = 0) ∧
    s.regs.aBase.toNat + lenA q s ≤ 2 ^ 64 ∧ s.regs.bBase.toNat + lenB q s ≤ 2 ^ 64 ∧
    (s.work.co = false → s.regs.outBase.toNat + lenOut s ≤ 2 ^ 64) ∧
    (s.work.co = false → overlap s.regs.outBase.toNat (lenOut s) s.regs.aBase.toNat (lenA q s) = false) ∧
    (s.work.co = false → overlap s.regs.outBase.toNat (lenOut s) s.regs.bBase.toNat (lenB q s) = false) := by
  simp only [launchChecks, ite_some_eq_none, ne_eq, Decidable.not_not, gt_iff_lt, not_lt, not_and, Bool.not_eq_true,
    and_true]

/-- Overlap of two ranges that do not wrap, byte by byte (R115). -/
theorem overlap_eq_false_iff {g k : Region} (hg : g.base.toNat + g.size ≤ 2 ^ 64) (hk : k.base.toNat + k.size ≤ 2 ^ 64) :
    overlap g.base.toNat g.size k.base.toNat k.size = false ↔ ∀ p : Addr, g.has p = true → k.has p = false := by
  constructor
  · intro h p hp
    rw [Region.has_iff hg] at hp
    rw [← Bool.not_eq_true, Region.has_iff hk]
    rcases overlap_false h with h | h | h | h <;> omega
  · intro h
    by_contra hc
    rw [Bool.not_eq_false, overlap, decide_eq_true_iff] at hc
    have hboth : ∃ p : Addr, g.has p = true ∧ k.has p = true := by
      rcases le_total g.base.toNat k.base.toNat with hle | hle
      · exact ⟨k.base, (Region.has_iff hg).2 (by omega), (Region.has_iff hk).2 (by omega)⟩
      · exact ⟨g.base, (Region.has_iff hg).2 (by omega), (Region.has_iff hk).2 (by omega)⟩
    obtain ⟨p, hp, hp'⟩ := hboth
    rw [h p hp] at hp'
    cases hp'

/-- In count-only mode the output window holds no byte (R69). -/
theorem windowOut_countOnly {s : State} (hco : s.work.co = true) (p : Addr) : (windowOut s).has p = false := by
  simp [windowOut, Region.has, hco]

theorem windowOut_storing {s : State} (hco : s.work.co = false) : windowOut s = ⟨s.regs.outBase, lenOut s⟩ := by
  simp [windowOut, hco]

/-- Settles O18: the two overlap checks say byte by byte that the output window lies outside the storage windows. -/
theorem checksPassExactlyOnLegalWindows : Obligations.ChecksPassExactlyOnLegalWindows := by
  intro q s
  rw [launchChecks_eq_none]
  refine and_congr_right fun _ => and_congr_right fun _ => and_congr_right fun _ => and_congr_right fun ha =>
    and_congr_right fun hb => and_congr_right fun hout => ?_
  cases hco : s.work.co with
  | true => simp [windowOut_countOnly hco]
  | false =>
    have hA := overlap_eq_false_iff (g := ⟨s.regs.outBase, lenOut s⟩) (k := windowA q s) (hout hco) ha
    have hB := overlap_eq_false_iff (g := ⟨s.regs.outBase, lenOut s⟩) (k := windowB q s) (hout hco) hb
    simp only [windowOut_storing hco, true_imp_iff, imp_and, forall_and]
    exact and_congr hA hB

/-! ### Alignment -/

/-- An effective address is its base plus the scaled index, modulo anything that divides the address space (R63). -/
theorem eltAddr_mod {n : Nat} (hn : n ∣ 2 ^ 64) (base : Addr) (x : Nat) :
    (eltAddr base x).toNat % n = (base.toNat + 4 * x) % n := by
  rw [eltAddr, BitVec.toNat_add, BitVec.toNat_ofNat, Nat.mod_mod_of_dvd _ hn, Nat.add_mod, Nat.mod_mod_of_dvd _ hn,
    ← Nat.add_mod]

/-- Settles O20: 4 divides every alignment, and every alignment the address space. -/
theorem passedChecksKeepAlignment : Obligations.PassedChecksKeepAlignment := by
  intro i q s hprofile hchecks x
  obtain ⟨ha, hb, hout, -⟩ := launchChecks_eq_none.1 hchecks
  have halign : q.align ∣ 2 ^ 64 ∧ 4 ∣ q.align := by
    rcases (profile_facts hprofile).1 with h | h | h <;> rw [h] <;> decide
  have elt_mod_four : ∀ base : Addr, base.toNat % 4 = 0 → (eltAddr base x).toNat % 4 = 0 := fun base h => by
    rw [eltAddr_mod (by decide)]
    omega
  have elt_mod_align : ∀ base : Addr, base.toNat % q.align = 0 → 4 * x % q.align = 0 →
      (eltAddr base x).toNat % q.align = 0 := fun base h hx => by
    rw [eltAddr_mod halign.1, Nat.add_mod, h, hx, Nat.zero_add, Nat.zero_mod]
  have mod_four : ∀ n, n % q.align = 0 → n % 4 = 0 := fun n h =>
    Nat.mod_eq_zero_of_dvd (halign.2.trans (Nat.dvd_of_mod_eq_zero h))
  exact ⟨elt_mod_four _ (mod_four _ ha), elt_mod_four _ (mod_four _ hb),
    fun hx => ⟨elt_mod_align _ ha hx, elt_mod_align _ hb hx⟩, fun hco => elt_mod_four _ (hout hco)⟩

/-! ### Accesses -/

theorem checkRead_refused {s : State} {p : Addr} {n : Nat} (h : allBytes s.port.readable p n = false) :
    checkRead s p n = .error ⟨.busRead, p, s⟩ := by
  rw [checkRead, h]; rfl

theorem readElem_refused {s : State} {p : Addr} (h : allBytes s.port.readable p 4 = false) :
    readElem s p = .error ⟨.busRead, p, s⟩ := by
  rw [readElem, checkRead_refused h]; rfl

theorem loadV4_refused {s : State} {base : Addr} {x : Nat} (h : allBytes s.port.readable (eltAddr base x) 16 = false) :
    loadV4 s base x = .error ⟨.busRead, eltAddr base x, s⟩ := by
  rw [loadV4, checkRead_refused h]; rfl

theorem loadV8_refused {s : State} {base : Addr} {x : Nat} (h : allBytes s.port.readable (eltAddr base x) 32 = false) :
    loadV8 s base x = .error ⟨.busRead, eltAddr base x, s⟩ := by
  rw [loadV8, checkRead_refused h]; rfl

/-- An 8-lane load that answers, answers the eight elements as memory holds them (R142). -/
theorem loadV8_ok {s : State} {base : Addr} {x : Nat} {Y : V256} (h : loadV8 s base x = .ok Y) :
    Y = memLanes8 s.mem base x := by
  cases hr : allBytes s.port.readable (eltAddr base x) 32 with
  | true => rw [loadV8_eq hr] at h; cases h; rfl
  | false => rw [loadV8_refused hr] at h; cases h

theorem lane8_memLanes8 (M : Memory) (base : Addr) (x l : Nat) (hl : l < 8) :
    lane8 (memLanes8 M base x) l = Memory.elem M (eltAddr base (x + l)) := lane8_ofLanes8 _ _ hl

/-- Settles O22: each access is one check over all its bytes. -/
theorem busFaultsAreAllOrNothing : Obligations.BusFaultsAreAllOrNothing := by
  intro s p base x es hes
  simp only [← allBytes_iff, ← allBytes_false]
  obtain ⟨hstore, hrefused⟩ := storeElems_spec s p es (by omega)
  refine ⟨readElem_eq, readElem_refused, loadV4_eq, loadV4_refused,
    fun h => ⟨_, loadV8_eq h, lane8_memLanes8 s.mem base x⟩, loadV8_refused, fun h => ?_, hrefused⟩
  obtain ⟨t, ht, hset, -, -, -, -, hframe⟩ := hstore h
  exact ⟨t, ht, hset, hframe⟩

/-! ### Byte order -/

theorem append_toNat {m n : Nat} (a : BitVec m) (b : BitVec n) : (a ++ b).toNat = 2 ^ n * a.toNat + b.toNat := by
  rw [BitVec.toNat_append, ← Nat.shiftLeft_add_eq_or_of_lt b.isLt, Nat.shiftLeft_eq, Nat.mul_comm]

/-- The weights of an element's bytes (R61). -/
theorem elemOfBytes_toNat (b0 b1 b2 b3 : Byte) : (elemOfBytes b0 b1 b2 b3).toNat =
    b0.toNat + 2 ^ 8 * b1.toNat + 2 ^ 16 * b2.toNat + 2 ^ 24 * b3.toNat := by
  simp only [elemOfBytes, append_toNat]
  omega

/-- A stored element's bytes stand at ascending addresses, the least significant first (R61). -/
theorem read_writeBytes_elemBytes (M : Memory) (p : Addr) (v : Elem) (t : Nat) (ht : t < 4) :
    Memory.read (Memory.writeBytes M p (elemBytes v)) (p + BitVec.ofNat 64 t).toNat = byteOf v t := by
  have hoff : (p + BitVec.ofNat 64 t - p).toNat = t := by
    rw [show p + BitVec.ofNat 64 t - p = BitVec.ofNat 64 t by ring, BitVec.toNat_ofNat]
    omega
  have hlen : (elemBytes v).length = 4 := rfl
  rw [Memory.read_writeBytes _ _ _ _ (by rw [hlen]; omega), hoff, hlen, if_pos ht]
  interval_cases t <;> rfl

/-- Byte `k` of a 4-lane block is the byte at offset `k` of it (R12, R61, R141). -/
theorem byte16_memLanes4 (M : Memory) (base : Addr) (x k : Nat) (hk : k < 16) :
    byte16 (memLanes4 M base x) k = Memory.read M (eltAddr base x + BitVec.ofNat 64 k).toNat := by
  have haddr : eltAddr base (x + k / 4) + BitVec.ofNat 64 (k % 4) = eltAddr base x + BitVec.ofNat 64 k := by
    rw [← eltAddr_add, eltAddr, add_assoc, ← BitVec.ofNat_add, Nat.div_add_mod]
  rw [byte16, memLanes4, lane4_ofLanes4 _ _ (by omega), byteOf_elem _ _ _ (by omega), haddr]

/-- Settles O23: elements, stores and lanes all go through the byte order of one element. -/
theorem memoryIsLittleEndian : Obligations.MemoryIsLittleEndian := by
  intro M p base v x
  refine ⟨elemOfBytes_toNat _ _ _ _, read_writeBytes_elemBytes M p v, fun l hl => lane4_ofLanes4 _ _ hl,
    byte16_memLanes4 M base x, fun s Y hs hY l hl => ?_⟩
  subst hs
  rw [loadV8_ok hY, lane8_memLanes8 _ _ _ _ hl]

end Sys2Proof.Machine
end

section
/-! The host's accesses to system memory (spec/20_memory.md R74, R78, spec/70_reset_and_hazards.md R310, R312, R314): the
windows of a busy engine are all that bars one, and after a command nothing is barred and nothing is left to observe. -/

-- Elaborated one at a time: the package as one text would otherwise hold a thread and its stack for many theorems at once.
set_option Elab.async false

namespace Sys2Proof.Machine

/-! ### What bars an access -/

/-- The host may not write a byte of a storage window of a busy engine (R310). -/
theorem inStorageWindow_iff {p : Addr} {s : State} : inStorageWindow p s = true ↔
    ∃ q, s.phase ≠ .idle ∧ currentProfile s = some q ∧ ((windowA q s).has p = true ∨ (windowB q s).has p = true) := by
  unfold inStorageWindow
  split <;> rename_i h <;> simp [h, busy_iff]

/-- The host may not touch a byte of the output window of a busy engine (R310). -/
theorem inOutputWindow_iff {p : Addr} {s : State} : inOutputWindow p s = true ↔
    ∃ q, s.phase ≠ .idle ∧ currentProfile s = some q ∧ (windowOut s).has p = true := by
  unfold inOutputWindow
  split <;> rename_i h <;> simp [h, busy_iff]

theorem inStorageWindow_free {p : Addr} {s : State} (h : ∀ q, s.phase ≠ .idle → currentProfile s = some q →
    (windowA q s).has p = false ∧ (windowB q s).has p = false) : inStorageWindow p s = false := by
  rw [← Bool.not_eq_true, inStorageWindow_iff]
  rintro ⟨q, hbusy, hq, hwin⟩
  obtain ⟨hA, hB⟩ := h q hbusy hq
  simp [hA, hB] at hwin

theorem inOutputWindow_free {p : Addr} {s : State} (h : ∀ q, s.phase ≠ .idle → currentProfile s = some q →
    (windowOut s).has p = false) : inOutputWindow p s = false := by
  rw [← Bool.not_eq_true, inOutputWindow_iff]
  rintro ⟨q, hbusy, hq, hwin⟩
  simp [h q hbusy hq] at hwin

/-! ### What an access does -/

/-- The state after a host write that is not barred. -/
def hostWrote (p : Addr) (b : Byte) (s : State) : State :=
  (s.setMem (Memory.write s.mem p.toNat b)).setHost { s.host with unseen := s.host.unseen.flatMap (Region.without p) }

theorem hostMemWrite_barred {p : Addr} {s : State} (b : Byte)
    (h : inStorageWindow p s = true ∨ inOutputWindow p s = true) : hostMemWrite p b s = .fault .hostTouchesWindow := by
  rw [hostMemWrite, if_pos (by simpa using h)]

theorem hostMemWrite_free {p : Addr} {s : State} (b : Byte) (hS : inStorageWindow p s = false)
    (hO : inOutputWindow p s = false) : hostMemWrite p b s = .next (hostWrote p b s) := by
  rw [hostMemWrite, hS, hO]
  rfl

theorem read_hostWrote (p a : Addr) (b : Byte) (s : State) :
    Memory.read (hostWrote p b s).mem a.toNat = if a = p then b else Memory.read s.mem a.toNat := by
  simp [hostWrote, Memory.read_write, BitVec.toNat_inj]

theorem notYetSeen_hostWrote (p a : Addr) (b : Byte) (s : State) :
    notYetSeen a (hostWrote p b s) = (notYetSeen a s && a != p) := unseen_without _ _ _

theorem hostMemRead_barred {p : Addr} {s : State} (h : inOutputWindow p s = true) :
    hostMemRead p s = .fault .hostTouchesWindow := by
  rw [hostMemRead, if_pos h]

/-- A read that is not barred answers a byte, memory's own where nothing about it is left to observe (R74). -/
theorem hostMemRead_free {p : Addr} {s : State} (h : inOutputWindow p s = false) : ∃ (v : Byte) (n : Nat),
    hostMemRead p s = .next (s.setHost { s.host with got := v.setWidth 64 :: s.host.got, draws := n }) ∧
      (notYetSeen p s = false → v = Memory.read s.mem p.toNat ∧ n = s.host.draws) := by
  rw [hostMemRead, h]
  cases hseen : notYetSeen p s with
  | true => exact ⟨_, _, rfl, fun h => by cases h⟩
  | false => exact ⟨_, _, rfl, fun _ => ⟨rfl, rfl⟩⟩

/-! ### Host lines -/

theorem step_memWrite {s : State} {p : Addr} {b : Byte} {rest : List HostLine}
    (h : s.host.script = .memWrite p b :: rest) : step s = hostMemWrite p b (s.withScript rest) := by
  rw [step, h]
  simp only [playLine, popLine, h, List.tail_cons]
  rfl

theorem step_memRead {s : State} {p : Addr} {rest : List HostLine} (h : s.host.script = .memRead p :: rest) :
    step s = hostMemRead p (s.withScript rest) := by
  rw [step, h]
  simp only [playLine, popLine, h, List.tail_cons]
  rfl

/-- Settles O59: the two guards of the host's accesses name exactly the windows of a busy engine. -/
theorem onlyBusyWindowsStopTheHost : Obligations.OnlyBusyWindowsStopTheHost := by
  refine ⟨fun s q p b rest hbusy hq => ⟨fun h hwin => ?_, fun h hwin => ?_⟩, fun s p b rest h hfree => ?_,
    fun s p rest h hfree => ?_⟩
  · rw [step_memWrite h]
    refine hostMemWrite_barred b ?_
    rcases hwin with hA | hB | hO
    · exact .inl (inStorageWindow_iff.2 ⟨q, hbusy, hq, .inl hA⟩)
    · exact .inl (inStorageWindow_iff.2 ⟨q, hbusy, hq, .inr hB⟩)
    · exact .inr (inOutputWindow_iff.2 ⟨q, hbusy, hq, hO⟩)
  · rw [step_memRead h]
    exact hostMemRead_barred (inOutputWindow_iff.2 ⟨q, hbusy, hq, hwin⟩)
  · have hS : inStorageWindow p (s.withScript rest) = false := inStorageWindow_free fun q hbusy hq => by
      obtain ⟨hA, hB, -⟩ := hfree q hbusy hq
      exact ⟨hA, hB⟩
    have hO : inOutputWindow p (s.withScript rest) = false := inOutputWindow_free fun q hbusy hq => by
      obtain ⟨-, -, hout⟩ := hfree q hbusy hq
      exact hout
    refine ⟨_, (step_memWrite h).trans (hostMemWrite_free b hS hO), ?_, fun a ha => ?_, ?_, fun a ha => ?_, rfl, rfl, rfl,
      rfl, rfl, rfl⟩
    · rw [read_hostWrote, if_pos rfl]
    · rw [read_hostWrote, if_neg ha]
      rfl
    · rw [notYetSeen_hostWrote, bne_self_eq_false, Bool.and_false]
    · rw [notYetSeen_hostWrote, bne_iff_ne.2 ha, Bool.and_true]
      rfl
  · have hO : inOutputWindow p (s.withScript rest) = false := inOutputWindow_free hfree
    obtain ⟨v, n, hread, hv⟩ := hostMemRead_free hO
    exact ⟨_, v, (step_memRead h).trans hread, rfl, fun hseen => (hv hseen).1, rfl, fun _ => rfl, rfl, rfl, rfl, rfl, rfl⟩

/-! ### After a command -/

/-- A word run and waited for leaves the engine idle and nothing to observe (R74). -/
theorem runWord_observed (v : Reg64) {s : State} (h : s.phase = .idle) :
    (runWord v s).phase = .idle ∧ (runWord v s).host.unseen = [] := by
  obtain ⟨u, r, -, hrun, hr, -⟩ := runWord_outcome v h
  rw [hrun]
  exact ⟨by rcases hr with rfl | ⟨f, p, rfl⟩ <;> rfl, rfl⟩

/-- Settles O60: an idle engine bars no access, and completion has been observed. -/
theorem completedOutputIsVisible : Obligations.CompletedOutputIsVisible := by
  intro i s t p b hidle h
  obtain ⟨hphase, hunseen⟩ := runWord_observed (encode i) hidle
  rw [← exec_next h] at hphase hunseen
  have hseen : notYetSeen p t = false := by rw [notYetSeen, hunseen]; rfl
  have hS : inStorageWindow p t = false := inStorageWindow_free fun _ hbusy => absurd hphase hbusy
  have hO : inOutputWindow p t = false := inOutputWindow_free fun _ hbusy => absurd hphase hbusy
  refine ⟨?_, _, hostMemWrite_free b hS hO, ?_, rfl, fun a ha => ?_⟩
  · obtain ⟨v, n, hread, hv⟩ := hostMemRead_free hO
    obtain ⟨rfl, rfl⟩ := hv hseen
    exact hread
  · rw [read_hostWrote, if_pos rfl]
  · rw [read_hostWrote, if_neg ha]

end Sys2Proof.Machine
end

section
/-! The command words (spec/30_encoding.md R90 to R97): which words are legal and how each illegal one ends; and the words as
the opcode table lays them out in bytes. -/

-- Elaborated one at a time: the package as one text would otherwise hold a thread and its stack for many theorems at once.
set_option Elab.async false

namespace Sys2Proof.Machine

/-! ### The legal words -/

/-- Settles O1: `decode_encode` one way, `encode_of_decode` the other. -/
theorem decodeIsExactlyEncode : Obligations.DecodeIsExactlyEncode := fun _ i =>
  ⟨encode_of_decode, fun h => h ▸ decode_encode i⟩

/-- Settles O2: the list holds each command once, with the word that encodes it. -/
theorem legalWordsAreElevenValues : Obligations.LegalWordsAreElevenValues := by
  intro w i
  rw [decodeIsExactlyEncode w i]
  cases i with
  | tbld | merge | shuf4 | shuf8 | shuf256 => simp [encode, Instr.fields, Fields.word, Instr.opcode, Instr.countOnly]
  | gallop co | qfB4 co | qfV2 co =>
    cases co <;> simp [encode, Instr.fields, Fields.word, Instr.opcode, Instr.countOnly]

/-- Settles O4: each of these is the word its command is encoded as. -/
theorem sampleWordsDecode : Obligations.SampleWordsDecode :=
  ⟨decode_encode .tbld, decode_encode .merge, decode_encode (.gallop true), decode_encode (.qfB4 false),
    decode_encode .shuf256⟩

/-! ### The illegal words -/

/-- The reserved opcodes are 0x00 and 0x09 to 0xFF (R91). -/
theorem opKnown_eq_false_iff (f : Fields) : f.opKnown = false ↔ f.op.toNat = 0 ∨ 8 < f.op.toNat := by
  simp only [Fields.opKnown, Bool.and_eq_false_iff, decide_eq_false_iff_not]
  omega

/-- The count-only bit is refused outside GALLOP, QF_B4 and QF_V2 (R92). -/
theorem coAllowed_eq_false_iff (f : Fields) :
    f.coAllowed = false ↔ f.co = true ∧ f.op ≠ 3 ∧ f.op ≠ 4 ∧ f.op ≠ 5 := by
  simp only [Fields.coAllowed, Bool.or_eq_false_iff, Bool.not_eq_false', beq_eq_false_iff_ne, and_assoc]

/-- The opcode map has no command exactly for the reserved opcodes (R91). -/
theorem commandOf_eq_none_iff (f : Fields) : commandOf f.op f.co = none ↔ f.opKnown = false := by
  rw [opKnown_eq_false_iff]
  unfold commandOf
  split <;> grind

/-- The decoder rejects exactly the words whose fields are not well-formed (R94). -/
theorem decode_rejects_iff (w : BitVec 64) : (∃ e, decode w = .error e) ↔ (wordFields w).wellFormed = false := by
  have hnone := commandOf_eq_none_iff (wordFields w)
  simp only [decode, Fields.wellFormed, Bool.and_eq_false_iff]
  split
  · next hrsv => exact iff_of_true ⟨_, rfl⟩ (.inl (.inl hrsv))
  · next hrsv =>
    split
    · next hco => exact iff_of_true ⟨_, rfl⟩ (.inr (by simp_all))
    · next hco =>
      split
      · next hcmd => simp_all
      · next hcmd => exact iff_of_true ⟨_, rfl⟩ (.inl (.inr (hnone.1 hcmd)))

/-- The three conditions of R94, said of the bits of the word. -/
theorem wellFormed_wordFields_eq_false_iff (w : BitVec 64) : (wordFields w).wellFormed = false ↔
    w.extractLsb' 9 55 ≠ 0 ∨ (w.extractLsb' 0 8).toNat = 0 ∨ 8 < (w.extractLsb' 0 8).toNat ∨
      (w.getLsbD 8 = true ∧ w.extractLsb' 0 8 ≠ 3 ∧ w.extractLsb' 0 8 ≠ 4 ∧ w.extractLsb' 0 8 ≠ 5) := by
  simp only [Fields.wellFormed, Bool.and_eq_false_iff, opKnown_eq_false_iff, coAllowed_eq_false_iff, or_assoc,
    Fields.rsvZero, beq_eq_false_iff_ne, wordFields]

/-- A word whose launch step raises a fault ends there, and WAIT observes it (R111, R115, R275). -/
theorem runWord_of_launch_fault {v : Reg64} {s : State} {f : EngineFault} {p : Addr} (hidle : s.phase = .idle)
    (h : launchStep (launch v s) = takeFault f p (launch v s)) :
    runWord v s = (takeFault f p (launch v s)).setHost { s.host with unseen := [] } := by
  have hstep : engineStep (launch v s) = noteIrq (takeFault f p (launch v s)) := congrArg noteIrq h
  have hend : (engineStep (launch v s)).phase = .idle := by rw [hstep, noteIrq_phase]; rfl
  calc runWord v s = observe (runToIdle (engineFuel (launch v s)) (launch v s)) := by
        unfold runWord
        rw [hostWrite_launch v hidle]
    _ = observe (engineStep (launch v s)) := congrArg observe (runToIdle_one (n := s.na + s.nb + 7) rfl hend)
    _ = _ := by rw [hstep, observe_noteIrq_end (.inr ⟨f, p, rfl⟩)]; rfl

/-- The launch step of a word that the decoder rejects raises ILLEGAL_CMD (R111). -/
theorem launchStep_illegal {v : Reg64} {e : DecodeError} (s : State) (h : decode v = .error e) :
    launchStep (launch v s) = takeFault .illegalCmd 0 (launch v s) := by
  have hcmd : decode (launch v s).regs.cmd = .error e := h
  unfold launchStep
  rw [hcmd]

/-- Settles O3: the launch clears the status and the running count, so the fault records its code alone. -/
theorem illegalWordsRaiseIllegalCmd : Obligations.IllegalWordsRaiseIllegalCmd := by
  intro v s hidle
  refine ⟨?_, fun ⟨e, he⟩ => ?_⟩
  · rw [decode_rejects_iff, wellFormed_wordFields_eq_false_iff]
  · rw [runWord_of_launch_fault hidle (launchStep_illegal s he)]
    exact ⟨rfl, rfl, rfl, rfl, rfl⟩

/-! ### A word placed for the next step -/

/-- The bytes of a word give it back. -/
theorem wordOfBytes_bytesOfWord (w : BitVec 64) : wordOfBytes (bytesOfWord w) = w := by
  have hjoin (k : Nat) {m : Nat} : w.extractLsb' (k + 8) m ++ w.extractLsb' k 8 = w.extractLsb' k (m + 8) :=
    BitVec.extractLsb'_append_extractLsb'_eq_extractLsb' rfl
  calc wordOfBytes (bytesOfWord w) = w.extractLsb' 56 8 ++ w.extractLsb' 48 8 ++ w.extractLsb' 40 8 ++
        w.extractLsb' 32 8 ++ w.extractLsb' 24 8 ++ w.extractLsb' 16 8 ++ w.extractLsb' 8 8 ++ w.extractLsb' 0 8 := rfl
    _ = w.extractLsb' 0 64 := by rw [hjoin 48, hjoin 40, hjoin 32, hjoin 24, hjoin 16, hjoin 8, hjoin 0]
    _ = w := BitVec.extractLsb'_eq_self

/-- A table word is decoded as the word itself is. -/
theorem decode_tableWord {nbits w : Nat} {i : Instr} (h : decodeTableWord nbits w = some i) :
    decode (tableWord nbits w) = .ok i := by
  unfold decodeTableWord decodeBytes at h
  rw [wordOfBytes_bytesOfWord] at h
  split at h <;> cases h
  assumption

/-- Settles O6: the word placed is a RUN line, and taking that line leaves the lines pending before. -/
theorem placedWordRunsNext : Obligations.PlacedWordRunsNext := fun s nbits w i h =>
  stepRunsTheDecodedCommand (s.withFetchWord nbits w) (tableWord nbits w) s.host.script i rfl (decode_tableWord h)

end Sys2Proof.Machine
end

section
/-! Commands from launch to end (spec/40_command_dispatch.md): the launch itself (R110), what the launch checks say of the
addresses (R117) and how a launch that fails them ends (R115, R275); that every command ends (R135), and that one with an
empty set goes through its phases without a store (R136). -/

-- Elaborated one at a time: the package as one text would otherwise hold a thread and its stack for many theorems at once.
set_option Elab.async false

namespace Sys2Proof.Machine

/-! ### The end of a run -/

/-- The fuel of a run covers the measure that every step lowers (R135). -/
theorem runWord_phase (v : Reg64) (s : State) : (runWord v s).phase = .idle := by
  rw [runWord, observe_phase]
  exact runToIdle_ends (budget_le_fuel _)

/-- Settles O36: every step lowers the budget, and the fuel is no less than it. -/
theorem everyCommandEnds : Obligations.EveryCommandEnds := fun i s => ⟨_, exec_eq i s, runWord_phase (encode i) s⟩

/-- Induction along a word run on an idle engine, from the launch to the end. -/
theorem runWord_induct {P : State → Prop} {v : Reg64} {s : State} (hidle : s.phase = .idle) (hlaunch : P (launch v s))
    (hstep : ∀ t, t.busy = true → P t → P (engineStep t)) (hhost : ∀ t w, P t → P (t.setHost w)) : P (runWord v s) := by
  have hrun : P (runToIdle (engineFuel (launch v s)) (launch v s)) := runToIdle_induct hlaunch hstep
  rw [runWord, hostWrite_launch v hidle]
  rcases observe_cases (runToIdle (engineFuel (launch v s)) (launch v s)) with e | e <;> rw [e]
  · exact hrun
  · exact hhost _ _ hrun

/-! ### The launch -/

/-- Settles O14: the write of CMD is the launch, and a busy engine drops it. -/
theorem launchLatchesTheWord : Obligations.LaunchLatchesTheWord := by
  intro s v
  refine ⟨fun hidle => ?_, fun hbusy => hostWrite_busy 1 v (busy_iff.2 hbusy)⟩
  rw [hostWrite_launch v hidle]
  refine ⟨rfl, ?_⟩
  rw [show hostRead 2 (launch v s) = _ from statusWord_busy rfl]
  exact (statusOf_bits true false false _ 0).1

/-- Settles O19: an element of a window lies below the window's end, which the checks hold to 2^64. -/
theorem passedChecksNeverWrap : Obligations.PassedChecksNeverWrap := by
  intro i q s hprofile hchecks
  obtain ⟨-, -, -, ha, hb, hout, -⟩ := launchChecks_eq_none.1 hchecks
  have hwidth := (profile_facts hprofile).2
  have hna : s.na < 2 ^ 32 := s.regs.aLen.isLt
  have hnb : s.nb < 2 ^ 32 := s.regs.bLen.isLt
  obtain ⟨-, hpa, -⟩ := padTo_bounds hwidth hna
  obtain ⟨-, hpb, -⟩ := padTo_bounds hwidth hnb
  unfold lenA lenB lenOut at *
  refine ⟨fun x hx => eltAddr_toNat (by omega), fun x hx => eltAddr_toNat (by omega), fun hco x hx => ?_, by omega,
    by omega, by omega⟩
  have hend := hout hco
  exact eltAddr_toNat (by omega)

/-- The launch step of a kernel command whose checks fail takes the fault they name (R115, R273). -/
theorem launchStep_refused {i : Instr} {q : Profile} {s : State} {f : EngineFault} {p : Addr}
    (hprofile : profileOf i = some q) (hchecks : launchChecks q (launch (encode i) s) = some (f, p)) :
    launchStep (launch (encode i) s) = takeFault f p (launch (encode i) s) := by
  have hcmd : decode (launch (encode i) s).regs.cmd = .ok i := decode_encode i
  unfold launchStep
  simp only [hcmd, hprofile, hchecks]

/-- Settles O21: the launch step takes the fault before the gate, with COUNT as the launch has cleared it. -/
theorem launchFaultIsPrecise : Obligations.LaunchFaultIsPrecise := by
  intro i q s f p hidle hprofile hchecks
  refine ⟨_, exec_eq i s, ?_⟩
  rw [runWord_of_launch_fault hidle (launchStep_refused hprofile hchecks)]
  exact ⟨rfl, rfl, rfl, rfl, rfl⟩

/-! ### Empty sets -/

/-- From `s` to `t` nothing is stored or counted and no fault is taken; the gate may open and the end be recorded. -/
structure Untouched (s t : State) : Prop where
  regs : t.regs = { s.regs with done := t.regs.done, tblValid := t.regs.tblValid, count := t.regs.count }
  port : t.port = s.port
  mem : t.mem = s.mem
  co : t.work.co = s.work.co
  c : t.work.c = s.work.c

theorem Untouched.refl (s : State) : Untouched s s := ⟨rfl, rfl, rfl, rfl, rfl⟩

theorem Untouched.trans {s t u : State} (h : Untouched s t) (g : Untouched t u) : Untouched s u where
  regs := by rw [g.regs, h.regs]
  port := g.port.trans h.port
  mem := g.mem.trans h.mem
  co := g.co.trans h.co
  c := g.c.trans h.c

theorem Untouched.setHost {s t : State} (v : HostSide) (h : Untouched s t) : Untouched s (t.setHost v) :=
  ⟨h.regs, h.port, h.mem, h.co, h.c⟩

theorem complete_untouched (s : State) : Untouched s (complete s) := ⟨rfl, rfl, rfl, rfl, rfl⟩

/-- A change of phase and of working registers other than the count and the latched flag. -/
theorem Untouched.of_work {s t : State} (hr : t.regs = s.regs) (hp : t.port = s.port) (hm : t.mem = s.mem)
    (hco : t.work.co = s.work.co) (hc : t.work.c = s.work.c) : Untouched s t :=
  ⟨by rw [hr], hp, hm, hco, hc⟩

theorem setPhase_untouched (s : State) (p : Phase) : Untouched s (s.setPhase p) := .of_work rfl rfl rfl rfl rfl

theorem buildTables_untouched (s : State) : Untouched s (buildTables s) := ⟨rfl, rfl, rfl, rfl, rfl⟩

/-- The state of a kernel command with its checks passing, its inputs readable and one of its sets empty. -/
structure EmptyInput (i : Instr) (q : Profile) (s : State) : Prop where
  command : decode s.regs.cmd = .ok i
  profile : profileOf i = some q
  checks : launchChecks q s = none
  a : OnRegion (windowA q s) s.port.readable
  b : OnRegion (windowB q s) s.port.readable
  empty : s.na = 0 ∨ s.nb = 0

section

variable {i : Instr} {q : Profile} {s t : State}

theorem Untouched.emptyInput (h : Untouched s t) (hs : EmptyInput i q s) : EmptyInput i q t := by
  obtain ⟨hr, hp, -, hco, -⟩ := h
  obtain ⟨hcmd, hprofile, hchecks, ha, hb, hempty⟩ := hs
  have hwin : windowA q t = windowA q s ∧ windowB q t = windowB q s := by
    unfold windowA windowB lenA lenB State.na State.nb
    rw [hr]
    exact ⟨rfl, rfl⟩
  refine ⟨by rw [hr]; exact hcmd, hprofile, ?_, by rw [hwin.1, hp]; exact ha, by rw [hwin.2, hp]; exact hb, ?_⟩
  · unfold launchChecks lenA lenB lenOut State.na State.nb at *
    rw [hr, hco]
    exact hchecks
  · unfold State.na State.nb
    rw [hr]
    exact hempty

/-- A block inside a window that answers is loaded (R66, R141). -/
theorem loadV4_answered {base : Addr} {x n : Nat} (h : OnRegion ⟨base, n⟩ s.port.readable) (hn : n ≤ 2 ^ 64)
    (hx : 4 * x + 16 ≤ n) : loadV4 s base x = .ok (memLanes4 s.mem base x) :=
  loadV4_eq ((allBytes_iff _ _ _).2 fun _ hk => h _ (has_elt_byte base (by omega) hn))

/-- An initial load of QF_V2 reads the first block of a set that is not empty (R227): `f v` is the state with `v` in the
register. -/
theorem firstLoad_answered {base : Addr} {n : Nat} {f : V128 → State} {v₀ : V128} (hn : n < 2 ^ 32)
    (h : OnRegion ⟨base, 4 * padTo 4 n⟩ s.port.readable) (hkeep : f v₀ = s) :
    ∃ v, (if 0 < padTo 4 n then loadV4 s base 0 >>= fun v => .ok (f v) else .ok s) = .ok (f v) := by
  obtain ⟨-, hpad, -⟩ := padTo_bounds (.inr (.inl rfl)) hn
  split
  · rename_i hlt
    have hblock := padTo_add_le rfl hlt
    rw [loadV4_answered h (by omega) (by omega)]
    exact ⟨_, rfl⟩
  · exact ⟨v₀, congrArg Except.ok hkeep.symm⟩

theorem reloadA_answered (hi : t.work.i = 0) (hq : q.width = 4) (h : OnRegion (windowA q t) t.port.readable) :
    ∃ va, reloadA t = .ok (t.setWork { t.work with va := va }) := by
  rw [windowA, lenA, hq] at h
  unfold reloadA
  rw [hi]
  exact firstLoad_answered (v₀ := t.work.va) t.regs.aLen.isLt h rfl

theorem reloadB_answered (hj : t.work.j = 0) (hq : q.width = 4) (h : OnRegion (windowB q t) t.port.readable) :
    ∃ vb, reloadB t = .ok (t.setWork { t.work with vb := vb }) := by
  rw [windowB, lenB, hq] at h
  unfold reloadB
  rw [hj]
  exact firstLoad_answered (v₀ := t.work.vb) t.regs.bLen.isLt h rfl

theorem enterQfV2_untouched {co : Bool} (h : EmptyInput (.qfV2 co) q t) (hi : t.work.i = 0) (hj : t.work.j = 0) :
    Untouched t (settle (enterQfV2 t)) := by
  have hq : q.width = 4 := by cases h.profile; rfl
  obtain ⟨va, hA⟩ := reloadA_answered (t := t.setPhase .vec) hi hq h.a
  obtain ⟨vb, hB⟩ := reloadB_answered (t := (t.setPhase .vec).setWork { t.work with va := va }) hj hq h.b
  have hload : enterQfV2 t = reloadA (t.setPhase .vec) >>= reloadB := rfl
  rw [hload, hA]
  show Untouched t (settle (reloadB ((t.setPhase .vec).setWork { t.work with va := va })))
  rw [hB]
  exact .of_work rfl rfl rfl rfl rfl

theorem dispatch_untouched (h : EmptyInput i q t) (hi : t.work.i = 0) (hj : t.work.j = 0) :
    Untouched t (dispatch i t) := by
  cases i with
  | tbld => exact complete_untouched t
  | merge => exact setPhase_untouched t .tail
  | gallop co => exact .of_work rfl rfl rfl rfl rfl
  | qfV2 co => exact enterQfV2_untouched h hi hj
  | qfB4 co => exact setPhase_untouched t .vec
  | shuf4 => exact setPhase_untouched t .vec
  | shuf8 => exact setPhase_untouched t .vec
  | shuf256 => exact setPhase_untouched t .vec

theorem launchStep_untouched (h : EmptyInput i q t) (hi : t.work.i = 0) (hj : t.work.j = 0) :
    Untouched t (launchStep t) := by
  unfold launchStep
  simp only [h.command, h.profile, h.checks, gate]
  split
  · exact setPhase_untouched t .tbuild
  · exact dispatch_untouched h hi hj

theorem buildStep_untouched (h : EmptyInput i q t) (hi : t.work.i = 0) (hj : t.work.j = 0) :
    Untouched t (buildStep t) := by
  unfold buildStep
  simp only [h.command]
  have hbuild := buildTables_untouched t
  exact hbuild.trans (dispatch_untouched (hbuild.emptyInput h) hi hj)

/-- With an empty set no kernel has a block to iterate on: it hands over to the tail (R196). -/
theorem vecStep_untouched (h : t.na = 0 ∨ t.nb = 0) : Untouched t (vecStep t) := by
  have htail := setPhase_untouched t .tail
  have hguard (W : Nat) : ¬ (t.work.i < fullTo W t.na ∧ t.work.j < fullTo W t.nb) := by
    have ha := fullTo_le W t.na
    have hb := fullTo_le W t.nb
    omega
  unfold vecStep
  split
  · exact htail
  · exact htail
  · exact htail
  · rw [vecGallop, if_neg (by unfold nblk; omega)]
    exact .of_work rfl rfl rfl rfl rfl
  · rw [vecQfB4, if_neg (hguard 4)]; exact htail
  · rw [vecQfV2, if_neg (hguard 4)]; exact htail
  · rw [vecShuf4, if_neg (hguard 4)]; exact htail
  · rw [vecShuf8, if_neg (hguard 8)]; exact htail
  · rw [vecShuf256, if_neg (hguard 8)]; exact htail

/-- The tail completes at once, its guard being false (R121, R136). -/
theorem tailStep_untouched (h : t.na = 0 ∨ t.nb = 0) : Untouched t (settle (tailIter t)) := by
  rw [tailIter, if_neg (by omega)]
  exact complete_untouched t

theorem engineStep_untouched (h : EmptyInput i q t) (hc : CursorsBounded t) : Untouched t (engineStep t) := by
  have hnote {u : State} (hu : Untouched t u) : Untouched t (noteIrq u) :=
    noteIrq_lift (fun _ _ hu => hu.setHost _) hu
  unfold engineStep
  cases hp : t.phase with
  | idle => exact .refl t
  | launch =>
    obtain ⟨hi, hj, -⟩ := hc.start (.inl hp)
    exact hnote (launchStep_untouched h hi hj)
  | tbuild =>
    obtain ⟨hi, hj, -⟩ := hc.start (.inr hp)
    exact hnote (buildStep_untouched h hi hj)
  | vec => exact hnote (vecStep_untouched h.empty)
  | tail => exact hnote (tailStep_untouched h.empty)

/-- The launch changes none of what the steps rest on. -/
theorem Launchable.emptyInput (h : Launchable i q s) (hempty : s.na = 0 ∨ s.nb = 0) :
    EmptyInput i q (launch (encode i) s) :=
  ⟨decode_encode i, h.profile, h.checks, h.answers.a, h.answers.b, hempty⟩

theorem launch_bounded (v : Reg64) (s : State) : CursorsBounded (launch v s) :=
  ⟨fun _ => ⟨rfl, rfl, rfl⟩, fun h => (by rcases h with h | h <;> cases h), fun h => (by cases h)⟩

/-- With an empty set a launched command stores and counts nothing, from the launch to its end (R136). -/
theorem runWord_untouched (h : Launchable i q s) (hempty : s.na = 0 ∨ s.nb = 0) :
    Untouched (launch (encode i) s) (runWord (encode i) s) := by
  have hrun := runWord_induct (P := fun t => CursorsBounded t ∧ Untouched (launch (encode i) s) t) h.idle
    ⟨launch_bounded _ s, .refl _⟩
    (fun t _ ⟨hc, ht⟩ =>
      ⟨engineStep_bounded hc, ht.trans (engineStep_untouched (ht.emptyInput (h.emptyInput hempty)) hc)⟩)
    fun t w ⟨hc, ht⟩ => ⟨hc.setHost w, ht.setHost w⟩
  exact hrun.2

end

/-- Settles O42: a run that takes no fault ends in a completion, and COUNT is what the launch has left counted. -/
theorem emptySetsGiveCountZero : Obligations.EmptySetsGiveCountZero := by
  intro i q s hlaunch hempty
  obtain ⟨hregs, -, hmem, -, hc⟩ := runWord_untouched hlaunch hempty
  obtain ⟨u, r, -, hrun, hr, -⟩ := runWord_outcome (encode i) hlaunch.idle
  have hfault : (runWord (encode i) s).regs.fault = false := by rw [hregs]; rfl
  refine ⟨_, exec_eq i s, ?_⟩
  rw [hrun] at hfault hmem hc ⊢
  rcases hr with rfl | ⟨f, p, rfl⟩
  · exact ⟨rfl, rfl, hfault, congrArg (BitVec.ofNat 64) hc, hmem⟩
  · cases hfault

end Sys2Proof.Machine
end

section
/-! The vector primitives (spec/41_vector_primitives.md): the alignments set each pair of lanes against each other exactly once
(R147), and the compaction stores fill the output slots they count and no others (R152, R153). -/

-- Elaborated one at a time: the package as one text would otherwise hold a thread and its stack for many theorems at once.
set_option Elab.async false

namespace Sys2Proof.Machine

/-! ### Alignments -/

/-- A block `Y₀` whose lanes hold their own numbers tells the lanes apart. -/
theorem forall_lane_eq_iff {V : Type} {lane : V → Nat → Elem} {Y₀ : V} {n k u : Nat} (hn : n ≤ 2 ^ 32)
    (hlane : ∀ l, l < n → lane Y₀ l = BitVec.ofNat 32 l) (hk : k < n) (hu : u < n) :
    (∀ Y, lane Y k = lane Y u) ↔ k = u := by
  refine ⟨fun h => ?_, fun h Y => by rw [h]⟩
  have hnumber := congrArg BitVec.toNat (h Y₀)
  rw [hlane k hk, hlane u hu, BitVec.toNat_ofNat, BitVec.toNat_ofNat] at hnumber
  omega

/-- The formula of R147 inverts `alignedLane`: the half tells `t / 4`, the lane within it `t % 4`. -/
theorem alignedLane_eq_iff {l u t : Nat} (hl : l < 8) (hu : u < 8) (ht : t < 8) :
    alignedLane l t = u ↔ t = 4 * (if l / 4 ≠ u / 4 then 1 else 0) + (u + 8 - l) % 4 := by
  unfold alignedLane
  split <;> split <;> omega

/-- Settles O24: only lane `u` agrees with lane `u` in every block, and `alignedLane` is the lane set against `l`. -/
theorem alignmentsMeetEachPairOnce : Obligations.AlignmentsMeetEachPairOnce := by
  refine ⟨fun l u t hl hu ht => ?_, fun l u r hl hu hr => ?_⟩
  · simp only [lane8_align8 _ t l hl]
    rw [forall_lane_eq_iff (by decide) (lane8_ofLanes8 _) (alignedLane_lt l t) hu, alignedLane_eq_iff hl hu ht]
  · simp only [lane4_rot4 _ r l hl]
    rw [forall_lane_eq_iff (by decide) (lane4_ofLanes4 _) (Nat.mod_lt _ (by omega)) hu]
    omega

/-! ### Compaction stores -/

/-- `x`, made in `s`, stores the `n` elements `es` from `OUT[c]` on and counts them: what it answers in count-only mode, where
the slots are writable, and where they are not (R62, R66, R152). -/
structure FillsSlots (s : State) (es : List Elem) (n : Nat) (x : Except Raised State) : Prop where
  countOnly : s.work.co = true → x = .ok (s.setWork { s.work with c := s.work.c + n })
  stored : s.work.co = false → OnRegion ⟨outSlot s, 4 * n⟩ s.port.writable →
    ∃ t, x = .ok t ∧ setOf t.mem (outSlot s) n = es ∧ t.work = { s.work with c := s.work.c + n } ∧ t.regs = s.regs ∧
      t.phase = s.phase ∧ ∀ p : Addr, Region.has ⟨outSlot s, 4 * n⟩ p = false →
        Memory.read t.mem p.toNat = Memory.read s.mem p.toNat
  refused : s.work.co = false → ¬ OnRegion ⟨outSlot s, 4 * n⟩ s.port.writable → x = .error ⟨.busWrite, outSlot s, s⟩

/-- No element fills no slot: an empty region is writable. -/
theorem FillsSlots.nil (s : State) : FillsSlots s [] 0 (.ok s) where
  countOnly _ := rfl
  stored _ _ := ⟨s, rfl, rfl, rfl, rfl, rfl, fun _ _ => rfl⟩
  refused _ h := absurd ((onRegion_iff (Nat.zero_le _)).2 rfl) h

theorem emitElems_fillsSlots (s : State) {es : List Elem} (hl : 4 * es.length ≤ 2 ^ 64) :
    FillsSlots s es es.length (emitElems es s) := by
  obtain ⟨hcount, hstore, hrefuse⟩ := emitElems_spec s es hl
  have hregion := onRegion_iff (g := ⟨outSlot s, 4 * es.length⟩) (ok := s.port.writable) hl
  refine ⟨hcount, fun hco hw => ?_, fun hco hw => hrefuse hco (Bool.eq_false_iff.2 (mt hregion.2 hw))⟩
  obtain ⟨t, ht, hset, hwork, hregs, hphase, -, hmem⟩ := hstore hco (hregion.1 hw)
  exact ⟨t, ht, hset, hwork, hregs, hphase, fun p hp => hmem p (not_lt.1 (of_decide_eq_false hp))⟩

/-- The form both compaction stores take once the tables are built: nothing is made where no lane is kept. -/
theorem compaction_fillsSlots (s : State) (es : List Elem) (hl : 4 * es.length ≤ 2 ^ 64) :
    FillsSlots s es es.length (if es = [] then .ok s else emitElems es s) := by
  split
  · rename_i hnil
    subst hnil
    exact .nil s
  · exact emitElems_fillsSlots s hl

/-- The lanes kept at the set bits of a mask: as many as its popcount. -/
theorem keptLanes_fillsSlots (s : State) {n : Nat} (m : BitVec n) (lane : Nat → Elem) (hn : n ≤ 8) :
    FillsSlots s ((setBits m).map lane) (popcount m)
      (if (setBits m).map lane = [] then .ok s else emitElems ((setBits m).map lane) s) := by
  have hlen : ((setBits m).map lane).length = popcount m := List.length_map _
  have hle := popcount_le m
  exact hlen ▸ compaction_fillsSlots s ((setBits m).map lane) (by omega)

/-- Settles O30: SHUF4T brings the kept lanes to the front, and they are emitted as one access. -/
theorem compactStore4FillsItsSlots : Obligations.CompactStore4FillsItsSlots := by
  intro X m s hv
  obtain ⟨hcount, hstored, hrefused⟩ := keptLanes_fillsSlots s m (lane4 X) (by omega)
  rw [compactStore4_eq X m hv]
  exact ⟨hcount, hstored, hrefused⟩

/-- Settles O31: PERM8T brings the kept lanes to the front, and they are emitted as one access. -/
theorem compactStore8FillsItsSlots : Obligations.CompactStore8FillsItsSlots := by
  intro Y m s hv
  obtain ⟨hcount, hstored, hrefused⟩ := keptLanes_fillsSlots s m (lane8 Y) le_rfl
  rw [compactStore8_eq Y m hv]
  exact ⟨hcount, hstored, hrefused⟩

end Sys2Proof.Machine
end

section
/-! The lookup tables (spec/42_lookup_tables.md): what their entries guarantee (R181), and the whole run of TBLD as one equation
on the state (R173, R174). -/

-- Elaborated one at a time: the package as one text would otherwise hold a thread and its stack for many theorems at once.
set_option Elab.async false

namespace Sys2Proof.Machine

/-! ### The entries -/

/-- Settles O27: the compaction entries name the set lanes in order, and an unambiguous verdict accounts for every set bit. -/
theorem tablesHaveTheirProperties : Obligations.TablesHaveTheirProperties :=
  ⟨take_pshufb_shuf4T, take_permute8_perm8T, fun _ => nct_noMatch,
    fun _ _ _ _ hi hu hsingle hbit => nct_single_sound hsingle hi hu hbit⟩

/-! ### The builder -/

/-- With the tables valid there is nothing to build (R174). -/
theorem buildTables_of_valid {s : State} (hv : s.regs.tblValid = true) : buildTables s = s := by
  rw [buildTables, ← hv]
  rfl

/-- TBLD past its launch skips the build or makes it in a step of its own, and completes with the gate open either way
(R173). -/
theorem runToIdle_tbld (n : Nat) {l : State} (hp : l.phase = .launch) (hcmd : decode l.regs.cmd = .ok .tbld) :
    runToIdle (n + 2) l = noteIrq (complete (buildTables l)) := by
  have hbusy : l.busy = true := busy_iff.2 (by rw [hp]; decide)
  have hlaunch : engineStep l = noteIrq (gate true .tbld l) := by
    rw [engineStep, hp, launchStep, hcmd]
    rfl
  cases hv : l.regs.tblValid with
  | true =>
    have hstep : engineStep l = noteIrq (complete l) := by
      rw [hlaunch, gate, hv]
      rfl
    rw [runToIdle_one hbusy (by rw [hstep, noteIrq_phase]; rfl), hstep, buildTables_of_valid hv]
  | false =>
    have hstep : engineStep l = l.setPhase .tbuild := by
      rw [hlaunch, gate, hv]
      exact noteIrq_of_busy rfl
    have hbuild : engineStep (l.setPhase .tbuild) = noteIrq (complete (buildTables l)) := by
      rw [engineStep, State.setPhase_phase, buildStep, State.setPhase_regs, hcmd]
      rfl
    rw [runToIdle_succ _ hbusy, hstep, runToIdle_one rfl (by rw [hbuild, noteIrq_phase]; rfl), hbuild]

/-- TBLD run on an idle engine is its launch, the build and the completion, which WAIT observes. -/
theorem runWord_tbld {s : State} (hidle : s.phase = .idle) : runWord (encode .tbld) s =
    (complete (buildTables (launch (encode .tbld) s))).setHost { s.host with unseen := [] } := by
  have hrun := runToIdle_tbld (l := launch (encode .tbld) s) (s.na + s.nb + 6) rfl (decode_encode .tbld)
  calc runWord (encode .tbld) s
      = observe (runToIdle (engineFuel (launch (encode .tbld) s)) (launch (encode .tbld) s)) := by
        rw [runWord, hostWrite_launch _ hidle]
    _ = observe (noteIrq (complete (buildTables (launch (encode .tbld) s)))) := congrArg observe hrun
    _ = _ := observe_noteIrq_end (.inl rfl)

/-- Settles O41: the launch clears status and running count, the build opens the gate, the completion records both. -/
theorem tbldBuildsAndCompletes : Obligations.TbldBuildsAndCompletes := by
  intro s hidle
  refine ⟨_, exec_eq .tbld s, ?_⟩
  rw [runWord_tbld hidle]
  exact ⟨rfl, rfl, rfl, rfl, rfl⟩

end Sys2Proof.Machine
end

section
/-! The scalar merge (spec/43_scalar_merge.md): where one iteration whose accesses answer goes, by the order of the two
elements (R192). -/

-- Elaborated one at a time: the package as one text would otherwise hold a thread and its stack for many theorems at once.
set_option Elab.async false

namespace Sys2Proof.Machine

/-! ### The accesses of an iteration -/

/-- A read of an element whose four bytes answer (R61, R66). -/
theorem readElem_answered {s : State} {p : Addr} (h : OnRegion ⟨p, 4⟩ s.port.readable) :
    readElem s p = .ok (Memory.elem s.mem p) :=
  readElem_eq ((onRegion_iff (g := ⟨p, 4⟩) (show 4 ≤ 2 ^ 64 by decide)).1 h)

/-- An element emitted where no store is made or its slot is writable (R62, R122). -/
theorem emit_answered {s : State} {e : Elem} (hw : s.work.co = false → OnRegion ⟨outSlot s, 4⟩ s.port.writable) :
    ∃ t, emit e s = .ok t ∧ t.work = { s.work with c := s.work.c + 1 } ∧ t.regs = s.regs ∧ t.phase = s.phase ∧
      (s.work.co = false → Memory.elem t.mem (outSlot s) = e ∧ ∀ p : Addr, Region.has ⟨outSlot s, 4⟩ p = false →
        Memory.read t.mem p.toNat = Memory.read s.mem p.toNat) ∧
      (s.work.co = true → t.mem = s.mem) := by
  obtain ⟨hcount, hstore, -⟩ := emitElems_fillsSlots s (es := [e]) (by simp)
  cases hco : s.work.co with
  | true => exact ⟨_, hcount hco, rfl, rfl, rfl, nofun, fun _ => rfl⟩
  | false =>
    obtain ⟨t, ht, hset, hwork, hregs, hphase, hframe⟩ := hstore hco (hw hco)
    have helem : Memory.elem t.mem (eltAddr (outSlot s) 0) = e := (List.cons.inj hset).1
    rw [outSlot, eltAddr_add] at helem
    exact ⟨t, ht, hwork, hregs, hphase, fun _ => ⟨helem, hframe⟩, nofun⟩

/-! ### The branches of an iteration -/

section

variable {s : State} {a b : Elem} (ha : readA s s.work.i = .ok a) (hb : readB s s.work.j = .ok b)

include ha hb

theorem mergeBody_of_eq {t : State} (h : a = b) (ht : emit a s = .ok t) :
    mergeBody s = .ok (t.setWork { t.work with i := t.work.i + 1, j := t.work.j + 1 }) := by
  simp only [mergeBody, ha, hb, bind, Except.bind, if_pos h, ht]

theorem mergeBody_of_lt (h : a.toNat < b.toNat) :
    mergeBody s = .ok (s.setWork { s.work with i := s.work.i + 1 }) := by
  have hne : a ≠ b := by rintro rfl; exact lt_irrefl _ h
  simp only [mergeBody, ha, hb, bind, Except.bind, if_neg hne, if_pos h]

theorem mergeBody_of_gt (h : b.toNat < a.toNat) :
    mergeBody s = .ok (s.setWork { s.work with j := s.work.j + 1 }) := by
  have hne : a ≠ b := by rintro rfl; exact lt_irrefl _ h
  simp only [mergeBody, ha, hb, bind, Except.bind, if_neg hne, if_neg h.not_gt]

end

/-- With no line pending, a step in TAIL whose guard holds is one iteration of the merge loop; it stays in TAIL. -/
theorem step_of_mergeBody {s t : State} (hphase : s.phase = .tail) (hscript : s.host.script = []) (hi : s.work.i < s.na)
    (hj : s.work.j < s.nb) (h : mergeBody s = .ok t) : step s = .next t ∧ t.phase = .tail := by
  have htail : t.phase = .tail := (mergeBody_ok h).1.trans hphase
  have hbusy : t.busy = true := busy_iff.2 (by rw [htail]; decide)
  have hengine : engineStep s = t := by
    rw [engineStep, hphase, tailIter, if_pos ⟨hi, hj⟩, h]
    exact noteIrq_of_busy hbusy
  rw [step, hscript, hengine]
  exact ⟨rfl, htail⟩

/-- Settles O32: the two elements read are equal or one of them is the smaller, and each case is a branch of the body. -/
theorem mergeIterationFollowsTheSmaller : Obligations.MergeIterationFollowsTheSmaller := by
  intro s hphase hscript hi hj hreadA hreadB hwrite
  have ha : readA s s.work.i = .ok _ := readElem_answered hreadA
  have hb : readB s s.work.j = .ok _ := readElem_answered hreadB
  have hstep {t : State} := step_of_mergeBody (t := t) hphase hscript hi hj
  generalize Memory.elem s.mem (eltAddr s.regs.aBase s.work.i) = a at *
  generalize Memory.elem s.mem (eltAddr s.regs.bBase s.work.j) = b at *
  rcases lt_trichotomy a.toNat b.toNat with hlt | heq | hgt
  · obtain ⟨hnext, htail⟩ := hstep (mergeBody_of_lt ha hb hlt)
    exact ⟨_, hnext, htail, rfl, fun h => absurd (congrArg BitVec.toNat h) hlt.ne, fun _ => ⟨rfl, rfl⟩,
      fun h => absurd h hlt.not_gt⟩
  · have hab : a = b := BitVec.eq_of_toNat_eq heq
    obtain ⟨t, hemit, hwork, hregs, -, hstored, hcounted⟩ := emit_answered (e := a) (hwrite hab)
    obtain ⟨hnext, htail⟩ := hstep (mergeBody_of_eq ha hb hab hemit)
    refine ⟨_, hnext, htail, hregs, fun _ => ⟨?_, hstored, hcounted⟩, fun h => absurd heq h.ne, fun h => absurd heq h.ne'⟩
    rw [State.setWork_work, hwork]
  · obtain ⟨hnext, htail⟩ := hstep (mergeBody_of_gt ha hb hgt)
    exact ⟨_, hnext, htail, rfl, fun h => absurd (congrArg BitVec.toNat h) hgt.ne', fun h => absurd h hgt.not_gt,
      fun _ => ⟨rfl, rfl⟩⟩

end Sys2Proof.Machine
end

section
/-! The searches of GALLOP (spec/44_galloping.md): the two inner loops end by their own tests (R207), and what an iteration that
meets no fault has found (R202, R205). -/

-- Elaborated one at a time: the package as one text would otherwise hold a thread and its stack for many theorems at once.
set_option Elab.async false

namespace Sys2Proof.Machine

/-! ### What holds of an answer, whatever the faults -/

theorem yields_of_ok {α : Type} {P : α → Prop} {x : Except Raised α} (h : ∀ a, x = .ok a → P a) :
    Yields (fun _ => True) P x := by
  cases x with
  | error e => trivial
  | ok a => exact h a rfl

theorem Yields.of_eq_ok {α : Type} {R : Raised → Prop} {P : α → Prop} {x : Except Raised α} {a : α} (hx : Yields R P x)
    (h : x = .ok a) : P a := by
  subst h
  exact hx

/-- A full block's maximum, where its read answers (R200). -/
theorem bmax_ok {s : State} {n : Nat} {e : Elem} (h : bmax s n = .ok e) : e = elemB s (4 * n + 3) := readElem_ok h

theorem nblk_lt (s : State) : nblk s < 2 ^ 30 := by
  have : s.nb < 2 ^ 32 := s.regs.bLen.isLt
  unfold nblk
  omega

/-! ### The inner loops end by their own tests (R207) -/

section

variable {s : State} {k : Nat} {a : Elem}

/-- From a power of two the doubling loop stops at a power of two, and with enough fuel only at the end of the full blocks or
at a maximum it has read. -/
theorem doubling_stops {fuel e : Nat} (hfuel : nblk s ≤ 2 ^ (e + fuel)) :
    Yields (fun _ => True) (fun r => (∃ e', r = 2 ^ e') ∧
      (k + r < nblk s → ∃ b, bmax s (k + r) = .ok b ∧ a.toNat ≤ b.toNat)) (doubling s k a fuel (2 ^ e)) := by
  induction fuel generalizing e with
  | zero => exact ⟨⟨e, rfl⟩, fun h => by rw [Nat.add_zero] at hfuel; omega⟩
  | succ n ih =>
    unfold doubling
    split
    · refine (yields_of_ok fun b hb => hb).bind fun b (hb : bmax s _ = .ok b) => ?_
      split
      · rw [← pow_succ']
        exact ih (by rwa [Nat.succ_add_eq_add_succ])
      · rename_i hge
        exact ⟨⟨e, rfl⟩, fun _ => ⟨b, hb, not_lt.1 hge⟩⟩
    · rename_i hk
      exact ⟨⟨e, rfl⟩, fun h => absurd h hk⟩

/-- The exponent of the step size is at most 30: a step past the first is twice one that still named a full block. -/
theorem doubling_exponent_le {fuel e : Nat} (h : doubling s k a fuel 1 = .ok (2 ^ e)) : e ≤ 30 := by
  have hblocks := nblk_lt s
  by_contra hlt
  have hpow : 2 ^ 31 ≤ 2 ^ e := Nat.pow_le_pow_right (by decide) (not_le.1 hlt)
  rcases doubling_half h with hone | hhalf <;> omega

/-- The bisection halves the distance of its bounds, so with enough fuel they meet. -/
theorem bisect_meets {fuel lower upper mid : Nat} (hle : lower ≤ upper) (hfuel : upper - lower < 2 ^ fuel) :
    Yields (fun _ => True) (fun p => p.1 = p.2.1) (bisect s k a fuel lower upper mid) := by
  induction fuel generalizing lower upper mid with
  | zero =>
    rw [pow_zero] at hfuel
    exact show lower = upper by omega
  | succ n ih =>
    rw [pow_succ] at hfuel
    unfold bisect
    split
    · refine (yields_of_ok fun _ _ => trivial).bind (P := fun _ => True) fun b _ => ?_
      split
      · exact ih (by omega) (by omega)
      · exact ih (by omega) (by omega)
    · exact show lower = upper by omega

end

/-- Settles O33: fuel 32 is more than the 30 doublings below `nblk < 2^30` and the 31 halvings of `2^30` need. -/
theorem gallopSearchEndsByItsTests : Obligations.GallopSearchEndsByItsTests := by
  intro s k a
  refine ⟨fun r hr => ?_, fun lower upper mid p hle hup hp => ?_⟩
  · have hfuel : nblk s ≤ 2 ^ (0 + searchFuel) := (nblk_lt s).le.trans (by decide)
    obtain ⟨⟨e, rfl⟩, hstop⟩ := (doubling_stops (e := 0) hfuel).of_eq_ok hr
    exact ⟨⟨e, doubling_exponent_le hr, rfl⟩, hstop⟩
  · exact (bisect_meets hle (by rw [searchFuel]; omega)).of_eq_ok hp

/-! ### The block an iteration finds (R202, R205) -/

/-- How an iteration of GALLOP that meets no fault ends: it breaks, the last full block's maximum being below the element, or
goes on at the leftmost block that reaches the element. -/
inductive Searched (s t : State) : Prop
  | broke (phase : t.phase = .tail) (block : t.work.k = s.work.k)
      (below : (elemB s (4 * (nblk s - 1) + 3)).toNat < (elemA s s.work.i).toNat)
  | found (phase : t.phase = s.phase) (forward : s.work.k ≤ t.work.k)
      (leftmost : Leftmost (fun n => elemB s (4 * n + 3)) (nblk s) s.work.k (elemA s s.work.i) t.work.k)

theorem gallopBody_searched {s : State} (hasc : Ascending (setB s)) (hk : s.work.k < nblk s) :
    Yields (fun _ => True) (Searched s) (gallopBody s) := by
  have hrising : Rising (elemB s) s.nb := rising_of_ascending hasc
  have hread : ∀ n, n < nblk s → Yields (fun _ => True) (fun e => e = elemB s (4 * n + 3)) (bmax s n) :=
    fun n _ => yields_of_ok fun _ => bmax_ok
  have hmono : ∀ m n, m ≤ n → n < nblk s → (elemB s (4 * m + 3)).toNat ≤ (elemB s (4 * n + 3)).toNat :=
    fun m n hmn hn => hrising.le (by omega) (by unfold nblk at hn; omega)
  have hblocks := nblk_lt s
  refine (yields_of_ok fun a ha => readElem_ok ha).bind fun a (ha : a = elemA s s.work.i) => ?_
  subst ha
  refine (doubling_yields (B := fun n => elemB s (4 * n + 3)) hread (.inl rfl)
    (by rw [searchFuel]; omega)).bind fun r ⟨hhalf, hreached⟩ => ?_
  generalize hup : (if s.work.k + r < nblk s then r else nblk s - 1 - s.work.k) = upper
  obtain ⟨hupper, hhalf_le, hlast⟩ : s.work.k + upper < nblk s ∧ r / 2 ≤ upper ∧
      (upper = r ∨ s.work.k + upper = nblk s - 1) := by
    rw [← hup]
    rcases hhalf with rfl | ⟨hhalf, -⟩ <;> split <;> omega
  refine (hread _ hupper).bind fun last hmax => ?_
  subst hmax
  split
  · rename_i hbelow
    rcases hlast with rfl | hend
    · exact absurd hbelow (hreached hupper).not_gt
    · exact .broke rfl rfl (hend ▸ hbelow)
  · rename_i hreach
    refine (bisect_yields hread hmono hhalf_le hupper (not_lt.1 hreach) (fun n _ hlt => ?_)
      (by rw [searchFuel]; omega)).bind fun found hfound => yields_of_ok fun t ht => ?_
    · rcases hhalf with rfl | ⟨hhalf, hbelow⟩
      · omega
      · exact (hmono n _ hlt.le hhalf).trans_lt hbelow
    · obtain ⟨hphase, -, -, hblock, -⟩ := probe_ok ht
      exact .found hphase (hblock ▸ Nat.le_add_right _ _) (hblock ▸ hfound)

/-- Settles O34: the doubling stops only past the element or past B, so the break test fails below B's last full block; and the
bisection keeps the leftmost block that reaches the element between its bounds. -/
theorem gallopFindsTheLeftmostBlock : Obligations.GallopFindsTheLeftmostBlock := by
  intro s t hvec hasc hk ht
  rcases (gallopBody_searched hasc hk).of_eq_ok ht with ⟨hphase, hblock, hbelow⟩ | ⟨hphase, hforward, hleft⟩
  · exact .inl ⟨hphase, hblock, hbelow⟩
  · exact .inr ⟨hphase.trans hvec, hforward, hleft.block, hleft.reaches, hleft.before⟩

end Sys2Proof.Machine
end

section
/-! The pre-filter of the QFilter kernels (spec/45_qfilter.md): what a stage's mask and the classification say of a pair of
blocks (R216, R222), and which vector registers an iteration of QF_V2 loads again (R228, R229). -/

-- Elaborated one at a time: the package as one text would otherwise hold a thread and its stack for many theorems at once.
set_option Elab.async false

namespace Sys2Proof.Machine

/-! ### The classification -/

/-- The class of an element at stage `s` is a bit field of it, and zero-extension loses nothing of the field (R216). -/
theorem byteOf_and_lowNibble_eq_iff {e f : Elem} {s : Nat} :
    byteOf e s &&& 0x0F = byteOf f s &&& 0x0F ↔ e.extractLsb' (8 * s) 4 = f.extractLsb' (8 * s) 4 := by
  have hclass (e : Elem) : byteOf e s &&& 0x0F = (e.extractLsb' (8 * s) 4).setWidth 8 := by
    apply BitVec.eq_of_getLsbD_eq
    intro k hk
    simp only [byteOf, BitVec.getLsbD_and, BitVec.getLsbD_setWidth, BitVec.getLsbD_extractLsb']
    interval_cases k <;> simp
  rw [hclass, hclass]
  refine ⟨fun h => ?_, fun h => by rw [h]⟩
  simpa using congrArg (BitVec.setWidth 4) h

/-- Settles O28: the stage compares the low nibbles of byte `s`, which are the fields named. -/
theorem stageMaskComparesNibbles : Obligations.StageMaskComparesNibbles := by
  intro VA VB s i u hs hi hu
  rw [stageMask_getLsbD VA VB s i u hs hi hu, beq_iff_eq, byteOf_and_lowNibble_eq_iff]

/-- Settles O29: every stage's mask covers the pairs of equal lanes, so the verdict does not lose one. -/
theorem preFilterMatchesExhaustively : Obligations.PreFilterMatchesExhaustively := qfMatch_eq_rotMatch4

/-! ### The reloads of QF_V2 -/

/-- A 16-byte load that answers is the block in memory (R141). -/
theorem loadV4_ok {s : State} {base : Addr} {x : Nat} {v : V128} (h : loadV4 s base x = .ok v) :
    v = memLanes4 s.mem base x := by
  unfold loadV4 at h
  cases hc : checkRead s (eltAddr base x) 16 with
  | error e => rw [hc] at h; cases h
  | ok u => rw [hc] at h; cases h; rfl

/-- What a side's register holds after the reload of R228: `old` where its cursor `x` has not moved from `y`, and the block at
the new cursor, as memory is in `t`, where it has moved to below the padded length `pad` (R229). -/
structure Reloaded (t : State) (base : Addr) (pad y x : Nat) (old v : V128) : Prop where
  kept : x = y → v = old
  loaded : x ≠ y → x < pad → v = memLanes4 t.mem base x

/-- The reload of either side: `f v` is the state with `v` in the side's register. -/
theorem reload_if_moved {t u : State} {base : Addr} {pad x y : Nat} {old : V128} {f : V128 → State} (hkeep : f old = t)
    (h : (if x ≠ y then if x < pad then loadV4 t base x >>= fun v => .ok (f v) else .ok t else .ok t) = Except.ok u) :
    ∃ v, u = f v ∧ Reloaded t base pad y x old v := by
  split at h
  · rename_i hmoved
    obtain ⟨v, hu, hv⟩ := (Yields.load_if (fun _ => yields_of_ok fun _ => loadV4_ok) hkeep).of_eq_ok h
    exact ⟨v, hu, fun e => absurd e hmoved, fun _ => hv⟩
  · rename_i hstay
    cases h
    exact ⟨old, hkeep.symm, fun _ => rfl, fun hmoved => absurd hmoved hstay⟩

theorem reloadMovedA_reloads {s t u : State} (h : reloadMovedA s t = .ok u) :
    ∃ va, u = t.setWork { t.work with va := va } ∧
      Reloaded t t.regs.aBase (padTo 4 t.na) s.work.i t.work.i t.work.va va :=
  reload_if_moved (f := fun va => t.setWork { t.work with va := va }) rfl h

theorem reloadMovedB_reloads {s t u : State} (h : reloadMovedB s t = .ok u) :
    ∃ vb, u = t.setWork { t.work with vb := vb } ∧
      Reloaded t t.regs.bBase (padTo 4 t.nb) s.work.j t.work.j t.work.vb vb :=
  reload_if_moved (f := fun vb => t.setWork { t.work with vb := vb }) rfl h

/-- What an iteration of QF_V2 that meets no fault leaves in the two vector registers. -/
theorem bodyQfV2_reloads (s : State) : Yields (fun _ => True) (fun t =>
    Reloaded t s.regs.aBase (padTo 4 s.na) s.work.i t.work.i s.work.va t.work.va ∧
      Reloaded t s.regs.bBase (padTo 4 s.nb) s.work.j t.work.j s.work.vb t.work.vb) (bodyQfV2 s) := by
  refine (yields_of_ok fun u hu => hu).bind fun u (hu : filterBlocks s = .ok u) => ?_
  have hregs : u.regs = s.regs := ((filterBlocks_applies s).1 u hu).regs
  obtain ⟨hva, hvb⟩ := filterBlocks_keeps hu
  refine (yields_of_ok fun v => reloadMovedA_reloads).bind fun v hv => yields_of_ok fun t ht => ?_
  obtain ⟨va, rfl, hA⟩ := hv
  obtain ⟨vb, rfl, hB⟩ := reloadMovedB_reloads ht
  rw [State.na, State.nb, ← hregs, ← hva, ← hvb]
  exact ⟨⟨hA.kept, hA.loaded⟩, hB.kept, hB.loaded⟩

/-- Settles O35: neither the store nor the advance touches the vector registers, and a reload follows the moved cursor alone. -/
theorem qfV2ReloadsOnlyTheMovedSide : Obligations.QfV2ReloadsOnlyTheMovedSide := by
  intro s t ht
  obtain ⟨hA, hB⟩ := (bodyQfV2_reloads s).of_eq_ok ht
  exact ⟨hA.kept, hA.loaded, hB.kept, hB.loaded⟩

end Sys2Proof.Machine
end

section
/-! The rotated comparisons of the shuffling kernels (spec/46_shuffling.md): what the comparison of a pair of blocks marks
(R241), and the wide comparison as four of them, one for each pair of halves (R257, R258). -/

-- Elaborated one at a time: the package as one text would otherwise hold a thread and its stack for many theorems at once.
set_option Elab.async false

namespace Sys2Proof.Machine

/-- Settles O25: the four rotations set lane `l` against each lane of the other block. -/
theorem rotatedCompareFindsEveryMatch : Obligations.RotatedCompareFindsEveryMatch := rotMatch4_getLsbD

/-- A lane of the low half is that lane of the wide block. -/
theorem lane8_of_lt {Y : V256} {l : Nat} (h : l < 4) : lane8 Y l = lane4 Y.lo l := if_pos h

/-- A lane of the high half stands four lanes up in the wide block. -/
theorem lane8_of_ge {Y : V256} {l : Nat} (h : 4 ≤ l) : lane8 Y l = lane4 Y.hi (l - 4) := if_neg (Nat.not_lt.2 h)

/-- An element of a wide block is an element of one of its halves. -/
theorem exists_lane8_iff {p : Elem → Prop} {Y : V256} :
    (∃ u, u < 8 ∧ p (lane8 Y u)) ↔ (∃ u, u < 4 ∧ p (lane4 Y.lo u)) ∨ ∃ u, u < 4 ∧ p (lane4 Y.hi u) := by
  constructor
  · rintro ⟨u, hu, h⟩
    rcases Nat.lt_or_ge u 4 with hlow | hhigh
    · exact .inl ⟨u, hlow, lane8_of_lt hlow ▸ h⟩
    · exact .inr ⟨u - 4, by omega, lane8_of_ge hhigh ▸ h⟩
  · rintro (⟨u, hu, h⟩ | ⟨u, hu, h⟩)
    · exact ⟨u, by omega, (lane8_of_lt hu).symm ▸ h⟩
    · exact ⟨u + 4, by omega, (lane8_of_ge (Nat.le_add_left 4 u)).symm ▸ h⟩

/-- The comparisons of a block with both halves of a wide block mark the lanes that have a partner anywhere in it (R258). -/
theorem rotMatch4_or_getLsbD (X : V128) (Y : V256) {l : Nat} (hl : l < 4) :
    (rotMatch4 X Y.lo ||| rotMatch4 X Y.hi).getLsbD l = true ↔ ∃ u, u < 8 ∧ lane4 X l = lane8 Y u := by
  rw [BitVec.getLsbD_or, Bool.or_eq_true, rotMatch4_getLsbD _ _ _ hl, rotMatch4_getLsbD _ _ _ hl, exists_lane8_iff]

/-- Settles O26: both masks mark the lanes that have a partner in the other wide block; the low half's bits come from `m0`, the
high half's from `m1`. -/
theorem wideCompareIsFourBlockCompares : Obligations.WideCompareIsFourBlockCompares := by
  intro a0 a1 b0 b1
  apply BitVec.eq_of_getLsbD_eq
  intro l hl
  rw [Bool.eq_iff_iff, alignMatch8_getLsbD _ _ _ hl, BitVec.getLsbD_append]
  split
  · rename_i hlow
    rw [rotMatch4_or_getLsbD a0 ⟨b0, b1⟩ hlow, lane8_of_lt hlow]
  · rename_i hhigh
    rw [rotMatch4_or_getLsbD a1 ⟨b0, b1⟩ (by omega), lane8_of_ge (Nat.not_lt.1 hhigh)]

end Sys2Proof.Machine
end

section
/-! Faults and the interrupt after a command (spec/60_exceptions.md): the access a bus fault reports and the front of the result
it leaves (R271, R276), and the level of the interrupt output (R278). -/

-- Elaborated one at a time: the package as one text would otherwise hold a thread and its stack for many theorems at once.
set_option Elab.async false

namespace Sys2Proof.Machine

/-! ### Bus faults -/

section

variable {i : Instr} {q : Profile} {l u : State} {E : List Elem}

/-- A count of stored elements stays below 2^64, so COUNT holds it exactly (R157). -/
theorem Filled.count_toNat (h : Filled l u E) (hl : Launched i q l) : (BitVec.ofNat 64 u.work.c).toNat = E.length := by
  have hlen := h.length_le hl
  have hna : l.na < 2 ^ 32 := l.regs.aLen.isLt
  rw [h.count, BitVec.toNat_ofNat]
  omega

/-- A fault entry reports how many elements are stored, and they are the first ones of the result (R275, R276). -/
theorem Filled.fault_keeps_front (h : Filled l u E) (hl : Launched i q l) (f : EngineFault) (p : Addr) :
    (takeFault f p u).regs.count.toNat ≤ (result l).length ∧
      (i.countOnly = false → setOf (takeFault f p u).mem l.regs.outBase (takeFault f p u).regs.count.toNat =
        (result l).take (takeFault f p u).regs.count.toNat) := by
  rw [show (takeFault f p u).regs.count.toNat = E.length from h.count_toNat hl]
  refine ⟨h.front.length_le, fun hco => ?_⟩
  rw [← List.prefix_iff_eq_take.1 h.front]
  exact h.out (hl.latch.trans hco)

/-- An access inside an input's window is one inside A's or one inside B's (R68). -/
theorem IsInput.access {base : Addr} {n x m : Nat} (h : IsInput q l base n) (hx : 4 * x + m ≤ 4 * n) :
    (eltAddr base x = eltAddr l.regs.aBase x ∧ 4 * x + m ≤ lenA q l) ∨
      (eltAddr base x = eltAddr l.regs.bBase x ∧ 4 * x + m ≤ lenB q l) := by
  rcases h with ⟨rfl, rfl⟩ | ⟨rfl, rfl⟩
  · exact .inl ⟨rfl, hx⟩
  · exact .inr ⟨rfl, hx⟩

end

/-- Settles O53: a command that has not completed with the result has taken one of the two bus faults, with a front of the
result stored. -/
theorem busFaultLeavesAPrefix : Obligations.BusFaultLeavesAPrefix := by
  intro i q s t hidle hprofile hchecks hcontract hexec hfault
  have hl := launched_launch hprofile hchecks hcontract
  obtain ⟨r, hrun, hr⟩ := exec_ends hidle hprofile hchecks hcontract
  obtain rfl := Host.Outcome.next.inj (hexec.symm.trans hrun)
  rcases hr with ⟨u, hf, rfl⟩ | ⟨e, hbus, rfl⟩
  · exact absurd ((intersects_of_filled _ hl hf).noFault.symm.trans hfault) (by decide)
  · cases hbus with
    | read E base n x m hf hin hsize hinside hread haddr hrefused =>
      have hcode : faultCodeOf e.fault = 0x05 := congrArg faultCodeOf hread
      refine ⟨.inl hcode, fun _ => ⟨x, m, hsize, ?_, (allBytes_false _ _ _).1 hrefused⟩,
        fun h => absurd (hcode.symm.trans h) (by decide), hf.fault_keeps_front hl e.fault e.addr⟩
      show (e.addr = _ ∧ _) ∨ (e.addr = _ ∧ _)
      rw [haddr]
      exact hin.access hinside
    | write E Ms hf hnext hwidth hstores hwrite haddr hrefused =>
      have hcode : faultCodeOf e.fault = 0x06 := congrArg faultCodeOf hwrite
      have hcount : (takeFault e.fault e.addr e.state).regs.count.toNat = E.length := hf.count_toNat hl
      refine ⟨.inr hcode, fun h => absurd (hcode.symm.trans h) (by decide),
        fun _ => ⟨hl.latch.symm.trans hstores, ?_, Ms.length, hwidth, ?_, (allBytes_false _ _ _).1 hrefused⟩,
        hf.fault_keeps_front hl e.fault e.addr⟩
      · rw [State.setHost_regs, hcount]
        exact haddr
      · rw [State.setHost_regs, hcount, ← List.length_append]
        exact hnext.length_le

/-! ### The interrupt -/

/-- While busy the interrupt output is low, STATUS showing neither DONE nor FAULT (R34). -/
theorem irq_of_busy {s : State} (h : s.busy = true) : s.irq = false := by simp [State.irq, h]

theorem irq_of_disabled {s : State} (h : s.regs.ie = false) : s.irq = false := by simp [State.irq, h]

theorem irq_of_status_clear {s : State} (hdone : s.regs.done = false) (hfault : s.regs.fault = false) :
    s.irq = false := by simp [State.irq, hdone, hfault]

/-- With the engine idle and exactly one of DONE and FAULT set the interrupt output is CTRL.IE. -/
theorem irq_of_ended {s : State} (hidle : s.phase = .idle) (hend : s.regs.done = !s.regs.fault) :
    s.irq = s.regs.ie := by simp [State.irq, busy_false hidle, hend]

/-- Settles O15: a command ends idle with DONE or FAULT; the acknowledge clears both, the launch makes the engine busy. -/
theorem interruptFollowsCompletion : Obligations.InterruptFollowsCompletion := by
  intro i s t hidle hexec
  have hphase : t.phase = .idle := exec_next hexec ▸ runWord_phase (encode i) s
  have hie : t.regs.ie = s.regs.ie := (commandKeepsDescriptors i s t hexec).ie
  obtain ⟨-, hend, -⟩ := commandEndsInDoneOrFault i s t hidle hexec
  refine ⟨hie ▸ irq_of_ended hphase hend, ?_, fun v => ?_, ?_⟩
  · rw [acknowledgeClearsWhatItNames t 0x6 hphase]
    exact irq_of_status_clear (Bool.and_false _) (Bool.and_false _)
  · rw [hostWrite_launch v hphase]
    exact irq_of_busy rfl
  · rw [hostWrite_idle 3 0 (busy_false hphase)]
    exact irq_of_disabled rfl

end Sys2Proof.Machine
end

section
/-! The idle engine and the reset input (spec/70_reset_and_hazards.md R284, R300, R301). -/

-- Elaborated one at a time: the package as one text would otherwise hold a thread and its stack for many theorems at once.
set_option Elab.async false

namespace Sys2Proof.Machine

/-- With no line pending the engine moves (R9). -/
theorem step_of_no_line {s : State} (h : s.host.script = []) : step s = .next (engineStep s) := by
  rw [step, h]

/-- Settles O8: no line is played, and the engine does not move. -/
theorem idleEngineWaits : Obligations.IdleEngineWaits := by
  intro s hidle hscript
  rw [step_of_no_line hscript, engineStep_idle hidle]

theorem step_reset {s : State} {rest : List HostLine} (h : s.host.script = .reset :: rest) :
    step s = .next (resetInput (s.withScript rest)) := by
  rw [step, h]
  simp only [playLine, popLine, h, List.tail_cons]
  rfl

/-- The registers after the reset input are those of the reset state, and so is what the host reads (R45, R300). -/
theorem hostRead_resetInput (n : Nat) (s : State) : hostRead n (resetInput s) = hostRead n State.reset := rfl

/-- Settles O17: the reset input takes the reset state's registers and phase, and memory and the host's side from before. -/
theorem resetInputKeepsMemory : Obligations.ResetInputKeepsMemory := by
  intro s rest hscript
  obtain ⟨-, hzero, -⟩ := resetReadsZero
  exact ⟨_, step_reset hscript, rfl, rfl, rfl, fun n hn => (hostRead_resetInput n _).trans (hzero n hn), rfl, rfl, rfl, rfl,
    rfl⟩

end Sys2Proof.Machine
end
